-- ==== Sys2Proof/Word.lean ====
section
/-! DEFINITION. The word types of IRCODEC and the small closed vocabularies of its spec: polarities, protocols,
symbol kinds, pulse events, and a word tagged with the port or register it travels on. -/

namespace Sys2Proof

/-- A host register, a duration, a timestamp: 32 bits (spec/00_scope.md R11). -/
abbrev Word := BitVec 32

/-- One byte: a payload byte of an R05D frame or one byte of a trace. -/
abbrev Byte := BitVec 8

/-- Mark is carrier on, Space is carrier off (spec/00_scope.md R17, spec/30_encoding.md R105). -/
inductive Polarity where
  | space
  | mark
deriving DecidableEq, Repr, Inhabited

/-- The two protocols (spec/00_scope.md R4, spec/30_encoding.md R103). -/
inductive Proto where
  | nec
  | r05d
deriving DecidableEq, Repr, Inhabited

/-- The timing roles, in the order of the KIND codes 0 to 7 (spec/30_encoding.md R104). The R05D names
LeadMark and LeadSpace are `headerMark` and `headerSpace` (spec/90_conflicts.md C4). -/
inductive SymbolKind where
  | headerMark
  | headerSpace
  | bit0Mark
  | bit0Space
  | bit1Mark
  | bit1Space
  | stopMark
  | stopSpace
deriving DecidableEq, Repr, Inhabited

/-- A pair (polarity, duration in µs) (spec/00_scope.md R18). -/
structure PulseEvent where
  pol : Polarity
  dur : Word
deriving DecidableEq, Repr, Inhabited

/-- A word together with the port or register it travels on, which fixes its format
(spec/30_encoding.md R100). -/
inductive PortWord where
  | cmd (w : BitVec 32)
  | drv (w : BitVec 32)
  | cap (w : BitVec 34)
  | edge (w : BitVec 33)
  | trc (w : BitVec 9)
  | record (w : BitVec 64)
deriving DecidableEq, Repr

end Sys2Proof
end

