-- ==== Sys2Proof/Syntax.lean ====
section
/-! DEFINITION. The instructions: one constructor per row of spec/opcode_table.json. The 13 host commands carry
their PROTO and KIND fields raw, also where the opcode ignores them, and the 11 port words carry every field of
their format, also the ignored ones, so that an instruction and its word say the same thing. -/

namespace Sys2Proof

/-- One row of the opcode table each (spec/30_encoding.md R106 and R110 to R114). -/
inductive Instr where
  -- host command words, written to CMD
  | nop (proto kind : BitVec 4)
  | nominal (proto kind : BitVec 4)
  | window (proto kind : BitVec 4)
  | matchSym (proto kind : BitVec 4)
  | nearest (proto kind : BitVec 4)
  | symbol (proto kind : BitVec 4)
  | txStart (proto kind : BitVec 4)
  | rxStart (proto kind : BitVec 4)
  | rxStop (proto kind : BitVec 4)
  | gapStart (proto kind : BitVec 4)
  | gapStop (proto kind : BitVec 4)
  | gapAck (proto kind : BitVec 4)
  | taStart (proto kind : BitVec 4)
  -- driver words, pushed by the TX sequencer on DRV
  | drvDisable
  | drvEnable
  | drvDelay (n : BitVec 24)
  -- capture words, popped by the RX decoder from CAP (a timeout's fields are ignored)
  | capPulse (pol : Polarity) (dur : Word)
  | capTimeout (pol : Polarity) (dur : Word)
  -- edge words, taken by the GAP framer from EDGE
  | edge (pol : Polarity) (ts : Word)
  -- trace tokens, popped by the TA unit from TRC (an END token's data is ignored)
  | trcByte (data : Byte)
  | trcEnd (data : Byte)
  -- records, pushed by the TA unit on REC
  | recRecon (pol : Polarity) (measured : BitVec 29) (nom : BitVec 16)
  | recAnomaly (pol : Polarity) (measured : BitVec 29) (nom : BitVec 16)
  | recEnd
deriving DecidableEq, Repr

end Sys2Proof
end

