-- ==== Sys2Proof/WellFormed.lean ====
section
/-! DEFINITION. Which instructions are well formed: a command whose used fields hold legal values (spec/30_encoding.md
R103, R104), a DELAY the TX sequencer can produce (R110). An ill-formed command still has a word and a meaning: its
CmdError (spec/60_exceptions.md R330). -/

namespace Sys2Proof

/-- PROTO values 0 and 1 are legal (spec/30_encoding.md R103). -/
def protoLegal (p : BitVec 4) : Bool := decide (p.toNat ≤ 1)

/-- KIND values 0 to 7 are legal (spec/30_encoding.md R104). -/
def kindLegal (k : BitVec 4) : Bool := decide (k.toNat ≤ 7)

/-- The check itself; a field an opcode does not use may hold any value (spec/30_encoding.md R107). -/
def Instr.wellFormed : Instr → Bool
  | .nop _ _ => true
  | .nominal p k => protoLegal p && kindLegal k
  | .window p k => protoLegal p && kindLegal k
  | .matchSym p k => protoLegal p && kindLegal k
  | .nearest p _ => protoLegal p
  | .symbol p _ => protoLegal p
  | .txStart p _ => protoLegal p
  | .rxStart p _ => protoLegal p
  | .rxStop _ _ => true
  | .gapStart p _ => protoLegal p
  | .gapStop _ _ => true
  | .gapAck _ _ => true
  | .taStart _ _ => true
  | .drvDisable => true
  | .drvEnable => true
  | .drvDelay n => decide (n.toNat ≤ 0xFFFF)
  | .capPulse _ _ => true
  | .capTimeout _ _ => true
  | .edge _ _ => true
  | .trcByte _ => true
  | .trcEnd _ => true
  | .recRecon _ _ _ => true
  | .recAnomaly _ _ _ => true
  | .recEnd => true

/-- A well-formed instruction. -/
abbrev Instr.WellFormed (i : Instr) : Prop := i.wellFormed = true

end Sys2Proof
end

