-- ==== Sys2Proof/Decode.lean ====
section
/-! DEFINITION. The decoder and the encoder of every word format (spec/30_encoding.md sections 2 and 3), with the
encodings of their fields. The decoder is total: a word that is no instruction is rejected by name. -/

namespace Sys2Proof

/-! ## Field encodings -/

/-- 1 is Mark, 0 is Space (spec/30_encoding.md R105). -/
def Polarity.ofBit (b : Bool) : Polarity := if b then .mark else .space

/-- The POL bit of a polarity (spec/30_encoding.md R105). -/
def Polarity.bit : Polarity → BitVec 1
  | .mark => 1#1
  | .space => 0#1

/-- The PROTO code (spec/30_encoding.md R103). -/
def Proto.code : Proto → BitVec 4
  | .nec => 0#4
  | .r05d => 1#4

/-- The protocol a PROTO field names; values 2 to 15 name none (spec/30_encoding.md R103). -/
def Proto.ofField (p : BitVec 4) : Option Proto :=
  if p = 0#4 then some .nec else if p = 1#4 then some .r05d else none

/-- The KIND code (spec/30_encoding.md R104). -/
def SymbolKind.code : SymbolKind → BitVec 4
  | .headerMark => 0#4
  | .headerSpace => 1#4
  | .bit0Mark => 2#4
  | .bit0Space => 3#4
  | .bit1Mark => 4#4
  | .bit1Space => 5#4
  | .stopMark => 6#4
  | .stopSpace => 7#4

/-- The symbol kind a KIND field names; values 8 to 15 name none (spec/30_encoding.md R104). -/
def SymbolKind.ofField (k : BitVec 4) : Option SymbolKind :=
  if k = 0#4 then some .headerMark
  else if k = 1#4 then some .headerSpace
  else if k = 2#4 then some .bit0Mark
  else if k = 3#4 then some .bit0Space
  else if k = 4#4 then some .bit1Mark
  else if k = 5#4 then some .bit1Space
  else if k = 6#4 then some .stopMark
  else if k = 7#4 then some .stopSpace
  else none

/-! ## Rejections -/

/-- Why a word written to CMD is no command (spec/30_encoding.md R107). -/
inductive CmdReject where
  | reservedBits
  | badOpcode
deriving DecidableEq, Repr

/-- Why a word is no instruction: an illegal command word, or a DRV or REC pattern the block never produces
(spec/30_encoding.md R110, R114). -/
inductive DecodeError where
  | cmd (why : CmdReject)
  | neverProduced
deriving DecidableEq, Repr

/-! ## Decoder -/

/-- The OP field of a command word (spec/30_encoding.md R102). -/
def opField (v : BitVec 32) : BitVec 8 := v.extractLsb' 0 8

/-- The PROTO field of a command word (spec/30_encoding.md R102). -/
def protoField (v : BitVec 32) : BitVec 4 := v.extractLsb' 8 4

/-- The KIND field of a command word (spec/30_encoding.md R102). -/
def kindField (v : BitVec 32) : BitVec 4 := v.extractLsb' 12 4

/-- The opcode map (spec/30_encoding.md R106). -/
def decodeOp (op : BitVec 8) (p k : BitVec 4) : Except CmdReject Instr :=
  if op = 0x00#8 then .ok (.nop p k)
  else if op = 0x01#8 then .ok (.nominal p k)
  else if op = 0x02#8 then .ok (.window p k)
  else if op = 0x03#8 then .ok (.matchSym p k)
  else if op = 0x04#8 then .ok (.nearest p k)
  else if op = 0x05#8 then .ok (.symbol p k)
  else if op = 0x10#8 then .ok (.txStart p k)
  else if op = 0x20#8 then .ok (.rxStart p k)
  else if op = 0x21#8 then .ok (.rxStop p k)
  else if op = 0x30#8 then .ok (.gapStart p k)
  else if op = 0x31#8 then .ok (.gapStop p k)
  else if op = 0x32#8 then .ok (.gapAck p k)
  else if op = 0x40#8 then .ok (.taStart p k)
  else .error .badOpcode

/-- A command word: reserved bits first, then the opcode map (spec/30_encoding.md R101, R107). -/
def decodeCmd (v : BitVec 32) : Except CmdReject Instr :=
  if v.extractLsb' 16 16 ≠ 0#16 then .error .reservedBits
  else decodeOp (opField v) (protoField v) (kindField v)

/-- A DRV word (spec/30_encoding.md R110). -/
def decodeDrv (w : BitVec 32) : Except DecodeError Instr :=
  if w = 0x00000000#32 then .ok .drvDisable
  else if w = 0x40000000#32 then .ok .drvEnable
  else if w.extractLsb' 24 8 = 0x80#8 then .ok (.drvDelay (w.extractLsb' 0 24))
  else .error .neverProduced

/-- A CAP word; every one is an instruction (spec/30_encoding.md R111). -/
def decodeCap (w : BitVec 34) : Instr :=
  if w.getLsbD 33 then .capTimeout (Polarity.ofBit (w.getLsbD 32)) (w.extractLsb' 0 32)
  else .capPulse (Polarity.ofBit (w.getLsbD 32)) (w.extractLsb' 0 32)

/-- An EDGE word; every one is an instruction (spec/30_encoding.md R112). -/
def decodeEdge (w : BitVec 33) : Instr :=
  .edge (Polarity.ofBit (w.getLsbD 32)) (w.extractLsb' 0 32)

/-- A TRC token; every one is an instruction (spec/30_encoding.md R113). -/
def decodeTrc (w : BitVec 9) : Instr :=
  if w.getLsbD 8 then .trcEnd (w.extractLsb' 0 8) else .trcByte (w.extractLsb' 0 8)

/-- A REC word (spec/30_encoding.md R114). -/
def decodeRec (w : BitVec 64) : Except DecodeError Instr :=
  if w = 0x8000000000000000#64 then .ok .recEnd
  else if w.extractLsb' 0 16 ≠ 0#16 then .error .neverProduced
  else if w.extractLsb' 62 2 = 0#2 then
    .ok (.recRecon (Polarity.ofBit (w.getLsbD 61)) (w.extractLsb' 32 29) (w.extractLsb' 16 16))
  else if w.extractLsb' 62 2 = 1#2 then
    .ok (.recAnomaly (Polarity.ofBit (w.getLsbD 61)) (w.extractLsb' 32 29) (w.extractLsb' 16 16))
  else .error .neverProduced

/-- The decoder: the port or register fixes the format (spec/30_encoding.md R100). -/
def decode : PortWord → Except DecodeError Instr
  | .cmd w =>
    match decodeCmd w with
    | .ok i => .ok i
    | .error e => .error (.cmd e)
  | .drv w => decodeDrv w
  | .cap w => .ok (decodeCap w)
  | .edge w => .ok (decodeEdge w)
  | .trc w => .ok (decodeTrc w)
  | .record w => decodeRec w

/-! ## Encoder -/

/-- A command word from its fields (spec/30_encoding.md R102). -/
def cmdWord (op : BitVec 8) (p k : BitVec 4) : BitVec 32 := 0#16 ++ k ++ p ++ op

/-- DELAY n (spec/30_encoding.md R110). -/
def delayWord (n : BitVec 24) : BitVec 32 := 0x80#8 ++ n

/-- A CAP word from its fields (spec/30_encoding.md R111). -/
def capWord (t : BitVec 1) (pol : Polarity) (dur : Word) : BitVec 34 := t ++ pol.bit ++ dur

/-- An EDGE word from its fields (spec/30_encoding.md R112). -/
def edgeWord (pol : Polarity) (ts : Word) : BitVec 33 := pol.bit ++ ts

/-- A TRC token from its fields (spec/30_encoding.md R113). -/
def trcWord (e : BitVec 1) (data : Byte) : BitVec 9 := e ++ data

/-- A RECON or ANOMALY word from its fields (spec/30_encoding.md R114). -/
def recWord (ty : BitVec 2) (pol : Polarity) (measured : BitVec 29) (nom : BitVec 16) : BitVec 64 :=
  ty ++ pol.bit ++ measured ++ nom ++ 0#16

/-- The END record (spec/44_trace_analyzer.md R298). -/
def recEndWord : BitVec 64 := 0x8000000000000000#64

/-- The word of an instruction, from the same tables (spec/30_encoding.md R102, R106, R110 to R114). -/
def encode : Instr → PortWord
  | .nop p k => .cmd (cmdWord 0x00#8 p k)
  | .nominal p k => .cmd (cmdWord 0x01#8 p k)
  | .window p k => .cmd (cmdWord 0x02#8 p k)
  | .matchSym p k => .cmd (cmdWord 0x03#8 p k)
  | .nearest p k => .cmd (cmdWord 0x04#8 p k)
  | .symbol p k => .cmd (cmdWord 0x05#8 p k)
  | .txStart p k => .cmd (cmdWord 0x10#8 p k)
  | .rxStart p k => .cmd (cmdWord 0x20#8 p k)
  | .rxStop p k => .cmd (cmdWord 0x21#8 p k)
  | .gapStart p k => .cmd (cmdWord 0x30#8 p k)
  | .gapStop p k => .cmd (cmdWord 0x31#8 p k)
  | .gapAck p k => .cmd (cmdWord 0x32#8 p k)
  | .taStart p k => .cmd (cmdWord 0x40#8 p k)
  | .drvDisable => .drv 0x00000000#32
  | .drvEnable => .drv 0x40000000#32
  | .drvDelay n => .drv (delayWord n)
  | .capPulse pol dur => .cap (capWord 0#1 pol dur)
  | .capTimeout pol dur => .cap (capWord 1#1 pol dur)
  | .edge pol ts => .edge (edgeWord pol ts)
  | .trcByte data => .trc (trcWord 0#1 data)
  | .trcEnd data => .trc (trcWord 1#1 data)
  | .recRecon pol m n => .record (recWord 0#2 pol m n)
  | .recAnomaly pol m n => .record (recWord 1#2 pol m n)
  | .recEnd => .record recEndWord

/-! ## Words as the opcode table numbers them -/

/-- Whether a command word decodes. -/
def isCmd (w : BitVec 32) : Bool :=
  match decodeCmd w with
  | .ok _ => true
  | .error _ => false

/-- Whether a DRV word decodes. -/
def isDrv (w : BitVec 32) : Bool :=
  match decodeDrv w with
  | .ok _ => true
  | .error _ => false

/-- The port a table word is taken to travel on, from its width alone: the table's numbering does not say the port,
which fixes the format (spec/30_encoding.md R100). A 32-bit word is a command word where it is one, else a DRV word;
a word of 34 to 40 bits is a CAP word, of exactly 33 an EDGE word; 9 to 16 bits are a TRC token (log 4). -/
def tablePortWord (nbits w : Nat) : Option PortWord :=
  if nbits = 32 ∧ w < 2 ^ 32 then
    let v := BitVec.ofNat 32 w
    if isCmd v then some (.cmd v) else if isDrv v then some (.drv v) else some (.cmd v)
  else if nbits = 33 ∧ w < 2 ^ 33 then some (.edge (BitVec.ofNat 33 w))
  else if 34 ≤ nbits ∧ nbits ≤ 40 ∧ w < 2 ^ 34 then some (.cap (BitVec.ofNat 34 w))
  else if 9 ≤ nbits ∧ nbits ≤ 16 ∧ w < 2 ^ 9 then some (.trc (BitVec.ofNat 9 w))
  else if nbits = 64 ∧ w < 2 ^ 64 then some (.record (BitVec.ofNat 64 w))
  else none

/-- The instruction the decoder reads from a word numbered as spec/opcode_table.json numbers it. -/
def decodeTableWord (nbits w : Nat) : Option Instr :=
  match tablePortWord nbits w with
  | some pw =>
    match decode pw with
    | .ok i => some i
    | .error _ => none
  | none => none

end Sys2Proof
end

