-- ==== Sys2Proof/Config.lean ====
section
/-! DEFINITION. What an implementation fixes and what the outside world chooses: the OPEN parameters of
spec/00_scope.md R9, and the order and content of the agents' actions where no script gives them. The parameters to
which the source gives a value (TIMING, TOL_PCT, NBITS) stand in Machine/Timing.lean. -/

namespace Sys2Proof

/-- One atomic step of one agent (spec/60_exceptions.md R348, spec/00_scope.md R16): a host access, a step of one
of the four units, or a step of the environment (a word offered on an input port, the readiness of a consumer, time
passing, the reset input). -/
inductive Action where
  | hostRead (size : Nat) (a : BitVec 8)
  | hostWrite (size : Nat) (a : BitVec 8) (v : Word)
  | tx
  | rx
  | edgeIntake
  | gapEdge
  | gapSilence
  | taToken
  | taEmit
  | capOffer (w : BitVec 34)
  | edgeOffer (w : BitVec 33)
  | trcOffer (w : BitVec 9)
  | drvReady (b : Bool)
  | recReady (b : Bool)
  | tick (us : Word)
  | rst (b : Bool)
deriving DecidableEq, Repr, Inhabited

/-- How far EDGE_Q_DEPTH exceeds its bound of 1; the spec leaves it OPEN (spec/00_scope.md R9; log 1). -/
opaque Config.edgeQExtra : Nat

/-- How far FRAME_BUF_DEPTH exceeds its bound of 199; the spec leaves it OPEN (spec/00_scope.md R9; log 1). -/
opaque Config.frameBufExtra : Nat

/-- The action taken where nothing scripts one: any agent, any content (spec/60_exceptions.md R348, "a model may
choose any fair order"; log 2). -/
opaque Config.freeAction : Nat → Action

/-- EDGE_Q_DEPTH, at least 1 (spec/00_scope.md R9). -/
def Config.edgeQDepth : Nat := Config.edgeQExtra + 1

/-- FRAME_BUF_DEPTH, at least 199 (spec/00_scope.md R9). -/
def Config.frameBufDepth : Nat := Config.frameBufExtra + 199

end Sys2Proof
end

