-- ==== Sys2Proof/Machine/State.lean ====
section
/-! DEFINITION. The state of IRCODEC: the host registers with storage (spec/10_state.md section 3), the state of the
four units (section 5), and the ports and signals at the block's boundary (spec/20_memory.md section 3), as plain
data; its reset value (spec/70_reset_and_hazards.md R370); the faults and refusals. -/

namespace Sys2Proof.Machine

/-! ## Host registers -/

/-- CSTAT.ERR: the status of the last CMD write (spec/60_exceptions.md R330). -/
inductive CmdStatus where
  | ok
  | reservedBits
  | badOpcode
  | badProto
  | badKind
  | undefSymbol
  | badIndex
  | busy
deriving DecidableEq, Repr

/-- The registers of the window that have storage of their own (spec/10_state.md R24 to R27, R34, R37 to R39, R42,
R43). The other registers are views of the units' state. -/
structure HostRegs where
  arg : Word
  cres0 : Word
  cres1 : Word
  err : CmdStatus
  lastOp : BitVec 8
  gapcfg : Word
  tacfg0 : Word
  tacfg1 : Word
  tacfg2 : Word
  irqen : Word
  irqstat : Word
deriving DecidableEq, Repr

/-- spec/70_reset_and_hazards.md R370. -/
def HostRegs.reset : HostRegs where
  arg := 0#32
  cres0 := 0#32
  cres1 := 0#32
  err := .ok
  lastOp := 0#8
  gapcfg := 0x00002710#32
  tacfg0 := 0x01F40064#32
  tacfg1 := 0x01A000E8#32
  tacfg2 := 0x00000011#32
  irqen := 0#32
  irqstat := 0#32

/-! ## TX sequencer -/

/-- `tx_st` (spec/10_state.md R46). -/
inductive TxSt where
  | idle
  | emitting
deriving DecidableEq, Repr

/-- A driver op (spec/00_scope.md R19): the three DRV words (spec/30_encoding.md R110). -/
inductive DriverOp where
  | disable
  | enable
  | delay (n : BitVec 24)
deriving DecidableEq, Repr

/-- TX sequencer state (spec/10_state.md R46). -/
structure TxUnit where
  st : TxSt
  proto : Proto
  ops : List DriverOp
  opi : Nat
  events : BitVec 16
  done : Bool
deriving DecidableEq, Repr

/-- spec/10_state.md R46. -/
def TxUnit.reset : TxUnit where
  st := .idle
  proto := .nec
  ops := []
  opi := 0
  events := 0#16
  done := false

/-! ## RX decoder -/

/-- `rx_st`, codes 0 to 7 (spec/10_state.md R30). -/
inductive DecSt where
  | idle
  | awaitHeaderMark
  | awaitHeaderSpace
  | awaitBitMark
  | awaitBitSpace
  | awaitStop
  | done
  | failed
deriving DecidableEq, Repr

/-- The decoder failure codes 0 to 4 (spec/10_state.md R31). -/
inductive FailCode where
  | none
  | headerMismatch
  | bitPulseMismatch
  | bitSpaceMismatch
  | timeout
deriving DecidableEq, Repr

/-- The decoder's state s = (st, i, acc, fail, warn) (spec/42_decoder.md R210). -/
structure DecState where
  st : DecSt
  i : Nat
  acc : BitVec 48
  fail : FailCode
  warn : Bool
deriving DecidableEq, Repr

/-- A decoder that is not armed (spec/10_state.md R30, R47). -/
def DecState.idle : DecState where
  st := .idle
  i := 0
  acc := 0#48
  fail := .none
  warn := false

/-- A decoder waiting for a header mark (spec/42_decoder.md R212, spec/43_gap_framer.md R260). -/
def DecState.armed : DecState where
  st := .awaitHeaderMark
  i := 0
  acc := 0#48
  fail := .none
  warn := false

/-- RX decoder state (spec/10_state.md R47) with RXDATA0 and RXDATA1 (R32, R33). -/
structure RxUnit where
  proto : Proto
  dec : DecState
  data0 : Word
  data1 : Word
deriving DecidableEq, Repr

/-- spec/10_state.md R47. -/
def RxUnit.reset : RxUnit where
  proto := .nec
  dec := .idle
  data0 := 0#32
  data1 := 0#32

/-! ## GAP framer -/

/-- A queued EDGE word (spec/30_encoding.md R112). -/
structure EdgeEvent where
  pol : Polarity
  ts : Word
deriving DecidableEq, Repr

/-- A latched frame result: the result fields of GAPSTAT with GAPDATA0 and GAPDATA1 (spec/10_state.md R35, R36). -/
structure GapResult where
  failed : Bool
  frameOvf : Bool
  fail : FailCode
  index : Nat
  stopWarn : Bool
  data0 : Word
  data1 : Word
deriving DecidableEq, Repr

/-- GAP framer state (spec/10_state.md R48). `result` is present iff GAPSTAT.PENDING = 1 (R35). -/
structure GapUnit where
  en : Bool
  proto : Proto
  thr : Word
  q : List EdgeEvent
  haveLast : Bool
  lastTs : Word
  lastPol : Polarity
  buf : List PulseEvent
  bufOvf : Bool
  result : Option GapResult
  edgeOvf : Bool
  resultOverrun : Bool
deriving DecidableEq, Repr

/-- spec/10_state.md R48. -/
def GapUnit.reset : GapUnit where
  en := false
  proto := .nec
  thr := 0#32
  q := []
  haveLast := false
  lastTs := 0#32
  lastPol := .space
  buf := []
  bufOvf := false
  result := none
  edgeOvf := false
  resultOverrun := false

/-! ## TA unit -/

/-- A record (spec/00_scope.md R19): the three REC words (spec/30_encoding.md R114). -/
inductive Record where
  | recon (pol : Polarity) (measured : BitVec 29) (nom : BitVec 16)
  | anomaly (pol : Polarity) (measured : BitVec 29) (nom : BitVec 16)
  | fin
deriving DecidableEq, Repr

/-- TA unit state (spec/10_state.md R49) with the counters of TASTAT and TARUNS (R40, R41). -/
structure TaUnit where
  busy : Bool
  done : Bool
  cMin : BitVec 16
  cMax : BitVec 16
  cSeek : BitVec 16
  cScale : BitVec 16
  cMark : Bool
  cProto : Proto
  skip : BitVec 16
  rawValid : Bool
  rawPol : Polarity
  rawCnt : Word
  curValid : Bool
  curPol : Polarity
  curCnt : Word
  preCnt : Word
  out : List Record
  anomalies : BitVec 16
  runs : Word
deriving DecidableEq, Repr

/-- spec/10_state.md R49. -/
def TaUnit.reset : TaUnit where
  busy := false
  done := false
  cMin := 0#16
  cMax := 0#16
  cSeek := 0#16
  cScale := 0#16
  cMark := false
  cProto := .nec
  skip := 0#16
  rawValid := false
  rawPol := .space
  rawCnt := 0#32
  curValid := false
  curPol := .space
  curCnt := 0#32
  preCnt := 0#32
  out := []
  anomalies := 0#16
  runs := 0#32

/-! ## The boundary -/

/-- The spec's name for the error of a host access that the bus refuses (spec/20_memory.md R74, spec/60_exceptions.md
R333, spec/70_reset_and_hazards.md R370): size not 4, offset not a multiple of 4, or `rst` = 1. -/
inductive Fault where
  /-- Raised by a host read or write. It is reported on the bus in the next state (`BusResponse.refused`), where every
  command stays usable (spec/60_exceptions.md R335); no step answers it as its outcome. Safe (log 7). -/
  | busError (a : BitVec 8)
deriving DecidableEq, Repr

/-- What the bus answered the host's last access (spec/20_memory.md R71, R72, R74; log 13). -/
inductive BusResponse where
  /-- No access was made yet. -/
  | idle
  /-- A read's data. -/
  | data (v : Word)
  /-- A write was taken. -/
  | accepted
  /-- The error response to a refused access. -/
  | refused (why : Fault)
deriving DecidableEq, Repr

/-- The ports and signals at the block's boundary (spec/20_memory.md R80 to R87), what their other side holds, and
the model's own script (log 2, log 5, log 8). -/
structure Env where
  /-- The input `rst` (R87). -/
  rst : Bool
  /-- The NOW input (R84). -/
  now : Word
  /-- Words the capture source offers on CAP, oldest first (R82). -/
  capIn : List (BitVec 34)
  /-- Words the edge source offers on EDGE, oldest first (R83). -/
  edgeIn : List (BitVec 33)
  /-- Tokens the trace source offers on TRC, oldest first (R85). -/
  trcIn : List (BitVec 9)
  /-- The carrier driver accepts a word (R80, R81). -/
  drvReady : Bool
  /-- The record sink accepts a word (R80, R86). -/
  recReady : Bool
  /-- Words the carrier driver has accepted, oldest first. -/
  drvOut : List (BitVec 32)
  /-- Words the record sink has accepted, oldest first. -/
  recOut : List (BitVec 64)
  /-- The bus's response to the host's last access (R70, R74). -/
  bus : BusResponse
  /-- The actions to come, soonest first; where it is empty the next one is free (log 2). -/
  pending : List Action
  /-- How many free actions were taken. -/
  picks : Nat
deriving DecidableEq, Repr

/-- Right after a reset with nothing connected yet (log 5). -/
def Env.reset : Env where
  rst := false
  now := 0#32
  capIn := []
  edgeIn := []
  trcIn := []
  drvReady := true
  recReady := true
  drvOut := []
  recOut := []
  bus := .idle
  pending := []
  picks := 0

/-! ## The machine -/

/-- All the state: the block's (`host`, `tx`, `rx`, `gap`, `ta`) and the boundary's (`env`). -/
structure State where
  host : HostRegs
  tx : TxUnit
  rx : RxUnit
  gap : GapUnit
  ta : TaUnit
  env : Env
deriving DecidableEq, Repr

/-- The machine right after reset (spec/70_reset_and_hazards.md R370). -/
def State.reset : State where
  host := .reset
  tx := .reset
  rx := .reset
  gap := .reset
  ta := .reset
  env := .reset

/-- Why a step is refused. -/
inductive Refusal where
  /-- An instruction without a meaning; no arm of exec answers it, every instruction has its meaning. Safe. -/
  | notModelled (mnemonic : String)
deriving DecidableEq, Repr

/-- What a step answers. -/
abbrev Out := Host.Outcome State Fault Refusal

end Sys2Proof.Machine
end

