-- ==== Sys2Proof/Machine/Operands.lean ====
section
/-! DEFINITION. Operand assembly: the PROTO and KIND operands with their checks, the operands held in ARG, the fields
of the configuration registers, bit-field and saturation helpers. -/

namespace Sys2Proof.Machine

/-! ## Numbers -/

/-- The greatest 32-bit value: counts saturate there (spec/44_trace_analyzer.md R294). -/
def max32 : Nat := 0xFFFFFFFF

/-- `sat32` (spec/44_trace_analyzer.md R294). -/
def sat32 (x : Nat) : Word := BitVec.ofNat 32 (min x max32)

/-- The saturating 32-bit sum (spec/44_trace_analyzer.md R295). -/
def satAdd (a b : Word) : Word := sat32 (a.toNat + b.toNat)

/-- A saturating 16-bit count (spec/44_trace_analyzer.md R299, spec/92_eei_decisions.md D47). -/
def satInc16 (a : BitVec 16) : BitVec 16 := BitVec.ofNat 16 (min (a.toNat + 1) 0xFFFF)

/-- `|a - b|` on unsigned values (spec/00_scope.md R12). -/
def absDiff (a b : Nat) : Nat := if a ≤ b then b - a else a - b

/-- One bit of a Bool. -/
def bit1 (b : Bool) : BitVec 1 := if b then 1#1 else 0#1

/-! ## PROTO and KIND -/

/-- The PROTO operand of an opcode that uses it; BAD_PROTO above 1 (spec/30_encoding.md R103). -/
def withProto (p : BitVec 4) (body : Proto → Except CmdStatus State) : Except CmdStatus State :=
  match Proto.ofField p with
  | some proto => body proto
  | none => .error .badProto

/-- The KIND operand of an opcode that uses it; BAD_KIND above 7 (spec/30_encoding.md R104). -/
def withKind (k : BitVec 4) (body : SymbolKind → Except CmdStatus State) : Except CmdStatus State :=
  match SymbolKind.ofField k with
  | some kind => body kind
  | none => .error .badKind

/-! ## ARG -/

/-- The payload byte a of an R05D command value (spec/30_encoding.md R108). -/
def r05dByteA (x : Word) : Byte := x.extractLsb' 16 8

/-- The payload byte b of an R05D command value (spec/30_encoding.md R108). -/
def r05dByteB (x : Word) : Byte := x.extractLsb' 8 8

/-- The payload byte c of an R05D command value (spec/30_encoding.md R108). -/
def r05dByteC (x : Word) : Byte := x.extractLsb' 0 8

/-! ## Configuration fields -/

/-- TACFG0.MIN_RUN (spec/10_state.md R37). -/
def minRun (r : HostRegs) : BitVec 16 := r.tacfg0.extractLsb' 0 16

/-- TACFG0.MAX_DELTA (spec/10_state.md R37). -/
def maxDelta (r : HostRegs) : BitVec 16 := r.tacfg0.extractLsb' 16 16

/-- TACFG1.SEEK (spec/10_state.md R38). -/
def seekBytes (r : HostRegs) : BitVec 16 := r.tacfg1.extractLsb' 0 16

/-- TACFG1.SCALE (spec/10_state.md R38). -/
def sampleScale (r : HostRegs) : BitVec 16 := r.tacfg1.extractLsb' 16 16

/-- TACFG2.MARK_LEVEL (spec/10_state.md R39). -/
def markLevel (r : HostRegs) : Bool := r.tacfg2.getLsbD 0

/-- TACFG2.TPROTO (spec/10_state.md R39). -/
def tproto (r : HostRegs) : BitVec 4 := r.tacfg2.extractLsb' 4 4

end Sys2Proof.Machine
end

