-- ==== Sys2Proof/Machine/Flags.lean ====
section
/-! DEFINITION. Every flag and status computation: the status registers as the host reads them (spec/10_state.md R27
to R45), the interrupt bits and the line `irq` (R43, spec/60_exceptions.md R340, R342), the result words of a decode
(spec/42_decoder.md R222). -/

namespace Sys2Proof.Machine

/-! ## Codes -/

/-- CSTAT.ERR codes (spec/60_exceptions.md R330). -/
def CmdStatus.code : CmdStatus → BitVec 4
  | .ok => 0#4
  | .reservedBits => 1#4
  | .badOpcode => 2#4
  | .badProto => 3#4
  | .badKind => 4#4
  | .undefSymbol => 5#4
  | .badIndex => 6#4
  | .busy => 7#4

/-- RXSTAT.STATE codes (spec/10_state.md R30). -/
def DecSt.code : DecSt → BitVec 4
  | .idle => 0#4
  | .awaitHeaderMark => 1#4
  | .awaitHeaderSpace => 2#4
  | .awaitBitMark => 3#4
  | .awaitBitSpace => 4#4
  | .awaitStop => 5#4
  | .done => 6#4
  | .failed => 7#4

/-- A running state: codes 1 to 5 (spec/00_scope.md R19). -/
def DecSt.running : DecSt → Bool
  | .idle => false
  | .awaitHeaderMark => true
  | .awaitHeaderSpace => true
  | .awaitBitMark => true
  | .awaitBitSpace => true
  | .awaitStop => true
  | .done => false
  | .failed => false

/-- A terminal state: Done or Failed (spec/00_scope.md R19). -/
def DecSt.terminal : DecSt → Bool
  | .idle => false
  | .awaitHeaderMark => false
  | .awaitHeaderSpace => false
  | .awaitBitMark => false
  | .awaitBitSpace => false
  | .awaitStop => false
  | .done => true
  | .failed => true

/-- RXSTAT.FAIL and GAPSTAT.RES_FAIL codes (spec/10_state.md R31). -/
def FailCode.code : FailCode → BitVec 4
  | .none => 0#4
  | .headerMismatch => 1#4
  | .bitPulseMismatch => 2#4
  | .bitSpaceMismatch => 3#4
  | .timeout => 4#4

/-! ## Interrupts -/

/-- The interrupt sources (spec/60_exceptions.md R340). -/
inductive IrqSource where
  | cmdErr
  | txDone
  | rxTerm
  | gapResult
  | gapOvf
  | taDone
deriving DecidableEq, Repr

/-- The IRQSTAT bit of a source (spec/10_state.md R43). -/
def IrqSource.mask : IrqSource → Word
  | .cmdErr => 0x01#32
  | .txDone => 0x02#32
  | .rxTerm => 0x04#32
  | .gapResult => 0x08#32
  | .gapOvf => 0x10#32
  | .taDone => 0x20#32

/-- The bits of IRQEN and IRQSTAT that exist (spec/10_state.md R42, R43). -/
def irqBits : Word := 0x0000003F#32

/-- The bits of TACFG2 that exist (spec/20_memory.md R72). -/
def tacfg2Bits : Word := 0x000000F1#32

/-- Set one IRQSTAT bit; a bit already 1 stays 1 (spec/60_exceptions.md R340). -/
def HostRegs.raiseIrq (src : IrqSource) (r : HostRegs) : HostRegs :=
  { r with irqstat := r.irqstat ||| src.mask }

/-- The output `irq` (spec/60_exceptions.md R342). -/
def irqLine (s : State) : Bool := decide (s.host.irqstat &&& s.host.irqen &&& irqBits ≠ 0#32)

/-! ## Status registers as the host reads them -/

/-- CSTAT (spec/10_state.md R27). -/
def cstat (r : HostRegs) : Word := 0#16 ++ r.lastOp ++ 0#4 ++ r.err.code

/-- TXSTAT (spec/10_state.md R28). -/
def txstat (t : TxUnit) : Word :=
  t.events ++ 0#8 ++ t.proto.code ++ 0#2 ++ bit1 t.done ++ bit1 (decide (t.st = .emitting))

/-- RXSTAT (spec/10_state.md R29). -/
def rxstat (r : RxUnit) : Word :=
  0#7 ++ bit1 r.dec.warn ++ BitVec.ofNat 8 r.dec.i ++ r.dec.fail.code ++ r.dec.st.code ++ r.proto.code ++ 0#1
    ++ bit1 (decide (r.dec.st = .failed)) ++ bit1 (decide (r.dec.st = .done)) ++ bit1 r.dec.st.running

/-- The result fields that GAPSTAT, GAPDATA0 and GAPDATA1 show while no result is latched: all 0
(spec/10_state.md R35, R36). -/
def GapResult.absent : GapResult where
  failed := false
  frameOvf := false
  fail := .none
  index := 0
  stopWarn := false
  data0 := 0#32
  data1 := 0#32

/-- The result fields as the host sees them (spec/10_state.md R35, R36). -/
def GapUnit.shown (g : GapUnit) : GapResult := g.result.getD .absent

/-- GAPSTAT (spec/10_state.md R35). -/
def gapstat (g : GapUnit) : Word :=
  0#5 ++ bit1 g.resultOverrun ++ bit1 g.edgeOvf ++ bit1 g.shown.stopWarn ++ BitVec.ofNat 8 g.shown.index
    ++ g.shown.fail.code ++ 0#4 ++ g.proto.code ++ bit1 g.shown.frameOvf ++ bit1 g.shown.failed
    ++ bit1 g.result.isSome ++ bit1 g.en

/-- TASTAT (spec/10_state.md R40). -/
def tastat (t : TaUnit) : Word := t.anomalies ++ 0#14 ++ bit1 t.done ++ bit1 t.busy

/-! ## Result words of a decode -/

/-- The received byte r_j of an R05D sub-frame, j = 0 to 5 (spec/42_decoder.md R222). -/
def rxByte (acc : BitVec 48) (j : Nat) : Byte := acc.extractLsb' (40 - 8 * j) 8

/-- CMPL_OK: a payload byte is the NOT of its complement byte (spec/42_decoder.md R222). -/
def cmplOk (value complement : Byte) : Bool := decide (value = ~~~complement)

/-- DATA0 (spec/42_decoder.md R222). -/
def resultData0 : Proto → DecState → Word
  | .nec, d => d.acc.extractLsb' 0 32
  | .r05d, d => 0#8 ++ rxByte d.acc 0 ++ rxByte d.acc 2 ++ rxByte d.acc 4

/-- DATA1 (spec/42_decoder.md R222). -/
def resultData1 : Proto → DecState → Word
  | .nec, d => 0#3 ++ bit1 (!d.warn) ++ 0#28
  | .r05d, d =>
    0#3 ++ bit1 (!d.warn) ++ 0#1 ++ bit1 (cmplOk (rxByte d.acc 4) (rxByte d.acc 5))
      ++ bit1 (cmplOk (rxByte d.acc 2) (rxByte d.acc 3)) ++ bit1 (cmplOk (rxByte d.acc 0) (rxByte d.acc 1))
      ++ rxByte d.acc 1 ++ rxByte d.acc 3 ++ rxByte d.acc 5

end Sys2Proof.Machine
end

