-- ==== Sys2Proof/Machine/Ops.lean ====
section
/-! DEFINITION. The operations the meanings share: reading and writing the register window (spec/20_memory.md R71,
R72), the bus's response to an access (R74), ending a command with or without a CmdError (spec/60_exceptions.md R331),
holding a unit (spec/20_memory.md R80), and reset (spec/70_reset_and_hazards.md R370). -/

namespace Sys2Proof.Machine

/-! ## The register window -/

/-- An access the bus accepts: 4 bytes, at a multiple of 4 (spec/20_memory.md R70, R74), with `rst` = 0
(spec/70_reset_and_hazards.md R370). -/
def accessOk (size : Nat) (a : BitVec 8) (s : State) : Bool :=
  decide (size = 4) && decide (a.toNat % 4 = 0) && !s.env.rst

/-- The register at a legal offset as the host reads it; CMD and the reserved offsets read 0
(spec/20_memory.md R71, spec/10_state.md R22). -/
def readReg (a : BitVec 8) (s : State) : Word :=
  if a = 0x04#8 then s.host.arg
  else if a = 0x08#8 then s.host.cres0
  else if a = 0x0C#8 then s.host.cres1
  else if a = 0x10#8 then cstat s.host
  else if a = 0x14#8 then txstat s.tx
  else if a = 0x18#8 then rxstat s.rx
  else if a = 0x1C#8 then s.rx.data0
  else if a = 0x20#8 then s.rx.data1
  else if a = 0x24#8 then s.host.gapcfg
  else if a = 0x28#8 then gapstat s.gap
  else if a = 0x2C#8 then s.gap.shown.data0
  else if a = 0x30#8 then s.gap.shown.data1
  else if a = 0x34#8 then s.host.tacfg0
  else if a = 0x38#8 then s.host.tacfg1
  else if a = 0x3C#8 then s.host.tacfg2
  else if a = 0x40#8 then tastat s.ta
  else if a = 0x44#8 then s.ta.runs
  else if a = 0x48#8 then s.host.irqen
  else if a = 0x4C#8 then s.host.irqstat
  else 0#32

/-- Byte a of the window where a platform bus shows the registers as bytes: little-endian lanes
(spec/20_memory.md R73). -/
def readByte (a : BitVec 8) (s : State) : Byte :=
  (readReg (a &&& 0xFC#8) s).extractLsb' (8 * (a.toNat % 4)) 8

/-- The effect of a write on the host registers, CMD apart; a read-only or reserved offset ignores it
(spec/20_memory.md R72). -/
def HostRegs.write (a : BitVec 8) (v : Word) (r : HostRegs) : HostRegs :=
  if a = 0x04#8 then { r with arg := v }
  else if a = 0x24#8 then { r with gapcfg := v }
  else if a = 0x34#8 then { r with tacfg0 := v }
  else if a = 0x38#8 then { r with tacfg1 := v }
  else if a = 0x3C#8 then { r with tacfg2 := v &&& tacfg2Bits }
  else if a = 0x48#8 then { r with irqen := v &&& irqBits }
  else if a = 0x4C#8 then { r with irqstat := r.irqstat &&& ~~~(v &&& irqBits) }
  else r

/-- A write to an offset other than CMD (spec/20_memory.md R72). -/
def writeReg (a : BitVec 8) (v : Word) (s : State) : State :=
  { s with host := s.host.write a v }

/-- The bus answers the host's access; nothing else changes (spec/20_memory.md R71, R74; log 13). -/
def respond (b : BusResponse) (s : State) : State := { s with env := { s.env with bus := b } }

/-- A refused access: the error response, and no state changes (spec/20_memory.md R74, spec/60_exceptions.md R333;
log 7). -/
def refuseAccess (a : BitVec 8) (s : State) : State := respond (.refused (.busError a)) s

/-! ## Commands and CmdError -/

/-- A unit that is not enabled, or a port that is not ready: no step is taken, the state stays as it is
(spec/20_memory.md R80; log 3). -/
def hold (s : State) : Out := .next s

/-- `raise CmdError(code)`: CSTAT and IRQSTAT.CMD_ERR, nothing else (spec/60_exceptions.md R331). -/
def raiseCmdError (code : CmdStatus) (op : BitVec 8) (s : State) : State :=
  { s with host := { s.host with err := code, lastOp := op }.raiseIrq .cmdErr }

/-- A command that raised nothing: ERR 0 and LAST_OP, IRQSTAT untouched (spec/60_exceptions.md R331). -/
def completeCommand (op : BitVec 8) (s : State) : State :=
  { s with host := { s.host with err := .ok, lastOp := op } }

/-- Run a decoded command: its body gives the new state or the CmdError it raises (spec/30_encoding.md R101). While
`rst` = 1 the bus has refused the MemWrite to CMD (`hostWrite`) and no command runs (spec/70_reset_and_hazards.md R370;
log 7). -/
def runCommand (op : BitVec 8) (body : Except CmdStatus State) (s : State) : Out :=
  if s.env.rst then hold s
  else
    match body with
    | .ok t => .next (completeCommand op t)
    | .error code => .next (raiseCmdError code op s)

/-- Write the result registers of a classifier command (spec/10_state.md R25, R26). -/
def setResult (r0 r1 : Word) (s : State) : State :=
  { s with host := { s.host with cres0 := r0, cres1 := r1 } }

/-- Set one IRQSTAT bit (spec/60_exceptions.md R340). -/
def raiseIrq (src : IrqSource) (s : State) : State :=
  { s with host := s.host.raiseIrq src }

/-! ## Unit steps, and reset -/

/-- A unit's step: taken where it is enabled and `rst` = 0, else held (spec/60_exceptions.md R348,
spec/70_reset_and_hazards.md R370). -/
def unitStep (enabled : Bool) (next s : State) : Out :=
  if enabled && !s.env.rst then .next next else hold s

/-- The reset step: every piece of block state at its reset value, no word pushed or popped
(spec/70_reset_and_hazards.md R370, R371). -/
def resetBlock (s : State) : State :=
  { State.reset with env := s.env }

/-- The input `rst` takes a level; at 1 it makes a reset step (spec/70_reset_and_hazards.md R370). -/
def setRst (b : Bool) (s : State) : State :=
  if b then { resetBlock s with env := { s.env with rst := true } }
  else { s with env := { s.env with rst := false } }

end Sys2Proof.Machine
end

