-- ==== Sys2Proof/Machine/Timing.lean ====
section
/-! DEFINITION. The timing ROM and the pulse classifier (spec/40_classifier.md sections 1 and 2): pure functions that
every unit shares (R156). -/

namespace Sys2Proof.Machine

/-- `TIMING[p][k]`: the nominal duration in µs, none where it is UNDEF (spec/40_classifier.md R141). -/
def timing : Proto → SymbolKind → Option (BitVec 16)
  | .nec, .headerMark => some 9000#16
  | .nec, .headerSpace => some 4500#16
  | .nec, .bit0Mark => some 560#16
  | .nec, .bit0Space => some 560#16
  | .nec, .bit1Mark => some 560#16
  | .nec, .bit1Space => some 1690#16
  | .nec, .stopMark => some 560#16
  | .nec, .stopSpace => none
  | .r05d, .headerMark => some 4400#16
  | .r05d, .headerSpace => some 4400#16
  | .r05d, .bit0Mark => some 540#16
  | .r05d, .bit0Space => some 540#16
  | .r05d, .bit1Mark => some 540#16
  | .r05d, .bit1Space => some 1620#16
  | .r05d, .stopMark => some 540#16
  | .r05d, .stopSpace => some 5220#16

/-- `TOL_PCT` (spec/00_scope.md R9). -/
def tolPct : Nat := 20

/-- `NBITS[p]` (spec/00_scope.md R9, spec/42_decoder.md R211). -/
def nbits : Proto → Nat
  | .nec => 32
  | .r05d => 48

/-- `nominal(p, k)` as a number (spec/40_classifier.md R143). -/
def nominal (p : Proto) (k : SymbolKind) : Option Nat := (timing p k).map BitVec.toNat

/-- The lower bound of a nominal's window (spec/40_classifier.md R144). -/
def lower (n : Nat) : Nat := n * (100 - tolPct) / 100

/-- The upper bound of a nominal's window (spec/40_classifier.md R144). -/
def upper (n : Nat) : Nat := n * (100 + tolPct) / 100

/-- A duration lies in the window of a nominal; both bounds are inclusive (spec/40_classifier.md R145). -/
def inWindow (d n : Nat) : Bool := decide (lower n ≤ d) && decide (d ≤ upper n)

/-- `matches(d, p, k)` (spec/40_classifier.md R145). -/
def matchesSym (d : Word) (p : Proto) (k : SymbolKind) : Bool :=
  match nominal p k with
  | some n => inWindow d.toNat n
  | none => false

/-- All symbol kinds, in KIND order (spec/30_encoding.md R104). -/
def allKinds : List SymbolKind :=
  [.headerMark, .headerSpace, .bit0Mark, .bit0Space, .bit1Mark, .bit1Space, .stopMark, .stopSpace]

/-- Add a value to a list unless it is there already. -/
def addNew (l : List Nat) (n : Nat) : List Nat := if l.contains n then l else l ++ [n]

/-- `symbols(p)`: the defined nominals in KIND order, first occurrences only (spec/40_classifier.md R146). -/
def symbols (p : Proto) : List Nat := (allKinds.filterMap (nominal p)).foldl addNew []

/-- The candidate to keep: the later one only if it is strictly closer (spec/40_classifier.md R147). -/
def closer (d best c : Nat) : Nat := if absDiff d c < absDiff d best then c else best

/-- `nearest(d, C)`; none for the empty list, which no caller gives (spec/40_classifier.md R147,
spec/60_exceptions.md R336). -/
def nearest (d : Nat) : List Nat → Option Nat
  | [] => none
  | c :: cs => some (cs.foldl (closer d) c)

/-- The candidate list is never empty (spec/60_exceptions.md R336). -/
theorem nearest_symbols_isSome (d : Nat) (p : Proto) : (nearest d (symbols p)).isSome = true := by
  cases p <;> rfl

/-- `nearest(d, symbols(p))` (spec/40_classifier.md R147). -/
def nearestSymbol (d : Nat) (p : Proto) : Nat := (nearest d (symbols p)).get (nearest_symbols_isSome d p)

/-- The duration of a frame symbol. Every symbol of a frame has a nominal (spec/93_implementation_defined.md item 11,
"No unit ever uses it"; log 14). -/
def symbolDuration (p : Proto) (k : SymbolKind) : Word := ((timing p k).getD 0#16).setWidth 32

end Sys2Proof.Machine
end

