-- ==== Sys2Proof/Machine/Classifier.lean ====
section
/-! DEFINITION. The classifier commands NOP, NOMINAL, WINDOW, MATCH, NEAREST and SYMBOL (spec/40_classifier.md section
3). They read only configuration and ARG and run at any time (R155). -/

namespace Sys2Proof.Machine

/-- NOP (spec/40_classifier.md R149); PROTO and KIND are ignored. -/
def execNop (s : State) : Out := runCommand 0x00#8 (.ok s) s

/-- A command over one symbol: its protocol, its kind and its nominal are checked in this order, then `body` gives
the two result words (spec/40_classifier.md R150, spec/60_exceptions.md R332). -/
def symbolCommand (p k : BitVec 4) (body : Proto → SymbolKind → Nat → Word × Word) (s : State) :
    Except CmdStatus State :=
  withProto p fun proto =>
    withKind k fun kind =>
      match nominal proto kind with
      | some n => .ok (setResult (body proto kind n).1 (body proto kind n).2 s)
      | none => .error .undefSymbol

/-- NOMINAL (spec/40_classifier.md R150). -/
def execNominal (p k : BitVec 4) (s : State) : Out :=
  runCommand 0x01#8 (symbolCommand p k (fun _ _ n => (BitVec.ofNat 32 n, 0#32)) s) s

/-- WINDOW (spec/40_classifier.md R151). -/
def execWindow (p k : BitVec 4) (s : State) : Out :=
  runCommand 0x02#8 (symbolCommand p k (fun _ _ n => (BitVec.ofNat 32 (lower n), BitVec.ofNat 32 (upper n))) s) s

/-- MATCH (spec/40_classifier.md R152). -/
def execMatch (p k : BitVec 4) (s : State) : Out :=
  runCommand 0x03#8
    (symbolCommand p k (fun proto kind _ => (if matchesSym s.host.arg proto kind then 1#32 else 0#32, 0#32)) s) s

/-- NEAREST (spec/40_classifier.md R153); KIND is ignored. -/
def execNearest (p : BitVec 4) (s : State) : Out :=
  runCommand 0x04#8
    (withProto p fun proto =>
      let n := nearestSymbol s.host.arg.toNat proto
      .ok (setResult (BitVec.ofNat 32 n) (BitVec.ofNat 32 (absDiff s.host.arg.toNat n)) s)) s

/-- SYMBOL (spec/40_classifier.md R154); KIND is ignored. -/
def execSymbol (p : BitVec 4) (s : State) : Out :=
  runCommand 0x05#8
    (withProto p fun proto =>
      match (symbols proto)[s.host.arg.toNat]? with
      | some n => .ok (setResult (BitVec.ofNat 32 n) (BitVec.ofNat 32 (symbols proto).length) s)
      | none => .error .badIndex) s

end Sys2Proof.Machine
end

