-- ==== Sys2Proof/Machine/Encoder.lean ====
section
/-! DEFINITION. The frame encoder and the TX sequencer (spec/41_encoder.md): TX_START and the three DRV words. -/

namespace Sys2Proof.Machine

/-! ## Frames -/

/-- A frame symbol: a polarity and the timing role that gives its duration. -/
abbrev FrameSymbol := Polarity × SymbolKind

/-- The pair of one bit (spec/41_encoder.md R181, R182). -/
def bitSymbols (b : Bool) : List FrameSymbol :=
  if b then [(.mark, .bit1Mark), (.space, .bit1Space)] else [(.mark, .bit0Mark), (.space, .bit0Space)]

/-- The header or lead pair (spec/41_encoder.md R181, R182). -/
def headerSymbols : List FrameSymbol := [(.mark, .headerMark), (.space, .headerSpace)]

/-- The symbols of a NEC frame, least significant bit first (spec/41_encoder.md R181). -/
def necSymbols (v : Word) : List FrameSymbol :=
  headerSymbols ++ (List.range 32).flatMap (fun i => bitSymbols (v.getLsbD i)) ++ [(.mark, .stopMark)]

/-- The symbols of one byte, most significant bit first (spec/41_encoder.md R182). -/
def byteSymbols (b : Byte) : List FrameSymbol :=
  [7, 6, 5, 4, 3, 2, 1, 0].flatMap (fun j => bitSymbols (b.getLsbD j))

/-- The byte sequence of an R05D sub-frame (spec/30_encoding.md R116). -/
def subFrameBytes (a b c : Byte) : List Byte := [a, ~~~a, b, ~~~b, c, ~~~c]

/-- The symbols of one R05D sub-frame (spec/41_encoder.md R182). -/
def subFrameSymbols (a b c : Byte) : List FrameSymbol :=
  headerSymbols ++ (subFrameBytes a b c).flatMap byteSymbols ++ [(.mark, .stopMark), (.space, .stopSpace)]

/-- The event of a frame symbol in a protocol. -/
def symbolEvent (p : Proto) (x : FrameSymbol) : PulseEvent := ⟨x.1, symbolDuration p x.2⟩

/-- `encodeNEC(v)` (spec/41_encoder.md R181). -/
def encodeNEC (v : Word) : List PulseEvent := (necSymbols v).map (symbolEvent .nec)

/-- `encodeR05D(a, b, c)`: the sub-frame twice (spec/41_encoder.md R182). -/
def encodeR05D (a b c : Byte) : List PulseEvent :=
  let sub := (subFrameSymbols a b c).map (symbolEvent .r05d)
  sub ++ sub

/-- `encode(p, x)` (spec/41_encoder.md R183). -/
def frame : Proto → Word → List PulseEvent
  | .nec, x => encodeNEC x
  | .r05d, x => encodeR05D (r05dByteA x) (r05dByteB x) (r05dByteC x)

/-! ## Driver ops -/

/-- The two ops of an event (spec/41_encoder.md R184). -/
def eventOps (e : PulseEvent) : List DriverOp :=
  [if e.pol = .mark then .enable else .disable, .delay (e.dur.setWidth 24)]

/-- The op after the last event: a frame that ends in a Mark ends with the carrier off (spec/41_encoder.md R184). -/
def finalOps (f : List PulseEvent) : List DriverOp :=
  match f.getLast? with
  | some e => if e.pol = .mark then [.disable] else []
  | none => []

/-- `driverOps(F)` (spec/41_encoder.md R184). -/
def driverOps (f : List PulseEvent) : List DriverOp := f.flatMap eventOps ++ finalOps f

/-- The DRV word of a driver op (spec/30_encoding.md R110). -/
def DriverOp.word : DriverOp → BitVec 32
  | .disable => 0x00000000#32
  | .enable => 0x40000000#32
  | .delay n => delayWord n

/-- The instruction that is a driver op's word. -/
def DriverOp.instr : DriverOp → Instr
  | .disable => .drvDisable
  | .enable => .drvEnable
  | .delay n => .drvDelay n

/-- A DELAY op completes one PulseEvent (spec/41_encoder.md R185). -/
def DriverOp.isDelay : DriverOp → Bool
  | .disable => false
  | .enable => false
  | .delay _ => true

/-! ## The sequencer -/

/-- The sequencer of a frame that starts now (spec/41_encoder.md R186). -/
def TxUnit.start (p : Proto) (x : Word) : TxUnit where
  st := .emitting
  proto := p
  ops := driverOps (frame p x)
  opi := 0
  events := 0#16
  done := false

/-- TX_START (spec/41_encoder.md R186); KIND is ignored. -/
def execTxStart (p : BitVec 4) (s : State) : Out :=
  runCommand 0x10#8
    (withProto p fun proto =>
      if s.tx.st = .emitting then .error .busy else .ok { s with tx := .start proto s.host.arg }) s

/-- The op the sequencer offers on DRV (spec/41_encoder.md R185); none outside a frame. -/
def TxUnit.offered (t : TxUnit) : Option DriverOp :=
  match t.st with
  | .idle => none
  | .emitting => t.ops[t.opi]?

/-- The sequencer after an accepted op, before completion is looked at (spec/41_encoder.md R185). -/
def TxUnit.advance (op : DriverOp) (t : TxUnit) : TxUnit :=
  { t with opi := t.opi + 1, events := if op.isDelay then satInc16 t.events else t.events }

/-- All ops of the frame are pushed (spec/41_encoder.md R185). -/
def TxUnit.exhausted (t : TxUnit) : Bool := decide (t.opi = t.ops.length)

/-- Completion: Idle, TXSTAT.DONE, IRQSTAT.TX_DONE (spec/41_encoder.md R187). -/
def txComplete (s : State) : State :=
  raiseIrq .txDone { s with tx := { s.tx with st := .idle, done := true } }

/-- The state after the driver has accepted an op (spec/41_encoder.md R185). -/
def txAccepted (op : DriverOp) (s : State) : State :=
  let t : State :=
    { s with
      tx := s.tx.advance op
      env := { s.env with drvOut := s.env.drvOut ++ [op.word] } }
  if t.tx.exhausted then txComplete t else t

/-- TX_step that pushes this op: the sequencer offers it and the driver accepts (spec/41_encoder.md R185,
spec/20_memory.md R80). -/
def txPush (op : DriverOp) (s : State) : Out :=
  unitStep (decide (s.tx.offered = some op) && s.env.drvReady) (txAccepted op s) s

/-- DRV_DISABLE (spec/30_encoding.md R110). -/
def execDrvDisable (s : State) : Out := txPush .disable s

/-- DRV_ENABLE (spec/30_encoding.md R110). -/
def execDrvEnable (s : State) : Out := txPush .enable s

/-- DRV_DELAY n (spec/30_encoding.md R110). -/
def execDrvDelay (n : BitVec 24) (s : State) : Out := txPush (.delay n) s

end Sys2Proof.Machine
end

