-- ==== Sys2Proof/Machine/Decoder.lean ====
section
/-! DEFINITION. The frame decoder (spec/42_decoder.md): the state machine `rxStep`, the RX unit's commands RX_START
and RX_STOP, and the two CAP words. -/

namespace Sys2Proof.Machine

/-! ## The state machine -/

/-- The inputs of `rxStep` (spec/42_decoder.md R215). -/
inductive DecEvent where
  | pulse (pol : Polarity) (d : Word)
  | timeout
  | endOfInput
deriving DecidableEq, Repr

/-- `Fail(code, index)` (spec/42_decoder.md R216). -/
def DecState.failWith (code : FailCode) (index : Nat) (d : DecState) : DecState :=
  { d with st := .failed, fail := code, i := index, acc := 0#48 }

/-- AwaitHeaderMark (spec/42_decoder.md R217). -/
def stepHeaderMark (p : Proto) (d : DecState) : DecEvent → DecState
  | .pulse .space _ => d
  | .pulse .mark dur =>
    if matchesSym dur p .headerMark then { d with st := .awaitHeaderSpace } else d.failWith .headerMismatch 0
  | .timeout => d
  | .endOfInput => d.failWith .headerMismatch 0

/-- AwaitHeaderSpace (spec/42_decoder.md R218). -/
def stepHeaderSpace (p : Proto) (d : DecState) : DecEvent → DecState
  | .pulse .space dur =>
    if matchesSym dur p .headerSpace then { d with st := .awaitBitMark, i := 0, acc := 0#48 }
    else d.failWith .headerMismatch 0
  | .pulse .mark _ => d.failWith .headerMismatch 0
  | .timeout => d.failWith .timeout 0
  | .endOfInput => d.failWith .headerMismatch 0

/-- AwaitBitMark (spec/42_decoder.md R219). -/
def stepBitMark (p : Proto) (d : DecState) : DecEvent → DecState
  | .pulse .mark dur =>
    if matchesSym dur p .bit0Mark || matchesSym dur p .bit1Mark then { d with st := .awaitBitSpace }
    else d.failWith .bitPulseMismatch d.i
  | .pulse .space _ => d.failWith .bitPulseMismatch d.i
  | .timeout => d.failWith .timeout d.i
  | .endOfInput => d.failWith .bitPulseMismatch d.i

/-- The accumulator with one more bit: NEC sets bit i, R05D shifts in from the right (spec/42_decoder.md R220). -/
def accumulate (p : Proto) (acc : BitVec 48) (i : Nat) (b : Bool) : BitVec 48 :=
  match p with
  | .nec => acc ||| ((bit1 b).setWidth 48 <<< i)
  | .r05d => (acc <<< 1) ||| (bit1 b).setWidth 48

/-- `accept(b)` (spec/42_decoder.md R220). -/
def acceptBit (p : Proto) (d : DecState) (b : Bool) : DecState :=
  { d with
    acc := accumulate p d.acc d.i b
    i := d.i + 1
    st := if d.i + 1 = nbits p then .awaitStop else .awaitBitMark }

/-- AwaitBitSpace (spec/42_decoder.md R220). -/
def stepBitSpace (p : Proto) (d : DecState) : DecEvent → DecState
  | .pulse .space dur =>
    if matchesSym dur p .bit0Space then acceptBit p d false
    else if matchesSym dur p .bit1Space then acceptBit p d true
    else d.failWith .bitSpaceMismatch d.i
  | .pulse .mark _ => d.failWith .bitSpaceMismatch d.i
  | .timeout => d.failWith .timeout d.i
  | .endOfInput => d.failWith .bitSpaceMismatch d.i

/-- AwaitStop (spec/42_decoder.md R221). -/
def stepStop (p : Proto) (d : DecState) : DecEvent → DecState
  | .pulse .mark dur => { d with st := .done, warn := !matchesSym dur p .stopMark }
  | .pulse .space _ => { d with st := .done, warn := true }
  | .timeout => { d with st := .done, warn := true }
  | .endOfInput => { d with st := .done, warn := true }

/-- `rxStep(p, s, ev)`, defined for the running states (spec/42_decoder.md R215); it is called in no other, where it
leaves the decoder as it is (log 3). -/
def rxStep (p : Proto) (d : DecState) (ev : DecEvent) : DecState :=
  match d.st with
  | .idle => d
  | .awaitHeaderMark => stepHeaderMark p d ev
  | .awaitHeaderSpace => stepHeaderSpace p d ev
  | .awaitBitMark => stepBitMark p d ev
  | .awaitBitSpace => stepBitSpace p d ev
  | .awaitStop => stepStop p d ev
  | .done => d
  | .failed => d

/-! ## The RX unit -/

/-- The decoder armed for a protocol (spec/42_decoder.md R212). -/
def RxUnit.start (p : Proto) : RxUnit where
  proto := p
  dec := .armed
  data0 := 0#32
  data1 := 0#32

/-- The decoder back in Idle, its protocol kept (spec/42_decoder.md R213). -/
def RxUnit.stop (r : RxUnit) : RxUnit where
  proto := r.proto
  dec := .idle
  data0 := 0#32
  data1 := 0#32

/-- RX_START (spec/42_decoder.md R212); KIND is ignored. -/
def execRxStart (p : BitVec 4) (s : State) : Out :=
  runCommand 0x20#8
    (withProto p fun proto =>
      if s.rx.dec.st.running then .error .busy else .ok { s with rx := .start proto }) s

/-- RX_STOP (spec/42_decoder.md R213); PROTO and KIND are ignored. -/
def execRxStop (s : State) : Out := runCommand 0x21#8 (.ok { s with rx := s.rx.stop }) s

/-- The unit after one input: the decoder steps, and on the move to Done the result words are written
(spec/42_decoder.md R214, R222). -/
def RxUnit.consume (ev : DecEvent) (r : RxUnit) : RxUnit :=
  let d := rxStep r.proto r.dec ev
  if d.st = .done then { r with dec := d, data0 := resultData0 r.proto d, data1 := resultData1 r.proto d }
  else { r with dec := d }

/-- The state after the RX unit has popped a CAP word that means this input (spec/42_decoder.md R214). -/
def rxConsumed (ev : DecEvent) (s : State) : State :=
  let t : State := { s with rx := s.rx.consume ev, env := { s.env with capIn := s.env.capIn.tail } }
  if t.rx.dec.st.terminal then raiseIrq .rxTerm t else t

/-- RX_step that pops this CAP word: the decoder runs and the word is offered (spec/42_decoder.md R214). -/
def rxPop (w : BitVec 34) (ev : DecEvent) (s : State) : Out :=
  unitStep (s.rx.dec.st.running && decide (s.env.capIn.head? = some w)) (rxConsumed ev s) s

/-- CAP_PULSE (spec/30_encoding.md R111). -/
def execCapPulse (pol : Polarity) (dur : Word) (s : State) : Out :=
  rxPop (capWord 0#1 pol dur) (.pulse pol dur) s

/-- CAP_TIMEOUT (spec/30_encoding.md R111); POL and DUR are ignored. -/
def execCapTimeout (pol : Polarity) (dur : Word) (s : State) : Out :=
  rxPop (capWord 1#1 pol dur) .timeout s

end Sys2Proof.Machine
end

