-- ==== Sys2Proof/Machine/GapFramer.lean ====
section
/-! DEFINITION. The gap-timeout framer (spec/43_gap_framer.md): GAP_START, GAP_STOP, GAP_ACK, the EDGE word's intake,
the edge step and the silence step. -/

namespace Sys2Proof.Machine

/-! ## Commands -/

/-- The framer of a GAP_START (spec/43_gap_framer.md R251). -/
def GapUnit.start (p : Proto) (thr : Word) : GapUnit where
  en := true
  proto := p
  thr := thr
  q := []
  haveLast := false
  lastTs := 0#32
  lastPol := .space
  buf := []
  bufOvf := false
  result := none
  edgeOvf := false
  resultOverrun := false

/-- The framer after GAP_STOP; EDGE_OVF and RESULT_OVERRUN are kept (spec/43_gap_framer.md R252). -/
def GapUnit.stop (g : GapUnit) : GapUnit :=
  { g with en := false, q := [], haveLast := false, buf := [], bufOvf := false, result := none }

/-- `clear_result()` (spec/43_gap_framer.md R253). -/
def GapUnit.clearResult (g : GapUnit) : GapUnit := { g with result := none }

/-- GAP_START (spec/43_gap_framer.md R251); KIND is ignored. -/
def execGapStart (p : BitVec 4) (s : State) : Out :=
  runCommand 0x30#8
    (withProto p fun proto =>
      if s.gap.en then .error .busy else .ok { s with gap := .start proto s.host.gapcfg }) s

/-- GAP_STOP (spec/43_gap_framer.md R252); PROTO and KIND are ignored. -/
def execGapStop (s : State) : Out := runCommand 0x31#8 (.ok { s with gap := s.gap.stop }) s

/-- GAP_ACK (spec/43_gap_framer.md R253); PROTO and KIND are ignored. -/
def execGapAck (s : State) : Out := runCommand 0x32#8 (.ok { s with gap := s.gap.clearResult }) s

/-! ## Edge intake -/

/-- There is room for one more element in a list bounded by a depth. -/
def hasRoom {α : Type} : List α → Nat → Bool
  | _, 0 => false
  | [], _ + 1 => true
  | _ :: l, n + 1 => hasRoom l n

/-- EDGE intake into a queue of this depth: dropped while disabled, dropped and flagged when full, else queued
(spec/43_gap_framer.md R255). -/
def intakeEdge (depth : Nat) (e : EdgeEvent) (s : State) : State :=
  if !s.gap.en then s
  else if hasRoom s.gap.q depth then { s with gap := { s.gap with q := s.gap.q ++ [e] } }
  else raiseIrq .gapOvf { s with gap := { s.gap with edgeOvf := true } }

/-- The word leaves the port (spec/43_gap_framer.md R255). -/
def popEdge (s : State) : State := { s with env := { s.env with edgeIn := s.env.edgeIn.tail } }

/-- EDGE: the intake step that takes this word, whenever it is offered (spec/43_gap_framer.md R255). -/
def execEdge (pol : Polarity) (ts : Word) (s : State) : Out :=
  unitStep (decide (s.env.edgeIn.head? = some (edgeWord pol ts)))
    (popEdge (intakeEdge Config.edgeQDepth ⟨pol, ts⟩ s)) s

/-! ## Framing -/

/-- Feed a frame buffer to the state machine up to the first terminal state (spec/43_gap_framer.md R260). -/
def feedFrame (p : Proto) : DecState → List PulseEvent → DecState
  | d, [] => d
  | d, e :: es => if d.st.terminal then d else feedFrame p (rxStep p d (.pulse e.pol e.dur)) es

/-- `decodeFrame(p, B)` (spec/43_gap_framer.md R260). -/
def decodeFrame (p : Proto) (b : List PulseEvent) : DecState :=
  let d := feedFrame p .armed b
  if d.st.terminal then d else rxStep p d .endOfInput

/-- The result a decode latches (spec/43_gap_framer.md R261). -/
def gapResultOf (p : Proto) (d : DecState) (ovf : Bool) : GapResult where
  failed := decide (d.st = .failed)
  frameOvf := ovf
  fail := d.fail
  index := d.i
  stopWarn := d.warn
  data0 := if d.st = .done then resultData0 p d else 0#32
  data1 := if d.st = .done then resultData1 p d else 0#32

/-- `publish(s, ovf)`: a latched result is never overwritten (spec/43_gap_framer.md R261). -/
def publish (d : DecState) (ovf : Bool) (s : State) : State :=
  match s.gap.result with
  | some _ => raiseIrq .gapOvf { s with gap := { s.gap with resultOverrun := true } }
  | none => raiseIrq .gapResult { s with gap := { s.gap with result := some (gapResultOf s.gap.proto d ovf) } }

/-- `close_frame()`: a frame with no interval gives no result (spec/43_gap_framer.md R259). -/
def closeFrame (s : State) : State :=
  let t : State :=
    match s.gap.buf with
    | [] => s
    | _ :: _ => publish (decodeFrame s.gap.proto s.gap.buf) s.gap.bufOvf s
  { t with gap := { t.gap with buf := [], bufOvf := false } }

/-- `append(e)` to an interval buffer of this depth (spec/43_gap_framer.md R256). -/
def appendInterval (depth : Nat) (e : PulseEvent) (s : State) : State :=
  if hasRoom s.gap.buf depth then { s with gap := { s.gap with buf := s.gap.buf ++ [e] } }
  else { s with gap := { s.gap with bufOvf := true } }

/-- An interval longer than the threshold is a gap (spec/43_gap_framer.md R256: strictly). -/
def isGap (dt thr : Word) : Bool := decide (thr.toNat < dt.toNat)

/-- What an edge does to the frame in progress (spec/43_gap_framer.md R256). -/
def frameEdge (depth : Nat) (e : EdgeEvent) (s : State) : State :=
  if !s.gap.haveLast then { s with gap := { s.gap with haveLast := true } }
  else if isGap (e.ts - s.gap.lastTs) s.gap.thr then closeFrame s
  else appendInterval depth ⟨s.gap.lastPol, e.ts - s.gap.lastTs⟩ s

/-- The state after the edge step has taken an edge from the queue (spec/43_gap_framer.md R256). -/
def edgeTaken (depth : Nat) (e : EdgeEvent) (s : State) : State :=
  let t := frameEdge depth e { s with gap := { s.gap with q := s.gap.q.tail } }
  { t with gap := { t.gap with lastTs := e.ts, lastPol := e.pol } }

/-- GAP_edge_step (spec/43_gap_framer.md R256). -/
def gapEdgeStep (s : State) : Out :=
  match s.gap.q with
  | [] => hold s
  | e :: _ => unitStep s.gap.en (edgeTaken Config.frameBufDepth e s) s

/-- The silence step is enabled (spec/43_gap_framer.md R258). -/
def silent (s : State) : Bool :=
  s.gap.en && s.gap.q.isEmpty && s.gap.haveLast && isGap (s.env.now - s.gap.lastTs) s.gap.thr

/-- The state after the silence step (spec/43_gap_framer.md R258). -/
def silenceClosed (s : State) : State :=
  let t := closeFrame s
  { t with gap := { t.gap with haveLast := false } }

/-- GAP_silence_step (spec/43_gap_framer.md R258). -/
def gapSilenceStep (s : State) : Out := unitStep (silent s) (silenceClosed s) s

end Sys2Proof.Machine
end

