-- ==== Sys2Proof/Machine/TraceAnalyzer.lean ====
section
/-! DEFINITION. The trace analyzer (spec/44_trace_analyzer.md): TA_START, the two TRC tokens, the three REC words,
and the text of a record. -/

namespace Sys2Proof.Machine

/-! ## Classification and records -/

/-- `us(n)` (spec/44_trace_analyzer.md R296). -/
def sampleUs (scale n : Nat) : Nat := (n * scale + 5000) / 10000

/-- A measured duration in a record: saturated to 2^29 - 1 (spec/44_trace_analyzer.md R297). -/
def measuredField (u : Nat) : BitVec 29 := BitVec.ofNat 29 (min u (2 ^ 29 - 1))

/-- The record of a merged run: ANOMALY iff the delta exceeds MAX_DELTA, strictly (spec/44_trace_analyzer.md R296,
R297). -/
def recordOf (t : TaUnit) (pol : Polarity) (n : Word) : Record :=
  let u := sampleUs t.cScale.toNat n.toNat
  let m := nearestSymbol u t.cProto
  if t.cMax.toNat < absDiff u m then .anomaly pol (measuredField u) (BitVec.ofNat 16 m)
  else .recon pol (measuredField u) (BitVec.ofNat 16 m)

/-- `form_record(pol, n)` (spec/44_trace_analyzer.md R297). -/
def TaUnit.formRecord (pol : Polarity) (n : Word) (t : TaUnit) : TaUnit :=
  { t with out := t.out ++ [recordOf t pol n] }

/-- The REC word of a record (spec/30_encoding.md R114). -/
def Record.word : Record → BitVec 64
  | .recon pol m n => recWord 0#2 pol m n
  | .anomaly pol m n => recWord 1#2 pol m n
  | .fin => recEndWord

/-- The instruction that is a record's word. -/
def Record.instr : Record → Instr
  | .recon pol m n => .recRecon pol m n
  | .anomaly pol m n => .recAnomaly pol m n
  | .fin => .recEnd

/-! ## Samples and runs -/

/-- The polarity of a sample (spec/44_trace_analyzer.md R292). -/
def samplePol (mark : Bool) (data : Byte) : Polarity := Polarity.ofBit (decide (data.getLsbD 0 = mark))

/-- A run is a glitch: strictly shorter than MIN_RUN (spec/44_trace_analyzer.md R295). -/
def isGlitch (t : TaUnit) (n : Word) : Bool := decide (n.toNat < t.cMin.toNat)

/-- `finish_raw(rp, rc)` (spec/44_trace_analyzer.md R295). -/
def TaUnit.finishRaw (rp : Polarity) (rc : Word) (t : TaUnit) : TaUnit :=
  if !t.curValid then
    if isGlitch t rc then { t with preCnt := satAdd t.preCnt rc }
    else { t with curValid := true, curPol := rp, curCnt := satAdd rc t.preCnt, preCnt := 0#32 }
  else if isGlitch t rc || decide (rp = t.curPol) then { t with curCnt := satAdd t.curCnt rc }
  else { t.formRecord t.curPol t.curCnt with curPol := rp, curCnt := rc }

/-- `sample_in(p)` (spec/44_trace_analyzer.md R294). -/
def TaUnit.sampleIn (p : Polarity) (t : TaUnit) : TaUnit :=
  if !t.rawValid then { t with rawValid := true, rawPol := p, rawCnt := 1#32 }
  else if p = t.rawPol then { t with rawCnt := satAdd t.rawCnt 1#32 }
  else { t.finishRaw t.rawPol t.rawCnt with rawPol := p, rawCnt := 1#32 }

/-- A trace byte: skipped during the seek, else a sample (spec/44_trace_analyzer.md R291, R293). -/
def TaUnit.byteIn (data : Byte) (t : TaUnit) : TaUnit :=
  if t.skip ≠ 0#16 then { t with skip := t.skip - 1#16 } else t.sampleIn (samplePol t.cMark data)

/-- The end of a trace, first the raw run in progress (spec/44_trace_analyzer.md R298). -/
def TaUnit.flushRaw (t : TaUnit) : TaUnit :=
  if t.rawValid then { t.finishRaw t.rawPol t.rawCnt with rawValid := false } else t

/-- The end of a trace, then the merged run in progress (spec/44_trace_analyzer.md R298). -/
def TaUnit.flushCur (t : TaUnit) : TaUnit :=
  if t.curValid then { t.formRecord t.curPol t.curCnt with curValid := false } else t

/-- `end_of_trace()` (spec/44_trace_analyzer.md R298). -/
def TaUnit.endOfTrace (t : TaUnit) : TaUnit :=
  let u := t.flushRaw.flushCur
  { u with preCnt := 0#32, out := u.out ++ [.fin] }

/-! ## Commands and tokens -/

/-- The unit of an analysis that starts now, its configuration copied (spec/44_trace_analyzer.md R300). -/
def TaUnit.start (p : Proto) (r : HostRegs) : TaUnit where
  busy := true
  done := false
  cMin := minRun r
  cMax := maxDelta r
  cSeek := seekBytes r
  cScale := sampleScale r
  cMark := markLevel r
  cProto := p
  skip := seekBytes r
  rawValid := false
  rawPol := .space
  rawCnt := 0#32
  curValid := false
  curPol := .space
  curCnt := 0#32
  preCnt := 0#32
  out := []
  anomalies := 0#16
  runs := 0#32

/-- TA_START (spec/44_trace_analyzer.md R300); the PROTO and KIND fields of CMD are ignored. -/
def execTaStart (s : State) : Out :=
  runCommand 0x40#8
    (withProto (tproto s.host) fun proto =>
      if s.ta.busy then .error .busy else .ok { s with ta := .start proto s.host }) s

/-- The unit reads tokens: it is busy and its record queue is empty (spec/44_trace_analyzer.md R291). -/
def TaUnit.reading (t : TaUnit) : Bool := t.busy && t.out.isEmpty

/-- TA_token_step that pops this token and leaves the unit so (spec/44_trace_analyzer.md R291). -/
def trcPop (w : BitVec 9) (after : TaUnit) (s : State) : Out :=
  unitStep (s.ta.reading && decide (s.env.trcIn.head? = some w))
    { s with ta := after, env := { s.env with trcIn := s.env.trcIn.tail } } s

/-- TRC_BYTE (spec/30_encoding.md R113). -/
def execTrcByte (data : Byte) (s : State) : Out := trcPop (trcWord 0#1 data) (s.ta.byteIn data) s

/-- TRC_END (spec/30_encoding.md R113); DATA is ignored. -/
def execTrcEnd (data : Byte) (s : State) : Out := trcPop (trcWord 1#1 data) s.ta.endOfTrace s

/-! ## Emitting records -/

/-- TARUNS counts RECON and ANOMALY records, TASTAT.ANOMALIES the latter (spec/44_trace_analyzer.md R299). -/
def TaUnit.count (r : Record) (t : TaUnit) : TaUnit :=
  match r with
  | .recon _ _ _ => { t with runs := satAdd t.runs 1#32 }
  | .anomaly _ _ _ => { t with runs := satAdd t.runs 1#32, anomalies := satInc16 t.anomalies }
  | .fin => t

/-- Completion with the END record (spec/44_trace_analyzer.md R306). -/
def taComplete (s : State) : State :=
  raiseIrq .taDone { s with ta := { s.ta with busy := false, done := true } }

/-- The state after the record sink has accepted a record (spec/44_trace_analyzer.md R299). -/
def recAccepted (r : Record) (s : State) : State :=
  let t : State :=
    { s with
      ta := { s.ta.count r with out := s.ta.out.tail }
      env := { s.env with recOut := s.env.recOut ++ [r.word] } }
  match r with
  | .recon _ _ _ => t
  | .anomaly _ _ _ => t
  | .fin => taComplete t

/-- TA_emit_step that pushes this record: it is the oldest and the sink accepts (spec/44_trace_analyzer.md R299,
spec/20_memory.md R80). -/
def recPush (r : Record) (s : State) : Out :=
  unitStep (decide (s.ta.out.head? = some r) && s.env.recReady) (recAccepted r s) s

/-- REC_RECON (spec/30_encoding.md R114). -/
def execRecRecon (pol : Polarity) (m : BitVec 29) (n : BitVec 16) (s : State) : Out := recPush (.recon pol m n) s

/-- REC_ANOMALY (spec/30_encoding.md R114). -/
def execRecAnomaly (pol : Polarity) (m : BitVec 29) (n : BitVec 16) (s : State) : Out :=
  recPush (.anomaly pol m n) s

/-- REC_END (spec/30_encoding.md R114). -/
def execRecEnd (s : State) : Out := recPush .fin s

/-! ## Text -/

/-- `disable_carrier` or `enable_carrier` (spec/44_trace_analyzer.md R303). -/
def carrierCall : Polarity → String
  | .mark => "enable_carrier()"
  | .space => "disable_carrier()"

/-- The name of a polarity in an anomaly line (spec/44_trace_analyzer.md R303). -/
def polarityName : Polarity → String
  | .mark => "Mark"
  | .space => "Space"

/-- The spec's line for a record; no rule depends on it (spec/44_trace_analyzer.md R303). -/
def Record.text : Record → String
  | .recon pol m n =>
    carrierCall pol ++ "; delay_microseconds(" ++ toString n.toNat ++ "); // measured " ++ toString m.toNat
      ++ " us, nominal " ++ toString n.toNat ++ " us, delta " ++ toString (absDiff m.toNat n.toNat) ++ " us"
  | .anomaly pol m n =>
    "// ANOMALY: " ++ polarityName pol ++ " measured " ++ toString m.toNat ++ " us, nearest nominal "
      ++ toString n.toNat ++ " us, delta " ++ toString (absDiff m.toNat n.toNat) ++ " us"
  | .fin => "disable_carrier();"

end Sys2Proof.Machine
end

