-- ==== Sys2Proof/Machine/Agents.lean ====
section
/-! DEFINITION. One atomic step of each agent (spec/60_exceptions.md R348, spec/00_scope.md R16): the host's accesses,
the units' steps, the environment's steps; how the word a unit step is about is found and decoded; how a word is put
where the next step runs it. The meaning of a decoded instruction is the argument `run` (Machine/Step.lean gives
`exec`). -/

namespace Sys2Proof.Machine

/-! ## The host -/

/-- The CmdError of a word that is no command (spec/60_exceptions.md R330). -/
def rejectStatus : CmdReject → CmdStatus
  | .reservedBits => .reservedBits
  | .badOpcode => .badOpcode

/-- `execute_command(v)` (spec/30_encoding.md R101). -/
def executeCommand (run : Instr → State → Out) (v : Word) (s : State) : Out :=
  match decodeCmd v with
  | .ok i => run i s
  | .error why => runCommand (opField v) (.error (rejectStatus why)) s

/-- MemRead: the data goes to the host, nothing else changes; an illegal access is refused (spec/20_memory.md R71,
R74). -/
def hostRead (size : Nat) (a : BitVec 8) (s : State) : Out :=
  if accessOk size a s then .next (respond (.data (readReg a s)) s) else .next (refuseAccess a s)

/-- MemWrite: a command at CMD, else a register; an illegal access is refused (spec/20_memory.md R72, R74). -/
def hostWrite (run : Instr → State → Out) (size : Nat) (a : BitVec 8) (v : Word) (s : State) : Out :=
  if accessOk size a s then
    if a = 0x00#8 then executeCommand run v (respond .accepted s) else .next (writeReg a v (respond .accepted s))
  else .next (refuseAccess a s)

/-! ## The units -/

/-- TX_step: the word is the op the sequencer offers (spec/41_encoder.md R185). -/
def txAgent (run : Instr → State → Out) (s : State) : Out :=
  match s.tx.offered with
  | some op => run op.instr s
  | none => hold s

/-- RX_step: the word is the one offered on CAP (spec/42_decoder.md R214). -/
def rxAgent (run : Instr → State → Out) (s : State) : Out :=
  match s.env.capIn with
  | w :: _ => run (decodeCap w) s
  | [] => hold s

/-- EDGE_intake: the word is the one offered on EDGE (spec/43_gap_framer.md R255). -/
def intakeAgent (run : Instr → State → Out) (s : State) : Out :=
  match s.env.edgeIn with
  | w :: _ => run (decodeEdge w) s
  | [] => hold s

/-- TA_token_step: the token is the one offered on TRC (spec/44_trace_analyzer.md R291). -/
def tokenAgent (run : Instr → State → Out) (s : State) : Out :=
  match s.env.trcIn with
  | w :: _ => run (decodeTrc w) s
  | [] => hold s

/-- TA_emit_step: the word is the oldest record (spec/44_trace_analyzer.md R299). -/
def emitAgent (run : Instr → State → Out) (s : State) : Out :=
  match s.ta.out with
  | r :: _ => run r.instr s
  | [] => hold s

/-! ## The environment -/

/-- The capture source offers a word after those already offered (spec/20_memory.md R80, R82). -/
def offerCap (w : BitVec 34) (s : State) : State :=
  { s with env := { s.env with capIn := s.env.capIn ++ [w] } }

/-- The edge source offers a word (spec/20_memory.md R83). -/
def offerEdge (w : BitVec 33) (s : State) : State :=
  { s with env := { s.env with edgeIn := s.env.edgeIn ++ [w] } }

/-- The trace source offers a token (spec/20_memory.md R85). -/
def offerTrc (w : BitVec 9) (s : State) : State :=
  { s with env := { s.env with trcIn := s.env.trcIn ++ [w] } }

/-- The carrier driver becomes ready, or not (spec/20_memory.md R80). -/
def setDrvReady (b : Bool) (s : State) : State := { s with env := { s.env with drvReady := b } }

/-- The record sink becomes ready, or not (spec/20_memory.md R80). -/
def setRecReady (b : Bool) (s : State) : State := { s with env := { s.env with recReady := b } }

/-- The time base advances, modulo 2^32 (spec/20_memory.md R84). -/
def tickTime (us : Word) (s : State) : State := { s with env := { s.env with now := s.env.now + us } }

/-! ## One action -/

/-- One atomic step of one agent (spec/60_exceptions.md R348). -/
def act (run : Instr → State → Out) (a : Action) (s : State) : Out :=
  match a with
  | .hostRead size off => hostRead size off s
  | .hostWrite size off v => hostWrite run size off v s
  | .tx => txAgent run s
  | .rx => rxAgent run s
  | .edgeIntake => intakeAgent run s
  | .gapEdge => gapEdgeStep s
  | .gapSilence => gapSilenceStep s
  | .taToken => tokenAgent run s
  | .taEmit => emitAgent run s
  | .capOffer w => .next (offerCap w s)
  | .edgeOffer w => .next (offerEdge w s)
  | .trcOffer w => .next (offerTrc w s)
  | .drvReady b => .next (setDrvReady b s)
  | .recReady b => .next (setRecReady b s)
  | .tick us => .next (tickTime us s)
  | .rst b => .next (setRst b s)

/-- Take the next scripted action off the script (log 2). -/
def dropPending (s : State) : State := { s with env := { s.env with pending := s.env.pending.tail } }

/-- Count a free action (log 2). -/
def countPick (s : State) : State := { s with env := { s.env with picks := s.env.picks + 1 } }

/-! ## Putting a word where the next step runs it -/

/-- Put an action first in the script, with `rst` = 0. -/
def scheduleFirst (a : Action) (s : State) : State :=
  { s with env := { s.env with rst := false, pending := a :: s.env.pending } }

/-- The op of a DRV word, if it has one. -/
def opOfWord (w : BitVec 32) : Option DriverOp :=
  match decodeDrv w with
  | .ok (.drvDelay n) => some (.delay n)
  | .ok .drvEnable => some .enable
  | .ok _ => some .disable
  | .error _ => none

/-- The record of a REC word, if it has one. -/
def recordOfWord (w : BitVec 64) : Option Record :=
  match decodeRec w with
  | .ok (.recRecon pol m n) => some (.recon pol m n)
  | .ok (.recAnomaly pol m n) => some (.anomaly pol m n)
  | .ok _ => some .fin
  | .error _ => none

/-- The RX decoder runs: one that does not is armed. -/
def armRx (r : RxUnit) : RxUnit := if r.dec.st.running then r else .start r.proto

/-- The machine whose next step runs exactly this word (log 6): a command word is the next host write to CMD; a DRV or
REC word is offered by its unit to a ready consumer; an input word is offered on its port to a unit that reads it. -/
def placeWord (pw : PortWord) (s : State) : State :=
  match pw with
  | .cmd w => scheduleFirst (.hostWrite 4 0x00#8 w) s
  | .drv w =>
    match opOfWord w with
    | some op =>
      scheduleFirst .tx
        { s with tx := { s.tx with st := .emitting, ops := [op], opi := 0 }, env := { s.env with drvReady := true } }
    | none => s
  | .cap w => scheduleFirst .rx { s with rx := armRx s.rx, env := { s.env with capIn := w :: s.env.capIn } }
  | .edge w => scheduleFirst .edgeIntake { s with env := { s.env with edgeIn := w :: s.env.edgeIn } }
  | .trc w =>
    scheduleFirst .taToken
      { s with ta := { s.ta with busy := true, out := [] }, env := { s.env with trcIn := w :: s.env.trcIn } }
  | .record w =>
    match recordOfWord w with
    | some r =>
      scheduleFirst .taEmit { s with ta := { s.ta with out := [r] }, env := { s.env with recReady := true } }
    | none => s

end Sys2Proof.Machine
end

