-- ==== Sys2Proof/Machine/Dispatch.lean ====
section
/-! DEFINITION. One arm per instruction of spec/opcode_table.json: a direct call of its meaning. -/

namespace Sys2Proof.Machine

def exec (i : Instr) (s : State) : Host.Outcome State Fault Refusal :=
  match i with
  -- host commands (PROTO and KIND are passed on only where the opcode uses them)
  | .nop _ _ => Sys2Proof.Machine.execNop s
  | .nominal p k => Sys2Proof.Machine.execNominal p k s
  | .window p k => Sys2Proof.Machine.execWindow p k s
  | .matchSym p k => Sys2Proof.Machine.execMatch p k s
  | .nearest p _ => Sys2Proof.Machine.execNearest p s
  | .symbol p _ => Sys2Proof.Machine.execSymbol p s
  | .txStart p _ => Sys2Proof.Machine.execTxStart p s
  | .rxStart p _ => Sys2Proof.Machine.execRxStart p s
  | .rxStop _ _ => Sys2Proof.Machine.execRxStop s
  | .gapStart p _ => Sys2Proof.Machine.execGapStart p s
  | .gapStop _ _ => Sys2Proof.Machine.execGapStop s
  | .gapAck _ _ => Sys2Proof.Machine.execGapAck s
  | .taStart _ _ => Sys2Proof.Machine.execTaStart s
  -- driver words: the TX sequencer pushes one
  | .drvDisable => Sys2Proof.Machine.execDrvDisable s
  | .drvEnable => Sys2Proof.Machine.execDrvEnable s
  | .drvDelay n => Sys2Proof.Machine.execDrvDelay n s
  -- capture words: the RX decoder pops one
  | .capPulse pol dur => Sys2Proof.Machine.execCapPulse pol dur s
  | .capTimeout pol dur => Sys2Proof.Machine.execCapTimeout pol dur s
  -- edge words: the GAP framer takes one
  | .edge pol ts => Sys2Proof.Machine.execEdge pol ts s
  -- trace tokens: the TA unit pops one
  | .trcByte data => Sys2Proof.Machine.execTrcByte data s
  | .trcEnd data => Sys2Proof.Machine.execTrcEnd data s
  -- records: the TA unit pushes one
  | .recRecon pol m n => Sys2Proof.Machine.execRecRecon pol m n s
  | .recAnomaly pol m n => Sys2Proof.Machine.execRecAnomaly pol m n s
  | .recEnd => Sys2Proof.Machine.execRecEnd s

end Sys2Proof.Machine
end

