-- ==== Sys2Proof/Machine/Step.lean ====
section
/-! DEFINITION. One step of the machine: the next scripted action, or a free one where nothing is scripted
(spec/60_exceptions.md R348; log 2). -/

namespace Sys2Proof.Machine

/-- One atomic step of one agent. -/
def step (s : State) : Host.Outcome State Fault Refusal :=
  match s.env.pending with
  | a :: _ => act exec a (dropPending s)
  | [] => act exec (Config.freeAction s.env.picks) (countPick s)

/-- `s` with the word numbered as spec/opcode_table.json numbers it placed where the next step runs it (log 6). -/
def State.withFetchWord (s : State) (nbits w : Nat) : State :=
  match tablePortWord nbits w with
  | some pw => placeWord pw s
  | none => s

end Sys2Proof.Machine
end

