-- ==== Sys2Proof/Safety.lean ====
section
/-! DEFINITION. What counts as a sound state of the machine, in the spec's own terms: the bounds and relations that the
rules of spec/10_state.md give the block's state. A step keeps it (Certificates/Slice0/Obligations.lean). -/

namespace Sys2Proof.Machine

/-- Reserved bits of TACFG2, IRQEN and IRQSTAT read 0 (spec/10_state.md R22, R39, R42, R43). -/
structure HostRegs.Sound (r : HostRegs) : Prop where
  tacfg2_reserved : r.tacfg2 &&& tacfg2Bits = r.tacfg2
  irqen_reserved : r.irqen &&& irqBits = r.irqen
  irqstat_reserved : r.irqstat &&& irqBits = r.irqstat

/-- The sequencer points into its frame, BUSY and DONE are never both 1, EVENTS counts the DELAY ops pushed and is at
most 200, and no DELAY exceeds 0xFFFF (spec/10_state.md R28, R46, spec/30_encoding.md R110). -/
structure TxUnit.Sound (t : TxUnit) : Prop where
  emitting_in_frame : t.st = .emitting → t.opi < t.ops.length
  done_idle : t.done = true → t.st = .idle
  events_count : t.events.toNat = (t.ops.take t.opi).countP DriverOp.isDelay
  events_bound : t.ops.countP DriverOp.isDelay ≤ 200
  delays_nominal : ∀ n, DriverOp.delay n ∈ t.ops → n.toNat ≤ 0xFFFF

/-- The decoder's index, failure code, accumulator and warning agree with its state (spec/10_state.md R29, R31, R47,
spec/42_decoder.md R216 to R221). -/
structure DecState.Sound (p : Proto) (d : DecState) : Prop where
  index_bound : d.i ≤ nbits p
  index_start : d.st = .idle ∨ d.st = .awaitHeaderMark ∨ d.st = .awaitHeaderSpace → d.i = 0
  index_bits : d.st = .awaitBitMark ∨ d.st = .awaitBitSpace → d.i < nbits p
  index_stop : d.st = .awaitStop ∨ d.st = .done → d.i = nbits p
  fail_failed : d.fail ≠ .none ↔ d.st = .failed
  failed_acc : d.st = .failed → d.acc = 0#48
  warn_done : d.warn = true → d.st = .done

/-- RXDATA0 and RXDATA1 hold the result while Done and are 0 in every other state (spec/10_state.md R32, R33). -/
structure RxUnit.Sound (r : RxUnit) : Prop where
  dec_sound : r.dec.Sound r.proto
  data_done : r.dec.st = .done → r.data0 = resultData0 r.proto r.dec ∧ r.data1 = resultData1 r.proto r.dec
  data_zero : r.dec.st ≠ .done → r.data0 = 0#32 ∧ r.data1 = 0#32

/-- A latched result: GAPDATA0 and GAPDATA1 are 0 for a failure, and the failure code and index are those of a decode
(spec/10_state.md R31, R35, R36). -/
structure GapResult.Sound (g : GapResult) : Prop where
  failed_data : g.failed = true → g.data0 = 0#32 ∧ g.data1 = 0#32 ∧ g.stopWarn = false
  failed_code : g.failed = true ↔ g.fail ≠ .none
  index_bound : g.index ≤ 48

/-- The queue and the interval buffer keep their bounds; a disabled framer holds nothing; intervals are buffered only
in an open frame (spec/10_state.md R48, spec/43_gap_framer.md R252, R254, R256). -/
structure GapUnit.Sound (g : GapUnit) : Prop where
  q_bound : g.q.length ≤ Config.edgeQDepth
  buf_bound : g.buf.length ≤ Config.frameBufDepth
  ovf_full : g.bufOvf = true → g.buf.length = Config.frameBufDepth
  disabled_empty : g.en = false → g.q = [] ∧ g.haveLast = false ∧ g.result = none
  closed_empty : g.haveLast = false → g.buf = []
  result_sound : ∀ r, g.result = some r → r.Sound

/-- At most three records wait, END last and only after the last run; records wait only while the unit is busy; BUSY
and DONE are never both 1; anomalies are counted among the runs (spec/10_state.md R40, R41, R49,
spec/44_trace_analyzer.md R298, R299, R306). -/
structure TaUnit.Sound (t : TaUnit) : Prop where
  out_bound : t.out.length ≤ 3
  out_busy : t.out ≠ [] → t.busy = true
  fin_last : Record.fin ∉ t.out.dropLast
  fin_flushed : Record.fin ∈ t.out → t.rawValid = false ∧ t.curValid = false ∧ t.preCnt = 0#32
  done_idle : t.done = true → t.busy = false
  leading_glitches : t.curValid = true → t.preCnt = 0#32
  anomalies_runs : t.anomalies.toNat ≤ t.runs.toNat

/-- A sound state of the machine. -/
structure State.Sound (s : State) : Prop where
  host_sound : s.host.Sound
  tx_sound : s.tx.Sound
  rx_sound : s.rx.Sound
  gap_sound : s.gap.Sound
  ta_sound : s.ta.Sound

/-- An access the spec forbids the host: not 4 bytes, not at a multiple of 4 (spec/20_memory.md R70, R74), or while
`rst` = 1 (spec/70_reset_and_hazards.md R370). No other action is forbidden. -/
def ForbiddenAccess (a : Action) (s : State) : Prop :=
  match a with
  | .hostRead size off => size ≠ 4 ∨ off.toNat % 4 ≠ 0 ∨ s.env.rst = true
  | .hostWrite size off _ => size ≠ 4 ∨ off.toNat % 4 ≠ 0 ∨ s.env.rst = true
  | .tx | .rx | .edgeIntake | .gapEdge | .gapSilence | .taToken | .taEmit => False
  | .capOffer _ | .edgeOffer _ | .trcOffer _ | .drvReady _ | .recReady _ | .tick _ | .rst _ => False

end Sys2Proof.Machine
end

