-- ==== Sys2Proof/Certificates/Slice0/Obligations.lean ====
section
/-! DEFINITION. The statements for the provers, from the numbered rules of spec/. -/

open Sys2Proof Sys2Proof.Machine

/-! ## Words used in the statements -/

/-- The opcodes of the opcode map (spec/30_encoding.md R106). -/
def Sys2Proof.Claims.opcodeMap : List (BitVec 8) :=
  [0x00#8, 0x01#8, 0x02#8, 0x03#8, 0x04#8, 0x05#8, 0x10#8, 0x20#8, 0x21#8, 0x30#8, 0x31#8, 0x32#8, 0x40#8]

/-- The opcodes that use PROTO (spec/30_encoding.md R106). -/
def Sys2Proof.Claims.protoOps : List (BitVec 8) :=
  [0x01#8, 0x02#8, 0x03#8, 0x04#8, 0x05#8, 0x10#8, 0x20#8, 0x30#8]

/-- The opcodes that use KIND (spec/30_encoding.md R106). -/
def Sys2Proof.Claims.kindOps : List (BitVec 8) := [0x01#8, 0x02#8, 0x03#8]

/-- `s` after a host command that completed, its CSTAT written (spec/60_exceptions.md R331). -/
def Sys2Proof.Claims.statusOk (op : BitVec 8) (s : State) : State :=
  { s with host := { s.host with err := .ok, lastOp := op } }

/-- `s` after a CmdError: CSTAT and IRQSTAT.CMD_ERR (spec/60_exceptions.md R331). -/
def Sys2Proof.Claims.statusError (code : CmdStatus) (op : BitVec 8) (s : State) : State :=
  { s with host := { s.host with err := code, lastOp := op, irqstat := s.host.irqstat ||| 0x01#32 } }

/-- The CMD words with this opcode: with a bit set in [31:16] they raise RESERVED_BITS, else they run the instruction
`i`, whose operands are their PROTO and KIND fields (spec/30_encoding.md R101, R102, R106). -/
def Sys2Proof.Claims.CommandIs (op : BitVec 8) (i : BitVec 4 → BitVec 4 → Instr) (s : State) : Prop :=
  ∀ v : Word, opField v = op → executeCommand exec v s =
    if v.extractLsb' 16 16 = 0#16 then exec (i (protoField v) (kindField v)) s
    else .next (Sys2Proof.Claims.statusError .reservedBits op s)

/-- The CAP words that deliver these events unchanged (spec/30_encoding.md R111). -/
def Sys2Proof.Claims.capWords (f : List PulseEvent) : List (BitVec 34) :=
  f.map fun e => capWord 0#1 e.pol e.dur

/-- One edge at the start of each event, the first at `ts`, and the time at which the last event ends
(spec/43_gap_framer.md R264, R265). -/
def Sys2Proof.Claims.edgesOf (ts : Word) : List PulseEvent → List EdgeEvent × Word
  | [] => ([], ts)
  | e :: es => (⟨e.pol, ts⟩ :: (Sys2Proof.Claims.edgesOf (ts + e.dur) es).1, (Sys2Proof.Claims.edgesOf (ts + e.dur) es).2)

/-- Edges taken one after the other by the edge step (spec/43_gap_framer.md R256). -/
def Sys2Proof.Claims.takeEdges (es : List EdgeEvent) (s : State) : State :=
  es.foldl (fun t e => edgeTaken Config.frameBufDepth e t) s

/-- The DELAY values of an op list (spec/30_encoding.md R110). -/
def Sys2Proof.Claims.delays (ops : List DriverOp) : List Nat :=
  ops.filterMap fun op =>
    match op with
    | .delay n => some n.toNat
    | .enable => none
    | .disable => none

/-- The number of one-bits of a 32-bit value (spec/70_reset_and_hazards.md R391). -/
def Sys2Proof.Claims.ones (v : Word) : Nat := (List.range 32).countP fun i => v.getLsbD i

/-- ENABLE and DISABLE alternate, each but the final DISABLE followed by one DELAY; `on` is the carrier before
(spec/41_encoder.md R189). -/
def Sys2Proof.Claims.alternates : Bool → List DriverOp → Prop
  | on, [] => on = false
  | on, [op] => on = true ∧ op = .disable
  | on, op :: .delay _ :: rest =>
    (on = false ∧ op = .enable ∧ Sys2Proof.Claims.alternates true rest) ∨
      (on = true ∧ op = .disable ∧ Sys2Proof.Claims.alternates false rest)
  | _, _ :: _ :: _ => False

/-- One R05D sub-frame as events (spec/30_encoding.md R116). -/
def Sys2Proof.Claims.subFrame (a b c : Byte) : List PulseEvent :=
  (subFrameSymbols a b c).map (symbolEvent .r05d)

/-- CSTAT, field by field (spec/10_state.md R27, spec/60_exceptions.md R330). -/
def Sys2Proof.Claims.CstatReads (v : Word) (r : HostRegs) : Prop :=
  [CmdStatus.ok, .reservedBits, .badOpcode, .badProto, .badKind, .undefSymbol, .badIndex,
    .busy][(v.extractLsb' 0 4).toNat]? = some r.err ∧
  v.extractLsb' 4 4 = 0#4 ∧ v.extractLsb' 8 8 = r.lastOp ∧ v.extractLsb' 16 16 = 0#16

/-- A PROTO field at [7:4] (spec/10_state.md R28, R29, R35, spec/30_encoding.md R103). -/
def Sys2Proof.Claims.ProtoReads (v : Word) (p : Proto) : Prop :=
  [Proto.nec, .r05d][(v.extractLsb' 4 4).toNat]? = some p

/-- A failure code at [15:12], an index at [23:16] and a stop warning at [24] (spec/10_state.md R29, R31, R35). -/
def Sys2Proof.Claims.OutcomeReads (v : Word) (fail : FailCode) (index : Nat) (warn : Bool) : Prop :=
  [FailCode.none, .headerMismatch, .bitPulseMismatch, .bitSpaceMismatch,
    .timeout][(v.extractLsb' 12 4).toNat]? = some fail ∧
  (v.extractLsb' 16 8).toNat = index % 256 ∧ v.getLsbD 24 = warn

/-- TXSTAT, field by field (spec/10_state.md R28). -/
def Sys2Proof.Claims.TxstatReads (v : Word) (u : TxUnit) : Prop :=
  (v.getLsbD 0 = true ↔ u.st = .emitting) ∧ v.getLsbD 1 = u.done ∧ v.extractLsb' 2 2 = 0#2 ∧
  Sys2Proof.Claims.ProtoReads v u.proto ∧ v.extractLsb' 8 8 = 0#8 ∧ v.extractLsb' 16 16 = u.events

/-- RXSTAT, field by field (spec/10_state.md R29, R30, R31). -/
def Sys2Proof.Claims.RxstatReads (v : Word) (u : RxUnit) : Prop :=
  (v.getLsbD 0 = true ↔
    u.dec.st ∈ [DecSt.awaitHeaderMark, .awaitHeaderSpace, .awaitBitMark, .awaitBitSpace, .awaitStop]) ∧
  (v.getLsbD 1 = true ↔ u.dec.st = .done) ∧ (v.getLsbD 2 = true ↔ u.dec.st = .failed) ∧ v.getLsbD 3 = false ∧
  Sys2Proof.Claims.ProtoReads v u.proto ∧
  [DecSt.idle, .awaitHeaderMark, .awaitHeaderSpace, .awaitBitMark, .awaitBitSpace, .awaitStop, .done,
    .failed][(v.extractLsb' 8 4).toNat]? = some u.dec.st ∧
  Sys2Proof.Claims.OutcomeReads v u.dec.fail u.dec.i u.dec.warn ∧ v.extractLsb' 25 7 = 0#7

/-- GAPSTAT, field by field; without a latched result its fields are 0 (spec/10_state.md R35). -/
def Sys2Proof.Claims.GapstatReads (v : Word) (u : GapUnit) : Prop :=
  v.getLsbD 0 = u.en ∧ (v.getLsbD 1 = true ↔ u.result ≠ none) ∧
  Sys2Proof.Claims.ProtoReads v u.proto ∧ v.extractLsb' 8 4 = 0#4 ∧ v.getLsbD 25 = u.edgeOvf ∧
  v.getLsbD 26 = u.resultOverrun ∧ v.extractLsb' 27 5 = 0#5 ∧
  (u.result = none → v.extractLsb' 2 2 = 0#2 ∧ v.extractLsb' 12 13 = 0#13) ∧
  ∀ r, u.result = some r →
    v.getLsbD 2 = r.failed ∧ v.getLsbD 3 = r.frameOvf ∧ Sys2Proof.Claims.OutcomeReads v r.fail r.index r.stopWarn

/-- TASTAT, field by field (spec/10_state.md R40). -/
def Sys2Proof.Claims.TastatReads (v : Word) (u : TaUnit) : Prop :=
  v.getLsbD 0 = u.busy ∧ v.getLsbD 1 = u.done ∧ v.extractLsb' 2 14 = 0#14 ∧ v.extractLsb' 16 16 = u.anomalies

open Sys2Proof.Claims

/-! ## Encoding -/

/-- Decoding an instruction's word gives it back, with every operand at every value (R102, R106, R110 to R114). -/
def Obligations.DecodeOfEncode : Prop := ∀ i : Instr, decode (encode i) = .ok i

/-- Every word has one meaning: the instruction a word decodes to encodes to that word (R102, R110 to R114). -/
def Obligations.EncodeOfDecode : Prop := ∀ (w : PortWord) (i : Instr), decode w = .ok i → encode i = w

/-- R102: "So a command word is `(KIND << 12) | (PROTO << 8) | OP`." -/
def Obligations.CommandWordFromFields : Prop :=
  ∀ (op : BitVec 8) (p k : BitVec 4),
    cmdWord op p k = (k.setWidth 32 <<< 12) ||| (p.setWidth 32 <<< 8) ||| op.setWidth 32 ∧
    opField (cmdWord op p k) = op ∧ protoField (cmdWord op p k) = p ∧ kindField (cmdWord op p k) = k ∧
    (cmdWord op p k).extractLsb' 16 16 = 0#16

/-- Words written out from the spec's encodings decode to the instructions they stand for
(spec/95_test_vectors.md sections 2 and 3). -/
def Obligations.SpecWordsDecode : Prop :=
  decode (.cmd 0x0000FF00#32) = .ok (.nop 15#4 15#4) ∧
  decode (.cmd 0x00005001#32) = .ok (.nominal 0#4 5#4) ∧
  decode (.cmd 0x00000110#32) = .ok (.txStart 1#4 0#4) ∧
  decode (.cmd 0x00010000#32) = .error (.cmd .reservedBits) ∧
  decode (.cmd 0x0000FF06#32) = .error (.cmd .badOpcode) ∧
  decode (.drv 0x80002328#32) = .ok (.drvDelay 9000#24) ∧
  decode (.drv 0xC0000000#32) = .error .neverProduced ∧
  decode (.cap 0x100002328#34) = .ok (.capPulse .mark 9000#32) ∧
  decode (.cap 0x200000000#34) = .ok (.capTimeout .space 0#32) ∧
  decode (.edge 0x1000003E8#33) = .ok (.edge .mark 1000#32) ∧
  decode (.trc 0x100#9) = .ok (.trcEnd 0#8) ∧
  decode (.record 0x6000271014640000#64) = .ok (.recAnomaly .mark 10000#29 5220#16)

/-! ## Steps -/

/-- A step runs the instruction that the word of its action decodes to: a host write to CMD, the words a unit finds at
its port, the op or record it offers; and `withFetchWord` places a word so that the next step runs it (log 6). Which
action a step takes is the model's choice (log 2): a scripted one first, else a free one, whatever it is; so is where
the bus's answer to a host write is kept (log 13). -/
def Obligations.StepRunsDecodedInstruction : Prop :=
  (∀ (s : State) (rest : List Action) (v : Word) (i : Instr),
    s.env.pending = .hostWrite 4 0x00#8 v :: rest → s.env.rst = false → decode (.cmd v) = .ok i →
      step s = exec i { s with env := { s.env with pending := rest, bus := .accepted } }) ∧
  (∀ (s : State) (rest : List Action) (w : BitVec 34) (ws : List (BitVec 34)) (i : Instr),
    s.env.pending = .rx :: rest → s.env.capIn = w :: ws → decode (.cap w) = .ok i →
      step s = exec i { s with env := { s.env with pending := rest } }) ∧
  (∀ (s : State) (rest : List Action) (w : BitVec 33) (ws : List (BitVec 33)) (i : Instr),
    s.env.pending = .edgeIntake :: rest → s.env.edgeIn = w :: ws → decode (.edge w) = .ok i →
      step s = exec i { s with env := { s.env with pending := rest } }) ∧
  (∀ (s : State) (rest : List Action) (w : BitVec 9) (ws : List (BitVec 9)) (i : Instr),
    s.env.pending = .taToken :: rest → s.env.trcIn = w :: ws → decode (.trc w) = .ok i →
      step s = exec i { s with env := { s.env with pending := rest } }) ∧
  (∀ (s : State) (rest : List Action) (op : DriverOp) (i : Instr),
    s.env.pending = .tx :: rest → s.tx.offered = some op → decode (.drv op.word) = .ok i →
      step s = exec i { s with env := { s.env with pending := rest } }) ∧
  (∀ (s : State) (rest : List Action) (r : Record) (rs : List Record) (i : Instr),
    s.env.pending = .taEmit :: rest → s.ta.out = r :: rs → decode (.record r.word) = .ok i →
      step s = exec i { s with env := { s.env with pending := rest } }) ∧
  (∀ (s : State) (nbits w : Nat) (i : Instr), decodeTableWord nbits w = some i →
      let fetched : State := dropPending (s.withFetchWord nbits w)
      ∃ bus, bus ∈ [s.env.bus, .accepted] ∧
        step (s.withFetchWord nbits w) = exec i { fetched with env := { fetched.env with bus := bus } }) ∧
  (∀ (s : State) (a : Action) (rest : List Action), s.env.pending = a :: rest →
    step s = act exec a { s with env := { s.env with pending := rest } }) ∧
  (∀ s : State, s.env.pending = [] →
    step s = act exec (Config.freeAction s.env.picks) { s with env := { s.env with picks := s.env.picks + 1 } })

/-- No step stops the block (R335). An access that the spec forbids is refused with the BusError of its offset, which is
reported on the bus and changes no state, and no other step makes such a report (R74, R333, R370); after it every action,
every command among them, does what it would have done without it. That the report is kept in `env.bus` (log 13) and that
the run goes on (log 7) are the model's reading. -/
def Obligations.ForbiddenAccessOnlyReported : Prop :=
  (∀ (a : Action) (s : State), ∃ t, act exec a s = .next t) ∧ (∀ s : State, ∃ t, step s = .next t) ∧
  (∀ (size : Nat) (off : BitVec 8) (v : Word) (s : State),
    let refused : State := { s with env := { s.env with bus := .refused (.busError off) } }
    (ForbiddenAccess (.hostRead size off) s → act exec (.hostRead size off) s = .next refused) ∧
    (ForbiddenAccess (.hostWrite size off v) s → act exec (.hostWrite size off v) s = .next refused)) ∧
  (∀ (a : Action) (s t : State), ¬ ForbiddenAccess a s → act exec a s = .next t →
    t.env.bus = s.env.bus ∨ t.env.bus = .accepted ∨ ∃ v, t.env.bus = .data v) ∧
  (∀ (a b : Action) (s t u : State), ForbiddenAccess a s → act exec a s = .next t → act exec b s = .next u →
    ∃ u', act exec b t = .next u' ∧ u = { u' with env := { u'.env with bus := u.env.bus } })

/-! ## Command errors -/

/-- R331: a CmdError writes CSTAT and IRQSTAT.CMD_ERR and nothing else; a command that completes sets ERR to 0 and does
not touch IRQSTAT. While `rst` is 1 the bus refuses the write (ForbiddenAccessOnlyReported). -/
def Obligations.CmdErrorChangesNothingElse : Prop :=
  ∀ (v : Word) (s t : State), s.env.rst = false → executeCommand exec v s = .next t →
    (∃ code, code ≠ .ok ∧ t = statusError code (opField v) s) ∨
    (t.host.err = .ok ∧ t.host.lastOp = opField v ∧ t.host.irqstat = s.host.irqstat)

/-- R332: the checks of a CMD write, in order. -/
def Obligations.CommandCheckOrder : Prop :=
  ∀ (v : Word) (s : State), s.env.rst = false →
    (v.extractLsb' 16 16 ≠ 0#16 →
      executeCommand exec v s = .next (statusError .reservedBits (opField v) s)) ∧
    (v.extractLsb' 16 16 = 0#16 →
      (opField v ∉ opcodeMap → executeCommand exec v s = .next (statusError .badOpcode (opField v) s)) ∧
      (opField v ∈ protoOps → 1 < (protoField v).toNat →
        executeCommand exec v s = .next (statusError .badProto (opField v) s)) ∧
      (opField v ∈ kindOps → (protoField v).toNat ≤ 1 → 7 < (kindField v).toNat →
        executeCommand exec v s = .next (statusError .badKind (opField v) s)) ∧
      (opField v ∈ kindOps → protoField v = 0#4 → kindField v = 7#4 →
        executeCommand exec v s = .next (statusError .undefSymbol (opField v) s)) ∧
      (opField v = 0x05#8 → (protoField v).toNat ≤ 1 → 4 ≤ s.host.arg.toNat →
        executeCommand exec v s = .next (statusError .badIndex 0x05#8 s)) ∧
      (opField v = 0x10#8 → (protoField v).toNat ≤ 1 → s.tx.st = .emitting →
        executeCommand exec v s = .next (statusError .busy 0x10#8 s)) ∧
      (opField v = 0x20#8 → (protoField v).toNat ≤ 1 → s.rx.dec.st.running = true →
        executeCommand exec v s = .next (statusError .busy 0x20#8 s)) ∧
      (opField v = 0x30#8 → (protoField v).toNat ≤ 1 → s.gap.en = true →
        executeCommand exec v s = .next (statusError .busy 0x30#8 s)) ∧
      (opField v = 0x40#8 → 1 < (tproto s.host).toNat →
        executeCommand exec v s = .next (statusError .badProto 0x40#8 s)) ∧
      (opField v = 0x40#8 → (tproto s.host).toNat ≤ 1 → s.ta.busy = true →
        executeCommand exec v s = .next (statusError .busy 0x40#8 s)))

/-! ## Classifier -/

/-- R141, R146 and R148: the nominals, the candidate lists and the windows. -/
def Obligations.CandidatesAndWindows : Prop :=
  allKinds.map (nominal .nec) =
    [some 9000, some 4500, some 560, some 560, some 560, some 1690, some 560, none] ∧
  allKinds.map (nominal .r05d) =
    [some 4400, some 4400, some 540, some 540, some 540, some 1620, some 540, some 5220] ∧
  symbols .nec = [9000, 4500, 560, 1690] ∧ symbols .r05d = [4400, 540, 1620, 5220] ∧
  allKinds.map (fun k => (nominal .nec k).map fun n => (lower n, upper n)) =
    [some (7200, 10800), some (3600, 5400), some (448, 672), some (448, 672), some (448, 672), some (1352, 2028),
      some (448, 672), none] ∧
  allKinds.map (fun k => (nominal .r05d k).map fun n => (lower n, upper n)) =
    [some (3520, 5280), some (3520, 5280), some (432, 648), some (432, 648), some (432, 648), some (1296, 1944),
      some (432, 648), some (4176, 6264)]

/-- R149: NOP. -/
def Obligations.NopCompletes : Prop :=
  ∀ (p k : BitVec 4) (s : State), s.env.rst = false →
    CommandIs 0x00#8 .nop s ∧ exec (.nop p k) s = .next (statusOk 0x00#8 s)

/-- R150: NOMINAL, its errors in order and its result. -/
def Obligations.NominalResult : Prop :=
  ∀ (p k : BitVec 4) (s : State), s.env.rst = false →
    CommandIs 0x01#8 .nominal s ∧
    (1 < p.toNat → exec (.nominal p k) s = .next (statusError .badProto 0x01#8 s)) ∧
    (p.toNat ≤ 1 → 7 < k.toNat → exec (.nominal p k) s = .next (statusError .badKind 0x01#8 s)) ∧
    (p = 0#4 → k = 7#4 → exec (.nominal p k) s = .next (statusError .undefSymbol 0x01#8 s)) ∧
    (∀ proto kind n, proto.code = p → kind.code = k → timing proto kind = some n →
      exec (.nominal p k) s =
        .next (statusOk 0x01#8 { s with host := { s.host with cres0 := n.setWidth 32, cres1 := 0#32 } }))

/-- R151 with R144: WINDOW, its errors in order and its result. -/
def Obligations.WindowResult : Prop :=
  ∀ (p k : BitVec 4) (s : State), s.env.rst = false →
    CommandIs 0x02#8 .window s ∧
    (1 < p.toNat → exec (.window p k) s = .next (statusError .badProto 0x02#8 s)) ∧
    (p.toNat ≤ 1 → 7 < k.toNat → exec (.window p k) s = .next (statusError .badKind 0x02#8 s)) ∧
    (p = 0#4 → k = 7#4 → exec (.window p k) s = .next (statusError .undefSymbol 0x02#8 s)) ∧
    (∀ proto kind n, proto.code = p → kind.code = k → timing proto kind = some n →
      exec (.window p k) s = .next (statusOk 0x02#8 { s with host := { s.host with
        cres0 := BitVec.ofNat 32 (n.toNat * 80 / 100), cres1 := BitVec.ofNat 32 (n.toNat * 120 / 100) } }))

/-- R152 with R145: MATCH, its errors in order and its result; both bounds are inclusive. -/
def Obligations.MatchResult : Prop :=
  ∀ (p k : BitVec 4) (s : State), s.env.rst = false →
    CommandIs 0x03#8 .matchSym s ∧
    (1 < p.toNat → exec (.matchSym p k) s = .next (statusError .badProto 0x03#8 s)) ∧
    (p.toNat ≤ 1 → 7 < k.toNat → exec (.matchSym p k) s = .next (statusError .badKind 0x03#8 s)) ∧
    (p = 0#4 → k = 7#4 → exec (.matchSym p k) s = .next (statusError .undefSymbol 0x03#8 s)) ∧
    (∀ proto kind n, proto.code = p → kind.code = k → timing proto kind = some n →
      exec (.matchSym p k) s = .next (statusOk 0x03#8 { s with host := { s.host with
        cres0 := if n.toNat * 80 / 100 ≤ s.host.arg.toNat ∧ s.host.arg.toNat ≤ n.toNat * 120 / 100 then 1#32
          else 0#32,
        cres1 := 0#32 } }))

/-- R153 with R147: NEAREST answers the candidate closest to ARG, the first of them on a tie, and its distance. -/
def Obligations.NearestIsFirstClosest : Prop :=
  ∀ (p k : BitVec 4) (s : State), s.env.rst = false →
    CommandIs 0x04#8 .nearest s ∧
    (1 < p.toNat → exec (.nearest p k) s = .next (statusError .badProto 0x04#8 s)) ∧
    (∀ proto : Proto, proto.code = p → ∃ j n : Nat, (symbols proto)[j]? = some n ∧
      (∀ j' m : Nat, (symbols proto)[j']? = some m → absDiff s.host.arg.toNat n ≤ absDiff s.host.arg.toNat m) ∧
      (∀ j' m : Nat, j' < j → (symbols proto)[j']? = some m → absDiff s.host.arg.toNat n < absDiff s.host.arg.toNat m) ∧
      exec (.nearest p k) s = .next (statusOk 0x04#8 { s with host := { s.host with
        cres0 := BitVec.ofNat 32 n, cres1 := BitVec.ofNat 32 (absDiff s.host.arg.toNat n) } }))

/-- R154: SYMBOL, its errors in order and its result. -/
def Obligations.SymbolResult : Prop :=
  ∀ (p k : BitVec 4) (s : State), s.env.rst = false →
    CommandIs 0x05#8 .symbol s ∧
    (1 < p.toNat → exec (.symbol p k) s = .next (statusError .badProto 0x05#8 s)) ∧
    (∀ proto : Proto, proto.code = p → (symbols proto).length ≤ s.host.arg.toNat →
      exec (.symbol p k) s = .next (statusError .badIndex 0x05#8 s)) ∧
    (∀ (proto : Proto) (n : Nat), proto.code = p → (symbols proto)[s.host.arg.toNat]? = some n →
      exec (.symbol p k) s = .next (statusOk 0x05#8 { s with host := { s.host with
        cres0 := BitVec.ofNat 32 n, cres1 := BitVec.ofNat 32 (symbols proto).length } }))

/-- R155 and the frame of the classifier commands: they change no unit and nothing at the boundary; of the window only
CRES0, CRES1, CSTAT and IRQSTAT may change, IRQSTAT only in CMD_ERR. -/
def Obligations.ClassifierFrame : Prop :=
  ∀ (i : Instr) (p k : BitVec 4) (s t : State),
    i ∈ [Instr.nop p k, .nominal p k, .window p k, .matchSym p k, .nearest p k, .symbol p k] → exec i s = .next t →
      t.tx = s.tx ∧ t.rx = s.rx ∧ t.gap = s.gap ∧ t.ta = s.ta ∧ t.env = s.env ∧
      (t.host.irqstat = s.host.irqstat ∨ t.host.irqstat = s.host.irqstat ||| 0x01#32) ∧
      (t.host.err ≠ .ok → t.host.cres0 = s.host.cres0 ∧ t.host.cres1 = s.host.cres1) ∧
      ∀ a : BitVec 8, a &&& 0xFC#8 ∉ [0x08#8, 0x0C#8, 0x10#8, 0x4C#8] → readByte a t = readByte a s

/-! ## Encoder and TX sequencer -/

/-- R115: the 67 events of a NEC frame. -/
def Obligations.NecFrameLayout : Prop :=
  ∀ v : Word,
    (encodeNEC v).length = 67 ∧
    (encodeNEC v)[0]? = some ⟨.mark, 9000#32⟩ ∧ (encodeNEC v)[1]? = some ⟨.space, 4500#32⟩ ∧
    (∀ i, i < 32 → (encodeNEC v)[2 + 2 * i]? = some ⟨.mark, 560#32⟩ ∧
      (encodeNEC v)[3 + 2 * i]? = some ⟨.space, if v.getLsbD i then 1690#32 else 560#32⟩) ∧
    (encodeNEC v)[66]? = some ⟨.mark, 560#32⟩ ∧
    encodeNEC v = (necSymbols v).map (symbolEvent .nec) ∧
    (necSymbols v)[0]? = some (.mark, .headerMark) ∧ (necSymbols v)[1]? = some (.space, .headerSpace) ∧
    (∀ i, i < 32 → (necSymbols v)[2 + 2 * i]? = some (.mark, if v.getLsbD i then .bit1Mark else .bit0Mark) ∧
      (necSymbols v)[3 + 2 * i]? = some (.space, if v.getLsbD i then .bit1Space else .bit0Space)) ∧
    (necSymbols v)[66]? = some (.mark, .stopMark)

/-- R116: the 200 events of an R05D frame, the sub-frame twice. -/
def Obligations.R05dFrameLayout : Prop :=
  ∀ a b c : Byte,
    encodeR05D a b c = subFrame a b c ++ subFrame a b c ∧ (subFrame a b c).length = 100 ∧
    (subFrame a b c)[0]? = some ⟨.mark, 4400#32⟩ ∧ (subFrame a b c)[1]? = some ⟨.space, 4400#32⟩ ∧
    (∀ k byte, k < 48 → [a, ~~~a, b, ~~~b, c, ~~~c][k / 8]? = some byte →
      (subFrame a b c)[2 + 2 * k]? = some ⟨.mark, 540#32⟩ ∧
      (subFrame a b c)[3 + 2 * k]? = some ⟨.space, if byte.getLsbD (7 - k % 8) then 1620#32 else 540#32⟩) ∧
    (subFrame a b c)[98]? = some ⟨.mark, 540#32⟩ ∧ (subFrame a b c)[99]? = some ⟨.space, 5220#32⟩ ∧
    (subFrameSymbols a b c)[0]? = some (.mark, .headerMark) ∧
    (subFrameSymbols a b c)[1]? = some (.space, .headerSpace) ∧
    (∀ k byte, k < 48 → [a, ~~~a, b, ~~~b, c, ~~~c][k / 8]? = some byte →
      (subFrameSymbols a b c)[2 + 2 * k]? =
        some (.mark, if byte.getLsbD (7 - k % 8) then .bit1Mark else .bit0Mark) ∧
      (subFrameSymbols a b c)[3 + 2 * k]? =
        some (.space, if byte.getLsbD (7 - k % 8) then .bit1Space else .bit0Space)) ∧
    (subFrameSymbols a b c)[98]? = some (.mark, .stopMark) ∧
    (subFrameSymbols a b c)[99]? = some (.space, .stopSpace)

/-- R189 with R184: the ops of every frame alternate ENABLE and DISABLE, start with ENABLE, end with the carrier
disabled, 135 of them for NEC and 400 for R05D. -/
def Obligations.DriverOpsAlternate : Prop :=
  ∀ x : Word, alternates false (driverOps (frame .nec x)) ∧ alternates false (driverOps (frame .r05d x)) ∧
    (driverOps (frame .nec x)).length = 135 ∧ (driverOps (frame .r05d x)).length = 400 ∧
    (driverOps (frame .nec x)).getLast? = some .disable ∧
    (driverOps (frame .r05d x)).drop 398 = [.disable, .delay 5220#24]

/-- R391: the durations of the frames. -/
def Obligations.FrameDurations : Prop :=
  ∀ x : Word, (delays (driverOps (frame .nec x))).sum = 49900 + 1130 * ones x ∧
    (delays (driverOps (frame .r05d x))).sum = 184640

/-- R190: every R05D sub-frame has exactly 24 Bit1Space and 24 Bit0Space events. -/
def Obligations.R05dBalance : Prop :=
  ∀ a b c : Byte,
    (subFrameSymbols a b c).countP (fun x => decide (x = (.space, .bit1Space))) = 24 ∧
    (subFrameSymbols a b c).countP (fun x => decide (x = (.space, .bit0Space))) = 24

/-- R186: TX_START, its errors in order and its effect. -/
def Obligations.TxStartArmsFrame : Prop :=
  ∀ (p k : BitVec 4) (s : State), s.env.rst = false →
    CommandIs 0x10#8 .txStart s ∧
    (1 < p.toNat → exec (.txStart p k) s = .next (statusError .badProto 0x10#8 s)) ∧
    (p.toNat ≤ 1 → s.tx.st = .emitting → exec (.txStart p k) s = .next (statusError .busy 0x10#8 s)) ∧
    (∀ proto : Proto, proto.code = p → s.tx.st = .idle →
      exec (.txStart p k) s = .next (statusOk 0x10#8 { s with tx :=
        { st := .emitting, proto := proto, ops := driverOps (frame proto s.host.arg), opi := 0, events := 0#16,
          done := false } }))

/-- R185 and R187: a TX step pushes the op the sequencer offers to a driver that accepts; a DELAY counts one event; the
last op completes the frame. -/
def Obligations.TxStepPushesOp : Prop :=
  ∀ (s : State) (op : DriverOp), s.tx.Sound → s.tx.offered = some op → s.env.drvReady = true → s.env.rst = false →
    let pushed (w : BitVec 32) (events : BitVec 16) : State :=
      if s.tx.opi + 1 = s.tx.ops.length then
        { s with
          host := { s.host with irqstat := s.host.irqstat ||| 0x02#32 }
          tx := { s.tx with st := .idle, opi := s.tx.opi + 1, events := events, done := true }
          env := { s.env with drvOut := s.env.drvOut ++ [w] } }
      else
        { s with
          tx := { s.tx with opi := s.tx.opi + 1, events := events }
          env := { s.env with drvOut := s.env.drvOut ++ [w] } }
    (op = .disable → exec .drvDisable s = .next (pushed 0x00000000#32 s.tx.events)) ∧
    (op = .enable → exec .drvEnable s = .next (pushed 0x40000000#32 s.tx.events)) ∧
    (∀ n, op = .delay n →
      exec (.drvDelay n) s = .next (pushed (0x80000000#32 ||| n.setWidth 32) (s.tx.events + 1#16)))

/-- R184, R185 and R187 together: from the state TX_START leaves, as many TX steps as the frame has ops push all of
them in order and complete the frame, with EVENTS 67 (NEC) or 200 (R05D). That the TX steps come one after the other is
the model's script (log 2). -/
def Obligations.WholeFrameEmitted : Prop :=
  ∀ (s : State) (proto : Proto) (x : Word) (more : List Action),
    s.tx = TxUnit.start proto x → s.env.drvReady = true → s.env.rst = false →
    s.env.pending = List.replicate (driverOps (frame proto x)).length .tx ++ more →
      Host.Core.run core (driverOps (frame proto x)).length s = .next
        { s with
          host := { s.host with irqstat := s.host.irqstat ||| 0x02#32 }
          tx := { st := .idle, proto := proto, ops := driverOps (frame proto x),
                  opi := (driverOps (frame proto x)).length,
                  events := (match proto with | .nec => 67#16 | .r05d => 200#16), done := true }
          env := { s.env with
            drvOut := s.env.drvOut ++ (driverOps (frame proto x)).map DriverOp.word, pending := more } }

/-! ## Decoder -/

/-- R217 to R221: the transition table of the decoder, state by state; a stop mismatch is a warning, not a failure. -/
def Obligations.DecoderTransitions : Prop :=
  ∀ (p : Proto) (d : DecState) (dur : Word),
    let failed (code : FailCode) (index : Nat) : DecState := { d with st := .failed, fail := code, i := index, acc := 0#48 }
    let finished (warn : Bool) : DecState := { d with st := .done, warn := warn }
    let accept (b : Bool) : DecState :=
      { d with
        acc := (match p with
          | .nec => d.acc ||| (if b then 1#48 <<< d.i else 0#48)
          | .r05d => BitVec.ofNat 48 ((2 * d.acc.toNat + b.toNat) % 2 ^ 48))
        i := d.i + 1
        st := if d.i + 1 = nbits p then .awaitStop else .awaitBitMark }
    (d.st = .awaitHeaderMark →
      rxStep p d (.pulse .space dur) = d ∧
      rxStep p d (.pulse .mark dur) =
        (if matchesSym dur p .headerMark then { d with st := .awaitHeaderSpace } else failed .headerMismatch 0) ∧
      rxStep p d .timeout = d ∧ rxStep p d .endOfInput = failed .headerMismatch 0) ∧
    (d.st = .awaitHeaderSpace →
      rxStep p d (.pulse .space dur) =
        (if matchesSym dur p .headerSpace then { d with st := .awaitBitMark, i := 0, acc := 0#48 }
          else failed .headerMismatch 0) ∧
      rxStep p d (.pulse .mark dur) = failed .headerMismatch 0 ∧
      rxStep p d .timeout = failed .timeout 0 ∧ rxStep p d .endOfInput = failed .headerMismatch 0) ∧
    (d.st = .awaitBitMark →
      rxStep p d (.pulse .mark dur) =
        (if matchesSym dur p .bit0Mark ∨ matchesSym dur p .bit1Mark then { d with st := .awaitBitSpace }
          else failed .bitPulseMismatch d.i) ∧
      rxStep p d (.pulse .space dur) = failed .bitPulseMismatch d.i ∧
      rxStep p d .timeout = failed .timeout d.i ∧ rxStep p d .endOfInput = failed .bitPulseMismatch d.i) ∧
    (d.st = .awaitBitSpace →
      rxStep p d (.pulse .space dur) =
        (if matchesSym dur p .bit0Space then accept false
          else if matchesSym dur p .bit1Space then accept true else failed .bitSpaceMismatch d.i) ∧
      rxStep p d (.pulse .mark dur) = failed .bitSpaceMismatch d.i ∧
      rxStep p d .timeout = failed .timeout d.i ∧ rxStep p d .endOfInput = failed .bitSpaceMismatch d.i) ∧
    (d.st = .awaitStop →
      rxStep p d (.pulse .mark dur) = finished (!matchesSym dur p .stopMark) ∧
      rxStep p d (.pulse .space dur) = finished true ∧
      rxStep p d .timeout = finished true ∧ rxStep p d .endOfInput = finished true)

/-- R222: the result words of a decode, field by field. -/
def Obligations.ResultWordFields : Prop :=
  ∀ d : DecState,
    resultData0 .nec d = d.acc.setWidth 32 ∧
    resultData1 .nec d = (if d.warn then 0x00000000#32 else 0x10000000#32) ∧
    (∀ r0 r1 r2 r3 r4 r5 : Byte, d.acc = r0 ++ r1 ++ r2 ++ r3 ++ r4 ++ r5 →
      resultData0 .r05d d = 0#8 ++ r0 ++ r2 ++ r4 ∧
      (resultData1 .r05d d).extractLsb' 0 24 = r1 ++ r3 ++ r5 ∧
      ((resultData1 .r05d d).getLsbD 24 = true ↔ r0 = ~~~r1) ∧
      ((resultData1 .r05d d).getLsbD 25 = true ↔ r2 = ~~~r3) ∧
      ((resultData1 .r05d d).getLsbD 26 = true ↔ r4 = ~~~r5) ∧
      (resultData1 .r05d d).getLsbD 27 = false ∧
      (resultData1 .r05d d).getLsbD 28 = !d.warn ∧
      (resultData1 .r05d d).extractLsb' 29 3 = 0#3)

/-- R212: RX_START, its errors in order and its effect. -/
def Obligations.RxStartArms : Prop :=
  ∀ (p k : BitVec 4) (s : State), s.env.rst = false →
    CommandIs 0x20#8 .rxStart s ∧
    (1 < p.toNat → exec (.rxStart p k) s = .next (statusError .badProto 0x20#8 s)) ∧
    (p.toNat ≤ 1 →
      s.rx.dec.st ∈ [DecSt.awaitHeaderMark, .awaitHeaderSpace, .awaitBitMark, .awaitBitSpace, .awaitStop] →
      exec (.rxStart p k) s = .next (statusError .busy 0x20#8 s)) ∧
    (∀ proto : Proto, proto.code = p → s.rx.dec.st ∈ [DecSt.idle, .done, .failed] →
      exec (.rxStart p k) s = .next (statusOk 0x20#8 { s with rx :=
        { proto := proto, dec := { st := .awaitHeaderMark, i := 0, acc := 0#48, fail := .none, warn := false },
          data0 := 0#32, data1 := 0#32 } }))

/-- R213: RX_STOP from every state. -/
def Obligations.RxStopIdles : Prop :=
  ∀ (p k : BitVec 4) (s : State), s.env.rst = false →
    CommandIs 0x21#8 .rxStop s ∧
    exec (.rxStop p k) s = .next (statusOk 0x21#8 { s with rx :=
      { proto := s.rx.proto, dec := { st := .idle, i := 0, acc := 0#48, fail := .none, warn := false },
        data0 := 0#32, data1 := 0#32 } })

/-- R214: an RX step pops one CAP word into a running decoder, writes the result words on the move to Done, and on the
move to Done or Failed sets IRQSTAT.RX_TERM. -/
def Obligations.RxStepPopsCapWord : Prop :=
  ∀ (s : State) (pol : Polarity) (dur : Word) (rest : List (BitVec 34)), s.env.rst = false →
    let after (ev : DecEvent) : State :=
      { s with
        host := { s.host with irqstat :=
          if (rxStep s.rx.proto s.rx.dec ev).st = .done ∨ (rxStep s.rx.proto s.rx.dec ev).st = .failed
          then s.host.irqstat ||| 0x04#32 else s.host.irqstat }
        rx := { s.rx with
          dec := rxStep s.rx.proto s.rx.dec ev
          data0 := if (rxStep s.rx.proto s.rx.dec ev).st = .done
            then resultData0 s.rx.proto (rxStep s.rx.proto s.rx.dec ev) else s.rx.data0
          data1 := if (rxStep s.rx.proto s.rx.dec ev).st = .done
            then resultData1 s.rx.proto (rxStep s.rx.proto s.rx.dec ev) else s.rx.data1 }
        env := { s.env with capIn := rest } }
    (s.rx.dec.st.running = true →
      (s.env.capIn = capWord 0#1 pol dur :: rest → exec (.capPulse pol dur) s = .next (after (.pulse pol dur))) ∧
      (s.env.capIn = capWord 1#1 pol dur :: rest → exec (.capTimeout pol dur) s = .next (after .timeout)))

/-- R225: a terminal decoder is left only by RX_START, RX_STOP or reset. -/
def Obligations.TerminalDecoderHolds : Prop :=
  ∀ (a : Action) (s t : State), s.rx.dec.st = .done ∨ s.rx.dec.st = .failed → act exec a s = .next t →
    t.rx = s.rx ∨ a = .rst true ∨
      ∃ v, a = .hostWrite 4 0x00#8 v ∧ (opField v = 0x20#8 ∨ opField v = 0x21#8)

/-- R227 for NEC: the decoder fed a frame of the encoder pops its 67 words and ends in Done with the value. That the RX
steps come one after the other is the model's script (log 2). -/
def Obligations.NecRoundTrip : Prop :=
  ∀ (s : State) (v : Word) (rest : List (BitVec 34)) (more : List Action),
    s.rx.proto = .nec → s.rx.dec = .armed → s.env.rst = false →
    s.env.capIn = capWords (encodeNEC v) ++ rest → s.env.pending = List.replicate 67 .rx ++ more →
      ∃ t, Host.Core.run core 67 s = .next t ∧
        t.rx.dec.st = .done ∧ t.rx.dec.i = 32 ∧ t.rx.data0 = v ∧ t.rx.data1 = 0x10000000#32 ∧
        t.host = { s.host with irqstat := s.host.irqstat ||| 0x04#32 } ∧
        t.tx = s.tx ∧ t.gap = s.gap ∧ t.ta = s.ta ∧
        t.env = { s.env with capIn := rest, pending := more }

/-- R227 and R228 for R05D: the decoder fed a sub-frame, with or without the other sub-frame's StopSpace before it, ends
in Done with the three bytes and leaves the sub-frame's own StopSpace at the port. That the RX steps come one after the
other is the model's script (log 2). -/
def Obligations.R05dRoundTrip : Prop :=
  ∀ (s : State) (a b c : Byte) (before rest : List (BitVec 34)) (more : List Action),
    before = [] ∨ before = [capWord 0#1 .space 5220#32] →
    s.rx.proto = .r05d → s.rx.dec = .armed → s.env.rst = false →
    s.env.capIn = before ++ capWords (subFrame a b c) ++ rest →
    s.env.pending = List.replicate (before.length + 99) .rx ++ more →
      ∃ t, Host.Core.run core (before.length + 99) s = .next t ∧
        t.rx.dec.st = .done ∧ t.rx.dec.i = 48 ∧ t.rx.data0 = 0#8 ++ a ++ b ++ c ∧
        t.rx.data1 = 0x17#8 ++ ~~~a ++ ~~~b ++ ~~~c ∧
        t.host = { s.host with irqstat := s.host.irqstat ||| 0x04#32 } ∧
        t.tx = s.tx ∧ t.gap = s.gap ∧ t.ta = s.ta ∧
        t.env = { s.env with capIn := capWord 0#1 .space 5220#32 :: rest, pending := more }

/-! ## GAP framer -/

/-- R251: GAP_START, its errors in order and its effect. -/
def Obligations.GapStartEnables : Prop :=
  ∀ (p k : BitVec 4) (s : State), s.env.rst = false →
    CommandIs 0x30#8 .gapStart s ∧
    (1 < p.toNat → exec (.gapStart p k) s = .next (statusError .badProto 0x30#8 s)) ∧
    (p.toNat ≤ 1 → s.gap.en = true → exec (.gapStart p k) s = .next (statusError .busy 0x30#8 s)) ∧
    (∀ proto : Proto, proto.code = p → s.gap.en = false →
      exec (.gapStart p k) s = .next (statusOk 0x30#8 { s with gap :=
        { en := true, proto := proto, thr := s.host.gapcfg, q := [], haveLast := false, lastTs := 0#32,
          lastPol := .space, buf := [], bufOvf := false, result := none, edgeOvf := false,
          resultOverrun := false } }))

/-- R252 and R253: GAP_STOP and GAP_ACK, from every state. -/
def Obligations.GapStopAndAck : Prop :=
  ∀ (p k : BitVec 4) (s : State), s.env.rst = false →
    CommandIs 0x31#8 .gapStop s ∧ CommandIs 0x32#8 .gapAck s ∧
    exec (.gapStop p k) s = .next (statusOk 0x31#8 { s with gap :=
      { s.gap with en := false, q := [], haveLast := false, buf := [], bufOvf := false, result := none } }) ∧
    exec (.gapAck p k) s = .next (statusOk 0x32#8 { s with gap := { s.gap with result := none } })

/-- R255: the intake takes an offered edge in every state: drops it while disabled, drops and flags it when the queue is
full, else queues it. -/
def Obligations.EdgeIntakeTakesEdge : Prop :=
  ∀ (s : State) (pol : Polarity) (ts : Word) (rest : List (BitVec 33)),
    s.env.rst = false → s.env.edgeIn = edgeWord pol ts :: rest →
    (s.gap.en = false → exec (.edge pol ts) s = .next { s with env := { s.env with edgeIn := rest } }) ∧
    (s.gap.en = true → Config.edgeQDepth ≤ s.gap.q.length →
      exec (.edge pol ts) s = .next
        { s with
          host := { s.host with irqstat := s.host.irqstat ||| 0x10#32 }
          gap := { s.gap with edgeOvf := true }
          env := { s.env with edgeIn := rest } }) ∧
    (s.gap.en = true → s.gap.q.length < Config.edgeQDepth →
      exec (.edge pol ts) s = .next
        { s with
          gap := { s.gap with q := s.gap.q ++ [⟨pol, ts⟩] }
          env := { s.env with edgeIn := rest } })

/-- R256: the edge step opens a frame, buffers an interval, drops it when the buffer is full, or closes the frame at a
gap; the gap interval belongs to no frame (R257). -/
def Obligations.GapEdgeStep : Prop :=
  ∀ (s : State) (e : EdgeEvent) (rest : List EdgeEvent),
    s.env.rst = false → s.gap.en = true → s.gap.q = e :: rest →
    let dt : Word := e.ts - s.gap.lastTs
    (s.gap.haveLast = false → act exec .gapEdge s = .next { s with gap :=
      { s.gap with q := rest, haveLast := true, lastTs := e.ts, lastPol := e.pol } }) ∧
    (s.gap.haveLast = true → dt.toNat ≤ s.gap.thr.toNat → s.gap.buf.length < Config.frameBufDepth →
      act exec .gapEdge s = .next { s with gap :=
        { s.gap with q := rest, buf := s.gap.buf ++ [⟨s.gap.lastPol, dt⟩], lastTs := e.ts, lastPol := e.pol } }) ∧
    (s.gap.haveLast = true → dt.toNat ≤ s.gap.thr.toNat → Config.frameBufDepth ≤ s.gap.buf.length →
      act exec .gapEdge s = .next { s with gap :=
        { s.gap with q := rest, bufOvf := true, lastTs := e.ts, lastPol := e.pol } }) ∧
    (s.gap.haveLast = true → s.gap.thr.toNat < dt.toNat →
      act exec .gapEdge s = .next { closeFrame s with gap :=
        { (closeFrame s).gap with q := rest, lastTs := e.ts, lastPol := e.pol } })

/-- R258: the silence step closes the frame when the framer is enabled, its queue is empty, a frame is open and NOW is
more than the threshold past the last edge. -/
def Obligations.GapSilenceStep : Prop :=
  ∀ s : State, s.env.rst = false →
    s.gap.en = true → s.gap.q = [] → s.gap.haveLast = true → s.gap.thr.toNat < (s.env.now - s.gap.lastTs).toNat →
      act exec .gapSilence s = .next { closeFrame s with gap := { (closeFrame s).gap with haveLast := false } }

/-- R259 and R261: closing a frame with no interval gives no result; one with intervals latches its result, or is
dropped and flagged while a result is latched. -/
def Obligations.CloseFramePublishes : Prop :=
  ∀ s : State,
    (s.gap.buf = [] → closeFrame s = { s with gap := { s.gap with buf := [], bufOvf := false } }) ∧
    (s.gap.buf ≠ [] → s.gap.result ≠ none → closeFrame s =
      { s with
        host := { s.host with irqstat := s.host.irqstat ||| 0x10#32 }
        gap := { s.gap with buf := [], bufOvf := false, resultOverrun := true } }) ∧
    (s.gap.buf ≠ [] → s.gap.result = none →
      let d := decodeFrame s.gap.proto s.gap.buf
      closeFrame s =
        { s with
          host := { s.host with irqstat := s.host.irqstat ||| 0x08#32 }
          gap := { s.gap with
            buf := []
            bufOvf := false
            result := some
              { failed := decide (d.st = .failed), frameOvf := s.gap.bufOvf, fail := d.fail, index := d.i,
                stopWarn := d.warn,
                data0 := if d.st = .done then resultData0 s.gap.proto d else 0#32,
                data1 := if d.st = .done then resultData1 s.gap.proto d else 0#32 } } })

/-- R260: a frame decode always ends in Done or Failed, and intervals after the first terminal state are discarded. -/
def Obligations.DecodeFrameEnds : Prop :=
  (∀ (p : Proto) (b : List PulseEvent), (decodeFrame p b).st = .done ∨ (decodeFrame p b).st = .failed) ∧
  (∀ (p : Proto) (b c : List PulseEvent), (feedFrame p .armed b).st = .done ∨ (feedFrame p .armed b).st = .failed →
    decodeFrame p (b ++ c) = feedFrame p .armed b)

/-- R264: the edges of a NEC transmission leave its 67 intervals in the buffer, and the silence close latches the value.
-/
def Obligations.GapFramerDecodesNec : Prop :=
  ∀ (s : State) (v ts : Word),
    s.gap.proto = .nec → s.gap.haveLast = false → s.gap.buf = [] → s.gap.bufOvf = false → s.gap.result = none →
    9000 ≤ s.gap.thr.toNat →
      let edges := (edgesOf ts (encodeNEC v)).1 ++ [⟨.space, (edgesOf ts (encodeNEC v)).2⟩]
      edges.length = 68 ∧ (takeEdges edges s).gap.buf = encodeNEC v ∧
      (silenceClosed (takeEdges edges s)).gap.result = some
        { failed := false, frameOvf := false, fail := .none, index := 32, stopWarn := false, data0 := v,
          data1 := 0x10000000#32 } ∧
      (silenceClosed (takeEdges edges s)).host = { s.host with irqstat := s.host.irqstat ||| 0x08#32 } ∧
      (silenceClosed (takeEdges edges s)).gap.haveLast = false

/-- R265: the 200 edges of an R05D transmission leave 199 intervals in one buffer, and the silence close latches the
first sub-frame's bytes. -/
def Obligations.GapFramerDecodesR05d : Prop :=
  ∀ (s : State) (a b c : Byte) (ts : Word),
    s.gap.proto = .r05d → s.gap.haveLast = false → s.gap.buf = [] → s.gap.bufOvf = false → s.gap.result = none →
    5220 ≤ s.gap.thr.toNat →
      let edges := (edgesOf ts (encodeR05D a b c)).1
      edges.length = 200 ∧ (takeEdges edges s).gap.buf = (encodeR05D a b c).take 199 ∧
      (silenceClosed (takeEdges edges s)).gap.result = some
        { failed := false, frameOvf := false, fail := .none, index := 48, stopWarn := false,
          data0 := 0#8 ++ a ++ b ++ c, data1 := 0x17#8 ++ ~~~a ++ ~~~b ++ ~~~c } ∧
      (silenceClosed (takeEdges edges s)).host = { s.host with irqstat := s.host.irqstat ||| 0x08#32 }

/-! ## TA unit -/

/-- R300: TA_START, its errors in order and its effect. -/
def Obligations.TaStartCopiesConfiguration : Prop :=
  ∀ (p k : BitVec 4) (s : State), s.env.rst = false →
    CommandIs 0x40#8 .taStart s ∧
    (1 < (tproto s.host).toNat → exec (.taStart p k) s = .next (statusError .badProto 0x40#8 s)) ∧
    ((tproto s.host).toNat ≤ 1 → s.ta.busy = true →
      exec (.taStart p k) s = .next (statusError .busy 0x40#8 s)) ∧
    (∀ proto : Proto, proto.code = tproto s.host → s.ta.busy = false →
      exec (.taStart p k) s = .next (statusOk 0x40#8 { s with ta :=
        { busy := true, done := false, cMin := s.host.tacfg0.extractLsb' 0 16,
          cMax := s.host.tacfg0.extractLsb' 16 16, cSeek := s.host.tacfg1.extractLsb' 0 16,
          cScale := s.host.tacfg1.extractLsb' 16 16, cMark := s.host.tacfg2.getLsbD 0, cProto := proto,
          skip := s.host.tacfg1.extractLsb' 0 16, rawValid := false, rawPol := .space, rawCnt := 0#32,
          curValid := false, curPol := .space, curCnt := 0#32, preCnt := 0#32, out := [], anomalies := 0#16,
          runs := 0#32 } }))

/-- R294, with the token of R291 and the seek of R293: a trace byte is skipped during the seek, else its sample starts
the raw run, lengthens it, or finishes it and starts the next. -/
def Obligations.TraceByteStep : Prop :=
  ∀ (s : State) (data : Byte) (rest : List (BitVec 9)), s.env.rst = false →
    let popped (t : TaUnit) : State := { s with ta := t, env := { s.env with trcIn := rest } }
    let pol : Polarity := if data.getLsbD 0 = s.ta.cMark then .mark else .space
    (s.ta.busy = true → s.ta.out = [] → s.env.trcIn = trcWord 0#1 data :: rest →
      (0 < s.ta.skip.toNat →
        exec (.trcByte data) s = .next (popped { s.ta with skip := s.ta.skip - 1#16 })) ∧
      (s.ta.skip.toNat = 0 → s.ta.rawValid = false →
        exec (.trcByte data) s = .next (popped { s.ta with rawValid := true, rawPol := pol, rawCnt := 1#32 })) ∧
      (s.ta.skip.toNat = 0 → s.ta.rawValid = true → pol = s.ta.rawPol →
        exec (.trcByte data) s = .next (popped { s.ta with
          rawCnt := BitVec.ofNat 32 (min (s.ta.rawCnt.toNat + 1) (2 ^ 32 - 1)) })) ∧
      (s.ta.skip.toNat = 0 → s.ta.rawValid = true → pol ≠ s.ta.rawPol →
        exec (.trcByte data) s = .next (popped { s.ta.finishRaw s.ta.rawPol s.ta.rawCnt with
          rawPol := pol, rawCnt := 1#32 })))

/-- R295: where a finished raw run goes. -/
def Obligations.GlitchMerge : Prop :=
  ∀ (t : TaUnit) (rp : Polarity) (rc : Word),
    let sum (a b : Word) : Word := BitVec.ofNat 32 (min (a.toNat + b.toNat) (2 ^ 32 - 1))
    (t.curValid = false → rc.toNat < t.cMin.toNat →
      t.finishRaw rp rc = { t with preCnt := sum t.preCnt rc }) ∧
    (t.curValid = false → t.cMin.toNat ≤ rc.toNat →
      t.finishRaw rp rc = { t with curValid := true, curPol := rp, curCnt := sum rc t.preCnt, preCnt := 0#32 }) ∧
    (t.curValid = true → rc.toNat < t.cMin.toNat ∨ rp = t.curPol →
      t.finishRaw rp rc = { t with curCnt := sum t.curCnt rc }) ∧
    (t.curValid = true → t.cMin.toNat ≤ rc.toNat → rp ≠ t.curPol →
      t.finishRaw rp rc = { t with out := t.out ++ [recordOf t t.curPol t.curCnt], curPol := rp, curCnt := rc })

/-- R298: the end of a trace flushes the raw run, then the merged run, drops leading glitches and queues END. -/
def Obligations.TraceEndStep : Prop :=
  ∀ (s : State) (data : Byte) (rest : List (BitVec 9)),
    s.env.rst = false → s.ta.busy = true → s.ta.out = [] → s.env.trcIn = trcWord 1#1 data :: rest →
    let raw : TaUnit :=
      if s.ta.rawValid then { s.ta.finishRaw s.ta.rawPol s.ta.rawCnt with rawValid := false } else s.ta
    exec (.trcEnd data) s = .next { s with
      ta := { raw with
        out := raw.out ++ (if raw.curValid then [recordOf raw raw.curPol raw.curCnt] else []) ++ [.fin]
        curValid := false
        preCnt := 0#32 }
      env := { s.env with trcIn := rest } }

/-- R296 and R297: the record of a merged run of n samples, u µs long, joins the queue; it is ANOMALY exactly when the
distance to the nearest nominal exceeds MAX_DELTA. -/
def Obligations.RecordFormation : Prop :=
  ∀ (t : TaUnit) (pol : Polarity) (n : Word),
    let u := (n.toNat * t.cScale.toNat + 5000) / 10000
    t.formRecord pol n = { t with out := t.out ++ [recordOf t pol n] } ∧
    ∃ m, nearest u (symbols t.cProto) = some m ∧
      (recordOf t pol n).word =
        (if t.cMax.toNat < absDiff u m then 1#2 else 0#2) ++ pol.bit ++ BitVec.ofNat 29 (min u (2 ^ 29 - 1)) ++
          BitVec.ofNat 16 m ++ 0#16

/-- R308: with MAX_DELTA = 500, the durations that give a RECON record; all others give ANOMALY. -/
def Obligations.AnomalyRanges : Prop :=
  ∀ (t : TaUnit) (pol : Polarity) (n : Word), t.cMax = 500#16 →
    let u := (n.toNat * t.cScale.toNat + 5000) / 10000
    let ranges : List (Nat × Nat) :=
      match t.cProto with
      | .r05d => [(40, 1040), (1120, 2120), (3900, 5720)]
      | .nec => [(60, 1060), (1190, 2190), (4000, 5000), (8500, 9500)]
    ((∃ m k, recordOf t pol n = .recon pol m k) ↔ ∃ r ∈ ranges, r.1 ≤ u ∧ u ≤ r.2) ∧
    ((∃ m k, recordOf t pol n = .anomaly pol m k) ↔ ¬ ∃ r ∈ ranges, r.1 ≤ u ∧ u ≤ r.2)

/-- R299 and R306: a TA emit step pushes the oldest record to a sink that accepts, counts it, and with END completes the
analysis. -/
def Obligations.EmitStepPushesRecord : Prop :=
  ∀ (s : State) (r : Record) (rest : List Record),
    s.env.rst = false → s.env.recReady = true → s.ta.out = r :: rest →
    let runs : Word := BitVec.ofNat 32 (min (s.ta.runs.toNat + 1) (2 ^ 32 - 1))
    let sent (w : BitVec 64) : Env := { s.env with recOut := s.env.recOut ++ [w] }
    (∀ pol m n, r = .recon pol m n → exec (.recRecon pol m n) s = .next { s with
      ta := { s.ta with out := rest, runs := runs }
      env := sent (0#2 ++ pol.bit ++ m ++ n ++ 0#16) }) ∧
    (∀ pol m n, r = .anomaly pol m n → exec (.recAnomaly pol m n) s = .next { s with
      ta := { s.ta with
        out := rest, runs := runs, anomalies := BitVec.ofNat 16 (min (s.ta.anomalies.toNat + 1) 0xFFFF) }
      env := sent (1#2 ++ pol.bit ++ m ++ n ++ 0#16) }) ∧
    (r = .fin → exec .recEnd s = .next { s with
      host := { s.host with irqstat := s.host.irqstat ||| 0x20#32 }
      ta := { s.ta with out := rest, busy := false, done := true }
      env := sent 0x8000000000000000#64 })

/-- R309, for runs of any genuine length: a trace of the seek bytes, n Mark samples and m Space samples gives one record
for each run and END; at the reset configuration 105769 samples are RECON 4400, 4400. -/
def Obligations.TraceOfTwoRuns : Prop :=
  (∀ (r : HostRegs) (proto : Proto) (header marks spaces : List Byte),
    header.length = (seekBytes r).toNat →
    (∀ b ∈ marks, b.getLsbD 0 = markLevel r) → (∀ b ∈ spaces, b.getLsbD 0 ≠ markLevel r) →
    0 < marks.length → (minRun r).toNat ≤ marks.length → marks.length < 2 ^ 32 →
    0 < spaces.length → (minRun r).toNat ≤ spaces.length → spaces.length < 2 ^ 32 →
      ((header ++ marks ++ spaces).foldl (fun t b => t.byteIn b) (TaUnit.start proto r)).endOfTrace.out =
        [recordOf (TaUnit.start proto r) .mark (BitVec.ofNat 32 marks.length),
          recordOf (TaUnit.start proto r) .space (BitVec.ofNat 32 spaces.length), .fin]) ∧
  (∀ pol, recordOf (TaUnit.start .r05d HostRegs.reset) pol 105769#32 = .recon pol 4400#29 4400#16)

/-! ## Frames of the unit commands and the port words -/

/-- What the unit commands leave unchanged: every unit but their own, the boundary, the host registers but CSTAT and
IRQSTAT.CMD_ERR, and every byte of the window but those of CSTAT, IRQSTAT and the unit's own registers. -/
def Obligations.UnitCommandFrame : Prop :=
  ∀ (p k : BitVec 4) (s t : State),
    let hostKept : Prop :=
      (t.host.irqstat = s.host.irqstat ∨ t.host.irqstat = s.host.irqstat ||| 0x01#32) ∧
      t.host = { s.host with err := t.host.err, lastOp := t.host.lastOp, irqstat := t.host.irqstat }
    (exec (.txStart p k) s = .next t →
      hostKept ∧ t.rx = s.rx ∧ t.gap = s.gap ∧ t.ta = s.ta ∧ t.env = s.env ∧
      ∀ a : BitVec 8, a &&& 0xFC#8 ∉ [0x10#8, 0x14#8, 0x4C#8] → readByte a t = readByte a s) ∧
    (exec (.rxStart p k) s = .next t ∨ exec (.rxStop p k) s = .next t →
      hostKept ∧ t.tx = s.tx ∧ t.gap = s.gap ∧ t.ta = s.ta ∧ t.env = s.env ∧
      ∀ a : BitVec 8, a &&& 0xFC#8 ∉ [0x10#8, 0x18#8, 0x1C#8, 0x20#8, 0x4C#8] → readByte a t = readByte a s) ∧
    (exec (.gapStart p k) s = .next t ∨ exec (.gapStop p k) s = .next t ∨ exec (.gapAck p k) s = .next t →
      hostKept ∧ t.tx = s.tx ∧ t.rx = s.rx ∧ t.ta = s.ta ∧ t.env = s.env ∧
      ∀ a : BitVec 8, a &&& 0xFC#8 ∉ [0x10#8, 0x28#8, 0x2C#8, 0x30#8, 0x4C#8] → readByte a t = readByte a s) ∧
    (exec (.taStart p k) s = .next t →
      hostKept ∧ t.tx = s.tx ∧ t.rx = s.rx ∧ t.gap = s.gap ∧ t.env = s.env ∧
      ∀ a : BitVec 8, a &&& 0xFC#8 ∉ [0x10#8, 0x40#8, 0x44#8, 0x4C#8] → readByte a t = readByte a s)

/-- What the port words leave unchanged: every unit but the one that pushes or pops them, the host registers but
IRQSTAT, everything at the boundary but their own port, and every byte of the window but those of IRQSTAT and the unit's
own registers. -/
def Obligations.PortWordFrame : Prop :=
  ∀ (s t : State),
    let hostKept : Prop := t.host = { s.host with irqstat := t.host.irqstat }
    ((∃ op : DriverOp, exec op.instr s = .next t) →
      hostKept ∧ t.rx = s.rx ∧ t.gap = s.gap ∧ t.ta = s.ta ∧ t.env = { s.env with drvOut := t.env.drvOut } ∧
      ∀ a : BitVec 8, a &&& 0xFC#8 ∉ [0x14#8, 0x4C#8] → readByte a t = readByte a s) ∧
    ((∃ pol dur, exec (.capPulse pol dur) s = .next t ∨ exec (.capTimeout pol dur) s = .next t) →
      hostKept ∧ t.tx = s.tx ∧ t.gap = s.gap ∧ t.ta = s.ta ∧ t.env = { s.env with capIn := t.env.capIn } ∧
      ∀ a : BitVec 8, a &&& 0xFC#8 ∉ [0x18#8, 0x1C#8, 0x20#8, 0x4C#8] → readByte a t = readByte a s) ∧
    ((∃ pol ts, exec (.edge pol ts) s = .next t) →
      hostKept ∧ t.tx = s.tx ∧ t.rx = s.rx ∧ t.ta = s.ta ∧ t.env = { s.env with edgeIn := t.env.edgeIn } ∧
      t.gap = { s.gap with q := t.gap.q, edgeOvf := t.gap.edgeOvf } ∧
      ∀ a : BitVec 8, a &&& 0xFC#8 ∉ [0x28#8, 0x4C#8] → readByte a t = readByte a s) ∧
    ((∃ data, exec (.trcByte data) s = .next t ∨ exec (.trcEnd data) s = .next t) →
      t.host = s.host ∧ t.tx = s.tx ∧ t.rx = s.rx ∧ t.gap = s.gap ∧
      t.env = { s.env with trcIn := t.env.trcIn } ∧
      t.ta.busy = s.ta.busy ∧ t.ta.done = s.ta.done ∧ t.ta.runs = s.ta.runs ∧ t.ta.anomalies = s.ta.anomalies ∧
      ∀ a : BitVec 8, readByte a t = readByte a s) ∧
    ((∃ r : Record, exec r.instr s = .next t) →
      hostKept ∧ t.tx = s.tx ∧ t.rx = s.rx ∧ t.gap = s.gap ∧ t.env = { s.env with recOut := t.env.recOut } ∧
      ∀ a : BitVec 8, a &&& 0xFC#8 ∉ [0x40#8, 0x44#8, 0x4C#8] → readByte a t = readByte a s)

/-! ## Host accesses, interrupts, reset -/

/-- R71 and R22: a legal read answers the register at its offset, field by field, in every state (R24 to R44), and
changes no state of the block. The bounds of a sound state (Safety.lean) are used where R32, R33 and R36 say which words
a unit may hold. That the data is kept in `env.bus` is the model's choice (log 13). -/
def Obligations.MemReadReturnsRegister : Prop :=
  ∀ (s : State) (a : BitVec 8), a.toNat % 4 = 0 → s.env.rst = false → ∃ v : Word,
    act exec (.hostRead 4 a) s = .next { s with env := { s.env with bus := .data v } } ∧
    (a = 0x00#8 ∨ 0x50 ≤ a.toNat → v = 0#32) ∧
    (a = 0x04#8 → v = s.host.arg) ∧ (a = 0x08#8 → v = s.host.cres0) ∧ (a = 0x0C#8 → v = s.host.cres1) ∧
    (a = 0x10#8 → CstatReads v s.host) ∧ (a = 0x14#8 → TxstatReads v s.tx) ∧ (a = 0x18#8 → RxstatReads v s.rx) ∧
    (a = 0x1C#8 → v = s.rx.data0 ∧
      (s.rx.Sound → v = if s.rx.dec.st = .done then resultData0 s.rx.proto s.rx.dec else 0#32)) ∧
    (a = 0x20#8 → v = s.rx.data1 ∧
      (s.rx.Sound → v = if s.rx.dec.st = .done then resultData1 s.rx.proto s.rx.dec else 0#32)) ∧
    (a = 0x24#8 → v = s.host.gapcfg) ∧ (a = 0x28#8 → GapstatReads v s.gap) ∧
    (a = 0x2C#8 → (s.gap.result = none → v = 0#32) ∧
      ∀ r, s.gap.result = some r → v = r.data0 ∧ (s.gap.Sound → r.failed = true → v = 0#32)) ∧
    (a = 0x30#8 → (s.gap.result = none → v = 0#32) ∧
      ∀ r, s.gap.result = some r → v = r.data1 ∧ (s.gap.Sound → r.failed = true → v = 0#32)) ∧
    (a = 0x34#8 → v = s.host.tacfg0) ∧ (a = 0x38#8 → v = s.host.tacfg1) ∧ (a = 0x3C#8 → v = s.host.tacfg2) ∧
    (a = 0x40#8 → TastatReads v s.ta) ∧ (a = 0x44#8 → v = s.ta.runs) ∧ (a = 0x48#8 → v = s.host.irqen) ∧
    (a = 0x4C#8 → v = s.host.irqstat)

/-- R72: a legal write runs a command at CMD; elsewhere the writable registers take the value, reserved bits stay 0,
IRQSTAT is write 1 to clear, every other register reads as before, and no unit changes. That the bus's answer is kept in
`env.bus` is the model's choice (log 13). -/
def Obligations.MemWriteStoresRegister : Prop :=
  ∀ (s : State) (a : BitVec 8) (v : Word), a.toNat % 4 = 0 → s.env.rst = false →
    (a = 0x00#8 → act exec (.hostWrite 4 a v) s =
      executeCommand exec v { s with env := { s.env with bus := .accepted } }) ∧
    (a ≠ 0x00#8 → ∃ t, act exec (.hostWrite 4 a v) s = .next t ∧
      t.tx = s.tx ∧ t.rx = s.rx ∧ t.gap = s.gap ∧ t.ta = s.ta ∧ t.env = { s.env with bus := .accepted } ∧
      (a ∈ [0x04#8, 0x24#8, 0x34#8, 0x38#8] → readReg a t = v) ∧
      (a = 0x3C#8 → readReg a t = v &&& 0x000000F1#32) ∧
      (a = 0x48#8 → readReg a t = v &&& 0x0000003F#32) ∧
      (a = 0x4C#8 → readReg a t = readReg a s &&& ~~~(v &&& 0x0000003F#32)) ∧
      (∀ b : BitVec 8, b ≠ a ∨ a ∉ [0x04#8, 0x24#8, 0x34#8, 0x38#8, 0x3C#8, 0x48#8, 0x4C#8] →
        readReg b t = readReg b s))

/-- R342: `irq` is the OR over the six sources of IRQSTAT and IRQEN. -/
def Obligations.IrqLineLevel : Prop :=
  ∀ s : State, irqLine s = true ↔ ∃ i, i < 6 ∧ s.host.irqstat.getLsbD i = true ∧ s.host.irqen.getLsbD i = true

/-- R340, R341, R349: a step sets at most one IRQSTAT bit, the one of its event; and a bit is cleared only by a host
write of 1 to it or by reset. -/
def Obligations.IrqBitsOverSteps : Prop :=
  ∀ (a : Action) (s t : State), act exec a s = .next t →
    (t.host.irqstat = s.host.irqstat) ∨
    (t.host.irqstat = s.host.irqstat ||| 0x01#32 ∧ ∃ v, a = .hostWrite 4 0x00#8 v) ∨
    (t.host.irqstat = s.host.irqstat ||| 0x02#32 ∧ a = .tx) ∨
    (t.host.irqstat = s.host.irqstat ||| 0x04#32 ∧ a = .rx) ∨
    (t.host.irqstat = s.host.irqstat ||| 0x08#32 ∧ (a = .gapEdge ∨ a = .gapSilence)) ∨
    (t.host.irqstat = s.host.irqstat ||| 0x10#32 ∧ (a = .edgeIntake ∨ a = .gapEdge ∨ a = .gapSilence)) ∨
    (t.host.irqstat = s.host.irqstat ||| 0x20#32 ∧ a = .taEmit) ∨
    (∃ v : Word, t.host.irqstat = s.host.irqstat &&& ~~~(v &&& 0x0000003F#32) ∧ a = .hostWrite 4 0x4C#8 v) ∨
    (t.host.irqstat = 0#32 ∧ a = .rst true)

/-- R95, R305 and R349: no unit's step changes another unit, or a host register but IRQSTAT. -/
def Obligations.UnitsShareNoState : Prop :=
  ∀ (a : Action) (s t : State), act exec a s = .next t →
    (a = .tx → t.rx = s.rx ∧ t.gap = s.gap ∧ t.ta = s.ta) ∧
    (a = .rx → t.tx = s.tx ∧ t.gap = s.gap ∧ t.ta = s.ta) ∧
    (a = .edgeIntake ∨ a = .gapEdge ∨ a = .gapSilence → t.tx = s.tx ∧ t.rx = s.rx ∧ t.ta = s.ta) ∧
    (a = .taToken ∨ a = .taEmit → t.tx = s.tx ∧ t.rx = s.rx ∧ t.gap = s.gap) ∧
    (a ∈ [Action.tx, .rx, .edgeIntake, .gapEdge, .gapSilence, .taToken, .taEmit] →
      t.host = { s.host with irqstat := t.host.irqstat })

/-- The environment's steps. A source's offer joins the words at its port, a consumer's readiness takes its level, NOW
advances modulo 2^32, and none of them touches the block (R80, R82 to R86, R348; their form is the model's, log 8). `rst`
at 0 changes nothing else (log 12); `rst` at 1 sets every piece of block state to its reset value, whatever it was, pops
and pushes no word (R370, R371). Last, what the registers read right after reset, and that the line `irq` is 0. -/
def Obligations.EnvironmentSteps : Prop :=
  readReg 0x24#8 .reset = 0x00002710#32 ∧ readReg 0x34#8 .reset = 0x01F40064#32 ∧
  readReg 0x38#8 .reset = 0x01A000E8#32 ∧ readReg 0x3C#8 .reset = 0x00000011#32 ∧
  (∀ a : BitVec 8, a ∉ [0x24#8, 0x34#8, 0x38#8, 0x3C#8] → readReg a .reset = 0#32) ∧ irqLine .reset = false ∧
  ∀ s : State,
    (∀ w, act exec (.capOffer w) s = .next { s with env := { s.env with capIn := s.env.capIn ++ [w] } }) ∧
    (∀ w, act exec (.edgeOffer w) s = .next { s with env := { s.env with edgeIn := s.env.edgeIn ++ [w] } }) ∧
    (∀ w, act exec (.trcOffer w) s = .next { s with env := { s.env with trcIn := s.env.trcIn ++ [w] } }) ∧
    (∀ b, act exec (.drvReady b) s = .next { s with env := { s.env with drvReady := b } }) ∧
    (∀ b, act exec (.recReady b) s = .next { s with env := { s.env with recReady := b } }) ∧
    (∀ us : Word, act exec (.tick us) s =
      .next { s with env := { s.env with now := BitVec.ofNat 32 ((s.env.now.toNat + us.toNat) % 2 ^ 32) } }) ∧
    act exec (.rst false) s = .next { s with env := { s.env with rst := false } } ∧
    ∃ t, act exec (.rst true) s = .next t ∧ t.host = State.reset.host ∧ t.tx = State.reset.tx ∧
      t.rx = State.reset.rx ∧ t.gap = State.reset.gap ∧ t.ta = State.reset.ta ∧ t.env = { s.env with rst := true }

/-- A unit whose step is not enabled, whose port holds it, or which `rst` holds, changes nothing (R80, R185, R214, R255,
R256, R258, R291, R299, R370). That it is the same state again, not the absence of a step, is the model's choice
(log 3). -/
def Obligations.HeldUnitsStay : Prop :=
  ∀ s : State,
    (s.tx.st = .idle ∨ s.env.drvReady = false ∨ s.env.rst = true → act exec .tx s = .next s) ∧
    (s.rx.dec.st.running = false ∨ s.env.capIn = [] ∨ s.env.rst = true → act exec .rx s = .next s) ∧
    (s.env.edgeIn = [] ∨ s.env.rst = true → act exec .edgeIntake s = .next s) ∧
    (s.gap.en = false ∨ s.gap.q = [] ∨ s.env.rst = true → act exec .gapEdge s = .next s) ∧
    (s.gap.en = false ∨ s.gap.q ≠ [] ∨ s.gap.haveLast = false ∨
        (s.env.now - s.gap.lastTs).toNat ≤ s.gap.thr.toNat ∨ s.env.rst = true →
      act exec .gapSilence s = .next s) ∧
    (s.ta.busy = false ∨ s.ta.out ≠ [] ∨ s.env.trcIn = [] ∨ s.env.rst = true → act exec .taToken s = .next s) ∧
    (s.ta.out = [] ∨ s.env.recReady = false ∨ s.env.rst = true → act exec .taEmit s = .next s)

/-! ## Invariant -/

/-- The bounds and relations of spec/10_state.md hold right after reset. -/
def Obligations.ResetIsSound : Prop := State.reset.Sound

/-- Every step keeps the bounds and relations of spec/10_state.md (R22, R28 to R49). -/
def Obligations.StepKeepsSound : Prop := ∀ s t : State, s.Sound → step s = .next t → t.Sound
end

