-- ==== Sys2Proof/Laws/State.lean ====
section
/-! SUPPORT. One lemma per field per update of the state, true by rfl, so that no proof unfolds a record update. -/

namespace Sys2Proof.Machine

/-! ## State updates that touch only the host registers -/

@[simp] theorem raiseIrq_host (src : IrqSource) (s : State) : (raiseIrq src s).host = s.host.raiseIrq src := rfl
@[simp] theorem raiseIrq_tx (src : IrqSource) (s : State) : (raiseIrq src s).tx = s.tx := rfl
@[simp] theorem raiseIrq_rx (src : IrqSource) (s : State) : (raiseIrq src s).rx = s.rx := rfl
@[simp] theorem raiseIrq_gap (src : IrqSource) (s : State) : (raiseIrq src s).gap = s.gap := rfl
@[simp] theorem raiseIrq_ta (src : IrqSource) (s : State) : (raiseIrq src s).ta = s.ta := rfl
@[simp] theorem raiseIrq_env (src : IrqSource) (s : State) : (raiseIrq src s).env = s.env := rfl
@[simp] theorem setResult_host (r0 r1 : Word) (s : State) :
    (setResult r0 r1 s).host = { s.host with cres0 := r0, cres1 := r1 } := rfl
@[simp] theorem setResult_tx (r0 r1 : Word) (s : State) : (setResult r0 r1 s).tx = s.tx := rfl
@[simp] theorem setResult_rx (r0 r1 : Word) (s : State) : (setResult r0 r1 s).rx = s.rx := rfl
@[simp] theorem setResult_gap (r0 r1 : Word) (s : State) : (setResult r0 r1 s).gap = s.gap := rfl
@[simp] theorem setResult_ta (r0 r1 : Word) (s : State) : (setResult r0 r1 s).ta = s.ta := rfl
@[simp] theorem setResult_env (r0 r1 : Word) (s : State) : (setResult r0 r1 s).env = s.env := rfl
@[simp] theorem completeCommand_host (op : BitVec 8) (s : State) :
    (completeCommand op s).host = { s.host with err := .ok, lastOp := op } := rfl
@[simp] theorem completeCommand_tx (op : BitVec 8) (s : State) : (completeCommand op s).tx = s.tx := rfl
@[simp] theorem completeCommand_rx (op : BitVec 8) (s : State) : (completeCommand op s).rx = s.rx := rfl
@[simp] theorem completeCommand_gap (op : BitVec 8) (s : State) : (completeCommand op s).gap = s.gap := rfl
@[simp] theorem completeCommand_ta (op : BitVec 8) (s : State) : (completeCommand op s).ta = s.ta := rfl
@[simp] theorem completeCommand_env (op : BitVec 8) (s : State) : (completeCommand op s).env = s.env := rfl
@[simp] theorem raiseCmdError_host (code : CmdStatus) (op : BitVec 8) (s : State) :
    (raiseCmdError code op s).host = { s.host with err := code, lastOp := op, irqstat := s.host.irqstat ||| 0x01#32 } := rfl
@[simp] theorem raiseCmdError_tx (code : CmdStatus) (op : BitVec 8) (s : State) :
    (raiseCmdError code op s).tx = s.tx := rfl
@[simp] theorem raiseCmdError_rx (code : CmdStatus) (op : BitVec 8) (s : State) :
    (raiseCmdError code op s).rx = s.rx := rfl
@[simp] theorem raiseCmdError_gap (code : CmdStatus) (op : BitVec 8) (s : State) :
    (raiseCmdError code op s).gap = s.gap := rfl
@[simp] theorem raiseCmdError_ta (code : CmdStatus) (op : BitVec 8) (s : State) :
    (raiseCmdError code op s).ta = s.ta := rfl
@[simp] theorem raiseCmdError_env (code : CmdStatus) (op : BitVec 8) (s : State) :
    (raiseCmdError code op s).env = s.env := rfl
@[simp] theorem writeReg_host (a : BitVec 8) (v : Word) (s : State) : (writeReg a v s).host = s.host.write a v := rfl
@[simp] theorem writeReg_tx (a : BitVec 8) (v : Word) (s : State) : (writeReg a v s).tx = s.tx := rfl
@[simp] theorem writeReg_rx (a : BitVec 8) (v : Word) (s : State) : (writeReg a v s).rx = s.rx := rfl
@[simp] theorem writeReg_gap (a : BitVec 8) (v : Word) (s : State) : (writeReg a v s).gap = s.gap := rfl
@[simp] theorem writeReg_ta (a : BitVec 8) (v : Word) (s : State) : (writeReg a v s).ta = s.ta := rfl
@[simp] theorem writeReg_env (a : BitVec 8) (v : Word) (s : State) : (writeReg a v s).env = s.env := rfl

/-! ## The bus's response -/

@[simp] theorem respond_host (b : BusResponse) (s : State) : (respond b s).host = s.host := rfl
@[simp] theorem respond_tx (b : BusResponse) (s : State) : (respond b s).tx = s.tx := rfl
@[simp] theorem respond_rx (b : BusResponse) (s : State) : (respond b s).rx = s.rx := rfl
@[simp] theorem respond_gap (b : BusResponse) (s : State) : (respond b s).gap = s.gap := rfl
@[simp] theorem respond_ta (b : BusResponse) (s : State) : (respond b s).ta = s.ta := rfl
@[simp] theorem respond_env_bus (b : BusResponse) (s : State) : (respond b s).env.bus = b := rfl
@[simp] theorem respond_env_rst (b : BusResponse) (s : State) : (respond b s).env.rst = s.env.rst := rfl
@[simp] theorem respond_env_now (b : BusResponse) (s : State) : (respond b s).env.now = s.env.now := rfl
@[simp] theorem respond_env_capIn (b : BusResponse) (s : State) : (respond b s).env.capIn = s.env.capIn := rfl
@[simp] theorem respond_env_edgeIn (b : BusResponse) (s : State) : (respond b s).env.edgeIn = s.env.edgeIn := rfl
@[simp] theorem respond_env_trcIn (b : BusResponse) (s : State) : (respond b s).env.trcIn = s.env.trcIn := rfl
@[simp] theorem respond_env_drvReady (b : BusResponse) (s : State) : (respond b s).env.drvReady = s.env.drvReady := rfl
@[simp] theorem respond_env_recReady (b : BusResponse) (s : State) : (respond b s).env.recReady = s.env.recReady := rfl
@[simp] theorem respond_env_drvOut (b : BusResponse) (s : State) : (respond b s).env.drvOut = s.env.drvOut := rfl
@[simp] theorem respond_env_recOut (b : BusResponse) (s : State) : (respond b s).env.recOut = s.env.recOut := rfl
@[simp] theorem respond_env_pending (b : BusResponse) (s : State) : (respond b s).env.pending = s.env.pending := rfl
@[simp] theorem respond_env_picks (b : BusResponse) (s : State) : (respond b s).env.picks = s.env.picks := rfl
@[simp] theorem respond_respond (b c : BusResponse) (s : State) : respond b (respond c s) = respond b s := rfl
@[simp] theorem respond_self (s : State) : respond s.env.bus s = s := rfl

/-! ## One bit of IRQSTAT -/

@[simp] theorem HostRegs.raiseIrq_arg (src : IrqSource) (r : HostRegs) : (r.raiseIrq src).arg = r.arg := rfl
@[simp] theorem HostRegs.raiseIrq_cres0 (src : IrqSource) (r : HostRegs) : (r.raiseIrq src).cres0 = r.cres0 := rfl
@[simp] theorem HostRegs.raiseIrq_cres1 (src : IrqSource) (r : HostRegs) : (r.raiseIrq src).cres1 = r.cres1 := rfl
@[simp] theorem HostRegs.raiseIrq_err (src : IrqSource) (r : HostRegs) : (r.raiseIrq src).err = r.err := rfl
@[simp] theorem HostRegs.raiseIrq_lastOp (src : IrqSource) (r : HostRegs) : (r.raiseIrq src).lastOp = r.lastOp := rfl
@[simp] theorem HostRegs.raiseIrq_gapcfg (src : IrqSource) (r : HostRegs) : (r.raiseIrq src).gapcfg = r.gapcfg := rfl
@[simp] theorem HostRegs.raiseIrq_tacfg0 (src : IrqSource) (r : HostRegs) : (r.raiseIrq src).tacfg0 = r.tacfg0 := rfl
@[simp] theorem HostRegs.raiseIrq_tacfg1 (src : IrqSource) (r : HostRegs) : (r.raiseIrq src).tacfg1 = r.tacfg1 := rfl
@[simp] theorem HostRegs.raiseIrq_tacfg2 (src : IrqSource) (r : HostRegs) : (r.raiseIrq src).tacfg2 = r.tacfg2 := rfl
@[simp] theorem HostRegs.raiseIrq_irqen (src : IrqSource) (r : HostRegs) : (r.raiseIrq src).irqen = r.irqen := rfl
@[simp] theorem HostRegs.raiseIrq_irqstat (src : IrqSource) (r : HostRegs) :
    (r.raiseIrq src).irqstat = r.irqstat ||| src.mask := rfl

/-! ## Reset -/

@[simp] theorem resetBlock_host (s : State) : (resetBlock s).host = .reset := rfl
@[simp] theorem resetBlock_tx (s : State) : (resetBlock s).tx = .reset := rfl
@[simp] theorem resetBlock_rx (s : State) : (resetBlock s).rx = .reset := rfl
@[simp] theorem resetBlock_gap (s : State) : (resetBlock s).gap = .reset := rfl
@[simp] theorem resetBlock_ta (s : State) : (resetBlock s).ta = .reset := rfl
@[simp] theorem resetBlock_env (s : State) : (resetBlock s).env = s.env := rfl

/-! ## The script -/

@[simp] theorem dropPending_host (s : State) : (dropPending s).host = s.host := rfl
@[simp] theorem dropPending_tx (s : State) : (dropPending s).tx = s.tx := rfl
@[simp] theorem dropPending_rx (s : State) : (dropPending s).rx = s.rx := rfl
@[simp] theorem dropPending_gap (s : State) : (dropPending s).gap = s.gap := rfl
@[simp] theorem dropPending_ta (s : State) : (dropPending s).ta = s.ta := rfl
@[simp] theorem dropPending_env_rst (s : State) : (dropPending s).env.rst = s.env.rst := rfl
@[simp] theorem dropPending_env_now (s : State) : (dropPending s).env.now = s.env.now := rfl
@[simp] theorem dropPending_env_capIn (s : State) : (dropPending s).env.capIn = s.env.capIn := rfl
@[simp] theorem dropPending_env_edgeIn (s : State) : (dropPending s).env.edgeIn = s.env.edgeIn := rfl
@[simp] theorem dropPending_env_trcIn (s : State) : (dropPending s).env.trcIn = s.env.trcIn := rfl
@[simp] theorem dropPending_env_drvReady (s : State) : (dropPending s).env.drvReady = s.env.drvReady := rfl
@[simp] theorem dropPending_env_recReady (s : State) : (dropPending s).env.recReady = s.env.recReady := rfl
@[simp] theorem dropPending_env_drvOut (s : State) : (dropPending s).env.drvOut = s.env.drvOut := rfl
@[simp] theorem dropPending_env_recOut (s : State) : (dropPending s).env.recOut = s.env.recOut := rfl
@[simp] theorem dropPending_env_bus (s : State) : (dropPending s).env.bus = s.env.bus := rfl
@[simp] theorem dropPending_env_pending (s : State) : (dropPending s).env.pending = s.env.pending.tail := rfl
@[simp] theorem dropPending_env_picks (s : State) : (dropPending s).env.picks = s.env.picks := rfl
@[simp] theorem countPick_host (s : State) : (countPick s).host = s.host := rfl
@[simp] theorem countPick_tx (s : State) : (countPick s).tx = s.tx := rfl
@[simp] theorem countPick_rx (s : State) : (countPick s).rx = s.rx := rfl
@[simp] theorem countPick_gap (s : State) : (countPick s).gap = s.gap := rfl
@[simp] theorem countPick_ta (s : State) : (countPick s).ta = s.ta := rfl
@[simp] theorem countPick_env_rst (s : State) : (countPick s).env.rst = s.env.rst := rfl
@[simp] theorem countPick_env_now (s : State) : (countPick s).env.now = s.env.now := rfl
@[simp] theorem countPick_env_capIn (s : State) : (countPick s).env.capIn = s.env.capIn := rfl
@[simp] theorem countPick_env_edgeIn (s : State) : (countPick s).env.edgeIn = s.env.edgeIn := rfl
@[simp] theorem countPick_env_trcIn (s : State) : (countPick s).env.trcIn = s.env.trcIn := rfl
@[simp] theorem countPick_env_drvReady (s : State) : (countPick s).env.drvReady = s.env.drvReady := rfl
@[simp] theorem countPick_env_recReady (s : State) : (countPick s).env.recReady = s.env.recReady := rfl
@[simp] theorem countPick_env_drvOut (s : State) : (countPick s).env.drvOut = s.env.drvOut := rfl
@[simp] theorem countPick_env_recOut (s : State) : (countPick s).env.recOut = s.env.recOut := rfl
@[simp] theorem countPick_env_bus (s : State) : (countPick s).env.bus = s.env.bus := rfl
@[simp] theorem countPick_env_pending (s : State) : (countPick s).env.pending = s.env.pending := rfl
@[simp] theorem countPick_env_picks (s : State) : (countPick s).env.picks = s.env.picks + 1 := rfl

/-! ## The environment -/

@[simp] theorem offerCap_host (w : BitVec 34) (s : State) : (offerCap w s).host = s.host := rfl
@[simp] theorem offerCap_tx (w : BitVec 34) (s : State) : (offerCap w s).tx = s.tx := rfl
@[simp] theorem offerCap_rx (w : BitVec 34) (s : State) : (offerCap w s).rx = s.rx := rfl
@[simp] theorem offerCap_gap (w : BitVec 34) (s : State) : (offerCap w s).gap = s.gap := rfl
@[simp] theorem offerCap_ta (w : BitVec 34) (s : State) : (offerCap w s).ta = s.ta := rfl
@[simp] theorem offerCap_env_capIn (w : BitVec 34) (s : State) : (offerCap w s).env.capIn = s.env.capIn ++ [w] := rfl
@[simp] theorem offerEdge_host (w : BitVec 33) (s : State) : (offerEdge w s).host = s.host := rfl
@[simp] theorem offerEdge_tx (w : BitVec 33) (s : State) : (offerEdge w s).tx = s.tx := rfl
@[simp] theorem offerEdge_rx (w : BitVec 33) (s : State) : (offerEdge w s).rx = s.rx := rfl
@[simp] theorem offerEdge_gap (w : BitVec 33) (s : State) : (offerEdge w s).gap = s.gap := rfl
@[simp] theorem offerEdge_ta (w : BitVec 33) (s : State) : (offerEdge w s).ta = s.ta := rfl
@[simp] theorem offerEdge_env_edgeIn (w : BitVec 33) (s : State) :
    (offerEdge w s).env.edgeIn = s.env.edgeIn ++ [w] := rfl
@[simp] theorem offerTrc_host (w : BitVec 9) (s : State) : (offerTrc w s).host = s.host := rfl
@[simp] theorem offerTrc_tx (w : BitVec 9) (s : State) : (offerTrc w s).tx = s.tx := rfl
@[simp] theorem offerTrc_rx (w : BitVec 9) (s : State) : (offerTrc w s).rx = s.rx := rfl
@[simp] theorem offerTrc_gap (w : BitVec 9) (s : State) : (offerTrc w s).gap = s.gap := rfl
@[simp] theorem offerTrc_ta (w : BitVec 9) (s : State) : (offerTrc w s).ta = s.ta := rfl
@[simp] theorem offerTrc_env_trcIn (w : BitVec 9) (s : State) : (offerTrc w s).env.trcIn = s.env.trcIn ++ [w] := rfl
@[simp] theorem setDrvReady_host (b : Bool) (s : State) : (setDrvReady b s).host = s.host := rfl
@[simp] theorem setDrvReady_tx (b : Bool) (s : State) : (setDrvReady b s).tx = s.tx := rfl
@[simp] theorem setDrvReady_rx (b : Bool) (s : State) : (setDrvReady b s).rx = s.rx := rfl
@[simp] theorem setDrvReady_gap (b : Bool) (s : State) : (setDrvReady b s).gap = s.gap := rfl
@[simp] theorem setDrvReady_ta (b : Bool) (s : State) : (setDrvReady b s).ta = s.ta := rfl
@[simp] theorem setDrvReady_env_drvReady (b : Bool) (s : State) : (setDrvReady b s).env.drvReady = b := rfl
@[simp] theorem setRecReady_host (b : Bool) (s : State) : (setRecReady b s).host = s.host := rfl
@[simp] theorem setRecReady_tx (b : Bool) (s : State) : (setRecReady b s).tx = s.tx := rfl
@[simp] theorem setRecReady_rx (b : Bool) (s : State) : (setRecReady b s).rx = s.rx := rfl
@[simp] theorem setRecReady_gap (b : Bool) (s : State) : (setRecReady b s).gap = s.gap := rfl
@[simp] theorem setRecReady_ta (b : Bool) (s : State) : (setRecReady b s).ta = s.ta := rfl
@[simp] theorem setRecReady_env_recReady (b : Bool) (s : State) : (setRecReady b s).env.recReady = b := rfl
@[simp] theorem tickTime_host (us : Word) (s : State) : (tickTime us s).host = s.host := rfl
@[simp] theorem tickTime_tx (us : Word) (s : State) : (tickTime us s).tx = s.tx := rfl
@[simp] theorem tickTime_rx (us : Word) (s : State) : (tickTime us s).rx = s.rx := rfl
@[simp] theorem tickTime_gap (us : Word) (s : State) : (tickTime us s).gap = s.gap := rfl
@[simp] theorem tickTime_ta (us : Word) (s : State) : (tickTime us s).ta = s.ta := rfl
@[simp] theorem tickTime_env_now (us : Word) (s : State) : (tickTime us s).env.now = s.env.now + us := rfl

/-! ## The units -/

@[simp] theorem TxUnit.advance_st (op : DriverOp) (t : TxUnit) : (t.advance op).st = t.st := rfl
@[simp] theorem TxUnit.advance_proto (op : DriverOp) (t : TxUnit) : (t.advance op).proto = t.proto := rfl
@[simp] theorem TxUnit.advance_ops (op : DriverOp) (t : TxUnit) : (t.advance op).ops = t.ops := rfl
@[simp] theorem TxUnit.advance_opi (op : DriverOp) (t : TxUnit) : (t.advance op).opi = t.opi + 1 := rfl
@[simp] theorem TxUnit.advance_events (op : DriverOp) (t : TxUnit) :
    (t.advance op).events = if op.isDelay then satInc16 t.events else t.events := rfl
@[simp] theorem TxUnit.advance_done (op : DriverOp) (t : TxUnit) : (t.advance op).done = t.done := rfl
@[simp] theorem txComplete_host (s : State) : (txComplete s).host = s.host.raiseIrq .txDone := rfl
@[simp] theorem txComplete_tx (s : State) : (txComplete s).tx = { s.tx with st := .idle, done := true } := rfl
@[simp] theorem txComplete_rx (s : State) : (txComplete s).rx = s.rx := rfl
@[simp] theorem txComplete_gap (s : State) : (txComplete s).gap = s.gap := rfl
@[simp] theorem txComplete_ta (s : State) : (txComplete s).ta = s.ta := rfl
@[simp] theorem txComplete_env (s : State) : (txComplete s).env = s.env := rfl
@[simp] theorem taComplete_host (s : State) : (taComplete s).host = s.host.raiseIrq .taDone := rfl
@[simp] theorem taComplete_tx (s : State) : (taComplete s).tx = s.tx := rfl
@[simp] theorem taComplete_rx (s : State) : (taComplete s).rx = s.rx := rfl
@[simp] theorem taComplete_gap (s : State) : (taComplete s).gap = s.gap := rfl
@[simp] theorem taComplete_ta (s : State) : (taComplete s).ta = { s.ta with busy := false, done := true } := rfl
@[simp] theorem taComplete_env (s : State) : (taComplete s).env = s.env := rfl
@[simp] theorem popEdge_host (s : State) : (popEdge s).host = s.host := rfl
@[simp] theorem popEdge_tx (s : State) : (popEdge s).tx = s.tx := rfl
@[simp] theorem popEdge_rx (s : State) : (popEdge s).rx = s.rx := rfl
@[simp] theorem popEdge_gap (s : State) : (popEdge s).gap = s.gap := rfl
@[simp] theorem popEdge_ta (s : State) : (popEdge s).ta = s.ta := rfl
@[simp] theorem popEdge_env (s : State) : (popEdge s).env = { s.env with edgeIn := s.env.edgeIn.tail } := rfl
@[simp] theorem DecState.failWith_st (code : FailCode) (index : Nat) (d : DecState) :
    (d.failWith code index).st = .failed := rfl
@[simp] theorem DecState.failWith_i (code : FailCode) (index : Nat) (d : DecState) :
    (d.failWith code index).i = index := rfl
@[simp] theorem DecState.failWith_acc (code : FailCode) (index : Nat) (d : DecState) :
    (d.failWith code index).acc = 0#48 := rfl
@[simp] theorem DecState.failWith_fail (code : FailCode) (index : Nat) (d : DecState) :
    (d.failWith code index).fail = code := rfl
@[simp] theorem DecState.failWith_warn (code : FailCode) (index : Nat) (d : DecState) :
    (d.failWith code index).warn = d.warn := rfl
@[simp] theorem TaUnit.formRecord_busy (pol : Polarity) (n : Word) (t : TaUnit) :
    (t.formRecord pol n).busy = t.busy := rfl
@[simp] theorem TaUnit.formRecord_done (pol : Polarity) (n : Word) (t : TaUnit) :
    (t.formRecord pol n).done = t.done := rfl
@[simp] theorem TaUnit.formRecord_cMin (pol : Polarity) (n : Word) (t : TaUnit) :
    (t.formRecord pol n).cMin = t.cMin := rfl
@[simp] theorem TaUnit.formRecord_cMax (pol : Polarity) (n : Word) (t : TaUnit) :
    (t.formRecord pol n).cMax = t.cMax := rfl
@[simp] theorem TaUnit.formRecord_cSeek (pol : Polarity) (n : Word) (t : TaUnit) :
    (t.formRecord pol n).cSeek = t.cSeek := rfl
@[simp] theorem TaUnit.formRecord_cScale (pol : Polarity) (n : Word) (t : TaUnit) :
    (t.formRecord pol n).cScale = t.cScale := rfl
@[simp] theorem TaUnit.formRecord_cMark (pol : Polarity) (n : Word) (t : TaUnit) :
    (t.formRecord pol n).cMark = t.cMark := rfl
@[simp] theorem TaUnit.formRecord_cProto (pol : Polarity) (n : Word) (t : TaUnit) :
    (t.formRecord pol n).cProto = t.cProto := rfl
@[simp] theorem TaUnit.formRecord_skip (pol : Polarity) (n : Word) (t : TaUnit) :
    (t.formRecord pol n).skip = t.skip := rfl
@[simp] theorem TaUnit.formRecord_rawValid (pol : Polarity) (n : Word) (t : TaUnit) :
    (t.formRecord pol n).rawValid = t.rawValid := rfl
@[simp] theorem TaUnit.formRecord_rawPol (pol : Polarity) (n : Word) (t : TaUnit) :
    (t.formRecord pol n).rawPol = t.rawPol := rfl
@[simp] theorem TaUnit.formRecord_rawCnt (pol : Polarity) (n : Word) (t : TaUnit) :
    (t.formRecord pol n).rawCnt = t.rawCnt := rfl
@[simp] theorem TaUnit.formRecord_curValid (pol : Polarity) (n : Word) (t : TaUnit) :
    (t.formRecord pol n).curValid = t.curValid := rfl
@[simp] theorem TaUnit.formRecord_curPol (pol : Polarity) (n : Word) (t : TaUnit) :
    (t.formRecord pol n).curPol = t.curPol := rfl
@[simp] theorem TaUnit.formRecord_curCnt (pol : Polarity) (n : Word) (t : TaUnit) :
    (t.formRecord pol n).curCnt = t.curCnt := rfl
@[simp] theorem TaUnit.formRecord_preCnt (pol : Polarity) (n : Word) (t : TaUnit) :
    (t.formRecord pol n).preCnt = t.preCnt := rfl
@[simp] theorem TaUnit.formRecord_out (pol : Polarity) (n : Word) (t : TaUnit) :
    (t.formRecord pol n).out = t.out ++ [recordOf t pol n] := rfl
@[simp] theorem TaUnit.formRecord_anomalies (pol : Polarity) (n : Word) (t : TaUnit) :
    (t.formRecord pol n).anomalies = t.anomalies := rfl
@[simp] theorem TaUnit.formRecord_runs (pol : Polarity) (n : Word) (t : TaUnit) :
    (t.formRecord pol n).runs = t.runs := rfl

end Sys2Proof.Machine
end

