-- ==== Sys2Proof/Laws/Ops.lean ====
section
/-! SUPPORT. What each shared operation can do, said once: operands and their checks, a command's two endings, a unit's
step, the saturating counts, the room in a bounded list. -/

namespace Sys2Proof.Machine

/-! ## Operands -/

@[simp] theorem ofField_code (p : Proto) : Proto.ofField p.code = some p := by cases p <;> rfl

theorem ofField_eq_some {f : BitVec 4} {p : Proto} (h : Proto.ofField f = some p) : f = p.code := by
  unfold Proto.ofField at h
  split at h
  · cases h; assumption
  · split at h
    · cases h; assumption
    · cases h

theorem ofField_eq_none {f : BitVec 4} (h : 1 < f.toNat) : Proto.ofField f = none := by
  rw [Proto.ofField, if_neg, if_neg]
  · rintro rfl; simp at h
  · rintro rfl; simp at h

theorem ofField_isSome {f : BitVec 4} (h : f.toNat ≤ 1) : ∃ p, Proto.ofField f = some p ∧ f = p.code := by
  have : f = 0#4 ∨ f = 1#4 := by
    rcases Nat.le_one_iff_eq_zero_or_eq_one.mp h with h | h
    · exact .inl (BitVec.eq_of_toNat_eq h)
    · exact .inr (BitVec.eq_of_toNat_eq h)
  rcases this with rfl | rfl
  · exact ⟨.nec, rfl, rfl⟩
  · exact ⟨.r05d, rfl, rfl⟩

@[simp] theorem kind_ofField_code (k : SymbolKind) : SymbolKind.ofField k.code = some k := by cases k <;> rfl

theorem kind_ofField_eq_none {f : BitVec 4} (h : 7 < f.toNat) : SymbolKind.ofField f = none := by
  revert f; decide

theorem kind_ofField_isSome {f : BitVec 4} (h : f.toNat ≤ 7) : ∃ k, SymbolKind.ofField f = some k ∧ f = k.code := by
  have key : ∀ f : BitVec 4, f.toNat ≤ 7 → ∃ k ∈ allKinds, SymbolKind.ofField f = some k ∧ f = k.code := by decide
  obtain ⟨k, -, hk⟩ := key f h
  exact ⟨k, hk⟩

@[simp] theorem withProto_code (p : Proto) (body : Proto → Except CmdStatus State) :
    withProto p.code body = body p := by simp [withProto]

theorem withProto_bad {f : BitVec 4} (h : 1 < f.toNat) (body : Proto → Except CmdStatus State) :
    withProto f body = .error .badProto := by simp [withProto, ofField_eq_none h]

@[simp] theorem withKind_code (k : SymbolKind) (body : SymbolKind → Except CmdStatus State) :
    withKind k.code body = body k := by simp [withKind]

theorem withKind_bad {f : BitVec 4} (h : 7 < f.toNat) (body : SymbolKind → Except CmdStatus State) :
    withKind f body = .error .badKind := by simp [withKind, kind_ofField_eq_none h]

/-- What an opcode with PROTO can do: BAD_PROTO, or its body. -/
theorem withProto_cases (f : BitVec 4) (body : Proto → Except CmdStatus State) :
    (1 < f.toNat ∧ withProto f body = .error .badProto) ∨ ∃ p, f = p.code ∧ withProto f body = body p := by
  rcases Nat.lt_or_ge 1 f.toNat with h | h
  · exact .inl ⟨h, withProto_bad h body⟩
  · obtain ⟨p, -, rfl⟩ := ofField_isSome h
    exact .inr ⟨p, rfl, withProto_code p body⟩

/-- What an opcode with KIND can do: BAD_KIND, or its body. -/
theorem withKind_cases (f : BitVec 4) (body : SymbolKind → Except CmdStatus State) :
    (7 < f.toNat ∧ withKind f body = .error .badKind) ∨ ∃ k, f = k.code ∧ withKind f body = body k := by
  rcases Nat.lt_or_ge 7 f.toNat with h | h
  · exact .inl ⟨h, withKind_bad h body⟩
  · obtain ⟨k, -, rfl⟩ := kind_ofField_isSome h
    exact .inr ⟨k, rfl, withKind_code k body⟩

/-! ## A command's endings -/

@[simp] theorem runCommand_ok {s : State} (h : s.env.rst = false) (op : BitVec 8) (t : State) :
    runCommand op (.ok t) s = .next (completeCommand op t) := by simp [runCommand, h]

@[simp] theorem runCommand_error {s : State} (h : s.env.rst = false) (op : BitVec 8) (code : CmdStatus) :
    runCommand op (.error code) s = .next (raiseCmdError code op s) := by simp [runCommand, h]

/-- No command runs while `rst` = 1. -/
theorem runCommand_held {s : State} (h : s.env.rst = true) (op : BitVec 8) (body : Except CmdStatus State) :
    runCommand op body s = .next s := by simp [runCommand, hold, h]

/-- Everything a command can do. -/
theorem runCommand_next {op : BitVec 8} {body : Except CmdStatus State} {s t : State}
    (h : runCommand op body s = .next t) :
    (s.env.rst = true ∧ t = s) ∨ (s.env.rst = false ∧
      ((∃ u, body = .ok u ∧ t = completeCommand op u) ∨ ∃ code, body = .error code ∧ t = raiseCmdError code op s)) := by
  cases hr : s.env.rst
  · refine .inr ⟨rfl, ?_⟩
    cases body with
    | ok u => rw [runCommand_ok hr] at h; cases h; exact .inl ⟨_, rfl, rfl⟩
    | error code => rw [runCommand_error hr] at h; cases h; exact .inr ⟨_, rfl, rfl⟩
  · rw [runCommand_held hr] at h; cases h; exact .inl ⟨rfl, rfl⟩

/-- A command always gives a next state. -/
theorem runCommand_total (op : BitVec 8) (body : Except CmdStatus State) (s : State) :
    ∃ t, runCommand op body s = .next t := by
  cases h : s.env.rst
  · cases body <;> simp [h]
  · exact ⟨s, runCommand_held h op body⟩

/-! ## A unit's step -/

/-- A unit's step always gives a next state: its effect where it is enabled and `rst` = 0, else the state itself. -/
theorem unitStep_eq (enabled : Bool) (n s : State) :
    unitStep enabled n s = .next (if enabled = true ∧ s.env.rst = false then n else s) := by
  unfold unitStep hold
  cases enabled <;> cases s.env.rst <;> rfl

@[simp] theorem unitStep_false (n s : State) : unitStep false n s = .next s := by simp [unitStep_eq]

theorem unitStep_true {s : State} (h : s.env.rst = false) (n : State) : unitStep true n s = .next n := by
  simp [unitStep_eq, h]

theorem unitStep_next {enabled : Bool} {n s t : State} (h : unitStep enabled n s = .next t) :
    t = s ∨ (enabled = true ∧ s.env.rst = false ∧ t = n) := by
  rw [unitStep_eq] at h
  split at h
  · rename_i hc; cases h; exact .inr ⟨hc.1, hc.2, rfl⟩
  · cases h; exact .inl rfl

/-! ## The window -/

theorem accessOk_iff (size : Nat) (a : BitVec 8) (s : State) :
    accessOk size a s = true ↔ size = 4 ∧ a.toNat % 4 = 0 ∧ s.env.rst = false := by
  simp [accessOk, and_assoc]

/-- The accesses the bus refuses. -/
theorem accessOk_eq_false_iff (size : Nat) (a : BitVec 8) (s : State) :
    accessOk size a s = false ↔ size ≠ 4 ∨ a.toNat % 4 ≠ 0 ∨ s.env.rst = true := by
  rw [← Bool.not_eq_true, accessOk_iff]
  cases s.env.rst <;> by_cases h1 : size = 4 <;> by_cases h2 : a.toNat % 4 = 0 <;> simp [h1, h2]

/-- A write to ARG, a configuration register or IRQEN leaves IRQSTAT, and every write leaves CSTAT and CRES. -/
theorem HostRegs.write_kept (a : BitVec 8) (v : Word) (r : HostRegs) :
    (r.write a v).cres0 = r.cres0 ∧ (r.write a v).cres1 = r.cres1 ∧ (r.write a v).err = r.err ∧
      (r.write a v).lastOp = r.lastOp ∧ (a ≠ 0x4C#8 → (r.write a v).irqstat = r.irqstat) := by
  unfold HostRegs.write
  refine ⟨?_, ?_, ?_, ?_, fun h => ?_⟩ <;> (repeat' split) <;> rfl

/-! ## Counts -/

theorem satAdd_toNat (a b : Word) : (satAdd a b).toNat = min (a.toNat + b.toNat) (2 ^ 32 - 1) := by
  simp only [satAdd, sat32, max32, BitVec.toNat_ofNat]; omega

/-- A sum that fits does not saturate. -/
theorem satAdd_of_lt {a b : Word} (h : a.toNat + b.toNat < 2 ^ 32) : satAdd a b = a + b := by
  apply BitVec.eq_of_toNat_eq
  rw [satAdd_toNat, BitVec.toNat_add]; omega

theorem satInc16_toNat (a : BitVec 16) : (satInc16 a).toNat = min (a.toNat + 1) 0xFFFF := by
  simp only [satInc16, BitVec.toNat_ofNat]; omega

theorem absDiff_eq_zero {a b : Nat} : absDiff a b = 0 ↔ a = b := by
  unfold absDiff; split <;> omega

/-! ## Bounded lists -/

/-- Room is a length below the depth. -/
theorem hasRoom_iff {α : Type} (l : List α) (n : Nat) : hasRoom l n = true ↔ l.length < n := by
  induction n generalizing l with
  | zero => cases l <;> simp [hasRoom]
  | succ n ih => cases l <;> simp [hasRoom, ih]

theorem hasRoom_eq_false {α : Type} (l : List α) (n : Nat) : hasRoom l n = false ↔ n ≤ l.length := by
  rw [← Bool.not_eq_true, hasRoom_iff]; omega

end Sys2Proof.Machine
end

