-- ==== Sys2Proof/Laws/Decode.lean ====
section
/-! SUPPORT. The fields of every word format read back from a word made of them, and what a unit's word decodes to. -/

namespace Sys2Proof

/-! ## Fields -/

@[simp] theorem Polarity.ofBit_bit (p : Polarity) : Polarity.ofBit (p.bit.getLsbD 0) = p := by cases p <;> rfl

theorem opField_cmdWord (op : BitVec 8) (p k : BitVec 4) : opField (cmdWord op p k) = op := by
  ext i hi
  simp only [opField, cmdWord, BitVec.getElem_extractLsb', BitVec.getLsbD_append]
  rw [if_pos (by omega), show 0 + i = i by omega, BitVec.getLsbD_eq_getElem]

theorem protoField_cmdWord (op : BitVec 8) (p k : BitVec 4) : protoField (cmdWord op p k) = p := by
  ext i hi
  simp only [protoField, cmdWord, BitVec.getElem_extractLsb', BitVec.getLsbD_append]
  rw [if_neg (by omega), if_pos (by omega), show 8 + i - 8 = i by omega, BitVec.getLsbD_eq_getElem]

theorem kindField_cmdWord (op : BitVec 8) (p k : BitVec 4) : kindField (cmdWord op p k) = k := by
  ext i hi
  simp only [kindField, cmdWord, BitVec.getElem_extractLsb', BitVec.getLsbD_append]
  rw [if_neg (by omega), if_neg (by omega), if_pos (by omega), show 12 + i - 8 - 4 = i by omega,
    BitVec.getLsbD_eq_getElem]

theorem reserved_cmdWord (op : BitVec 8) (p k : BitVec 4) : (cmdWord op p k).extractLsb' 16 16 = 0#16 := by
  ext i hi
  simp only [cmdWord, BitVec.getElem_extractLsb', BitVec.getLsbD_append]
  rw [if_neg (by omega), if_neg (by omega), if_neg (by omega)]; simp

/-- A command word decodes by the opcode map. -/
theorem decodeCmd_cmdWord (op : BitVec 8) (p k : BitVec 4) : decodeCmd (cmdWord op p k) = decodeOp op p k := by
  rw [decodeCmd, reserved_cmdWord, opField_cmdWord, protoField_cmdWord, kindField_cmdWord]; rfl

/-- Every command word without reserved bits is the word of its fields. -/
theorem cmdWord_fields {v : BitVec 32} (h : v.extractLsb' 16 16 = 0#16) :
    cmdWord (opField v) (protoField v) (kindField v) = v := by
  apply BitVec.eq_of_getLsbD_eq
  intro i hi
  have hb : ∀ j, v.getLsbD (16 + j) = false ∨ 16 ≤ j := fun j => by
    by_cases hj : j < 16
    · left
      have := congrArg (fun x => x.getLsbD j) h
      simpa [hj] using this
    · right; omega
  simp only [cmdWord, opField, protoField, kindField, BitVec.getLsbD_append, BitVec.getLsbD_extractLsb']
  split
  · simp [*]
  · split
    · rw [decide_eq_true (by omega)]; simp; congr 1; omega
    · split
      · rw [decide_eq_true (by omega)]; simp; congr 1; omega
      · rcases hb (i - 16) with h | h
        · rw [show 16 + (i - 16) = i by omega] at h; simp [h]
        · omega

theorem decodeCap_pulse (pol : Polarity) (dur : Word) : decodeCap (capWord 0#1 pol dur) = .capPulse pol dur := by
  have h1 : (capWord 0#1 pol dur).getLsbD 33 = false := by
    rw [capWord]; simp only [BitVec.getLsbD_append]; rfl
  have h2 : (capWord 0#1 pol dur).getLsbD 32 = pol.bit.getLsbD 0 := by
    rw [capWord]; simp only [BitVec.getLsbD_append]; rfl
  have h3 : (capWord 0#1 pol dur).extractLsb' 0 32 = dur := by
    ext i hi
    simp only [capWord, BitVec.getElem_extractLsb', BitVec.getLsbD_append]
    rw [if_pos (by omega), show 0 + i = i by omega, BitVec.getLsbD_eq_getElem]
  rw [decodeCap, h1, h2, h3, Polarity.ofBit_bit]; rfl

theorem decodeCap_timeout (pol : Polarity) (dur : Word) :
    decodeCap (capWord 1#1 pol dur) = .capTimeout pol dur := by
  have h1 : (capWord 1#1 pol dur).getLsbD 33 = true := by
    rw [capWord]; simp only [BitVec.getLsbD_append]; rfl
  have h2 : (capWord 1#1 pol dur).getLsbD 32 = pol.bit.getLsbD 0 := by
    rw [capWord]; simp only [BitVec.getLsbD_append]; rfl
  have h3 : (capWord 1#1 pol dur).extractLsb' 0 32 = dur := by
    ext i hi
    simp only [capWord, BitVec.getElem_extractLsb', BitVec.getLsbD_append]
    rw [if_pos (by omega), show 0 + i = i by omega, BitVec.getLsbD_eq_getElem]
  rw [decodeCap, h1, h2, h3, Polarity.ofBit_bit]; rfl

theorem decodeEdge_word (pol : Polarity) (ts : Word) : decodeEdge (edgeWord pol ts) = .edge pol ts := by
  have h2 : (edgeWord pol ts).getLsbD 32 = pol.bit.getLsbD 0 := by
    rw [edgeWord]; simp only [BitVec.getLsbD_append]; rfl
  have h3 : (edgeWord pol ts).extractLsb' 0 32 = ts := by
    ext i hi
    simp only [edgeWord, BitVec.getElem_extractLsb', BitVec.getLsbD_append]
    rw [if_pos (by omega), show 0 + i = i by omega, BitVec.getLsbD_eq_getElem]
  rw [decodeEdge, h2, h3, Polarity.ofBit_bit]

theorem decodeTrc_byte (data : Byte) : decodeTrc (trcWord 0#1 data) = .trcByte data := by
  have h1 : (trcWord 0#1 data).getLsbD 8 = false := by
    rw [trcWord]; simp only [BitVec.getLsbD_append]; rfl
  have h3 : (trcWord 0#1 data).extractLsb' 0 8 = data := by
    ext i hi
    simp only [trcWord, BitVec.getElem_extractLsb', BitVec.getLsbD_append]
    rw [if_pos (by omega), show 0 + i = i by omega, BitVec.getLsbD_eq_getElem]
  rw [decodeTrc, h1, h3]; rfl

theorem decodeTrc_end (data : Byte) : decodeTrc (trcWord 1#1 data) = .trcEnd data := by
  have h1 : (trcWord 1#1 data).getLsbD 8 = true := by
    rw [trcWord]; simp only [BitVec.getLsbD_append]; rfl
  have h3 : (trcWord 1#1 data).extractLsb' 0 8 = data := by
    ext i hi
    simp only [trcWord, BitVec.getElem_extractLsb', BitVec.getLsbD_append]
    rw [if_pos (by omega), show 0 + i = i by omega, BitVec.getLsbD_eq_getElem]
  rw [decodeTrc, h1, h3]; rfl

/-! ## Every word of an input port is one of the two forms of its format -/

theorem ofBit_bit_of (b : Bool) : (Polarity.ofBit b).bit = BitVec.ofBool b := by cases b <;> rfl

theorem capWord_surj (w : BitVec 34) : ∃ t pol dur, w = capWord t pol dur ∧ (t = 0#1 ∨ t = 1#1) := by
  refine ⟨BitVec.ofBool (w.getLsbD 33), Polarity.ofBit (w.getLsbD 32), w.extractLsb' 0 32, ?_, by
    cases w.getLsbD 33 <;> simp⟩
  apply BitVec.eq_of_getLsbD_eq
  intro i hi
  simp only [capWord, ofBit_bit_of, BitVec.getLsbD_append, BitVec.getLsbD_extractLsb', BitVec.getLsbD_ofBool]
  split
  · simp [*]
  · split
    · rw [show i = 32 by omega]; simp
    · rw [show i = 33 by omega]; simp

theorem edgeWord_surj (w : BitVec 33) : ∃ pol ts, w = edgeWord pol ts := by
  refine ⟨Polarity.ofBit (w.getLsbD 32), w.extractLsb' 0 32, ?_⟩
  apply BitVec.eq_of_getLsbD_eq
  intro i hi
  simp only [edgeWord, ofBit_bit_of, BitVec.getLsbD_append, BitVec.getLsbD_extractLsb', BitVec.getLsbD_ofBool]
  split
  · simp [*]
  · rw [show i = 32 by omega]; simp

theorem trcWord_surj (w : BitVec 9) : ∃ e data, w = trcWord e data ∧ (e = 0#1 ∨ e = 1#1) := by
  refine ⟨BitVec.ofBool (w.getLsbD 8), w.extractLsb' 0 8, ?_, by cases w.getLsbD 8 <;> simp⟩
  apply BitVec.eq_of_getLsbD_eq
  intro i hi
  simp only [trcWord, BitVec.getLsbD_append, BitVec.getLsbD_extractLsb', BitVec.getLsbD_ofBool]
  split
  · simp [*]
  · rw [show i = 8 by omega]; simp

/-! ## The words the units push -/

/-- A driver op's instruction is encoded as its word. -/
theorem encode_driverOp (op : Machine.DriverOp) : encode op.instr = .drv op.word := by cases op <;> rfl

/-- A record's instruction is encoded as its word. -/
theorem encode_record (r : Machine.Record) : encode r.instr = .record r.word := by cases r <;> rfl

theorem delayWord_top (n : BitVec 24) : (delayWord n).extractLsb' 24 8 = 0x80#8 := by
  ext i hi
  simp only [delayWord, BitVec.getElem_extractLsb', BitVec.getLsbD_append]
  rw [if_neg (by omega), show 24 + i - 24 = i by omega, BitVec.getLsbD_eq_getElem]

theorem delayWord_value (n : BitVec 24) : (delayWord n).extractLsb' 0 24 = n := by
  ext i hi
  simp only [delayWord, BitVec.getElem_extractLsb', BitVec.getLsbD_append]
  rw [if_pos (by omega), show 0 + i = i by omega, BitVec.getLsbD_eq_getElem]

/-- A driver op's word decodes to its instruction. -/
theorem decodeDrv_word (op : Machine.DriverOp) : decodeDrv op.word = .ok op.instr := by
  cases op with
  | disable => rfl
  | enable => rfl
  | delay n =>
    have h := delayWord_top n
    show decodeDrv (delayWord n) = _
    rw [decodeDrv, if_neg, if_neg, if_pos h, delayWord_value]
    · rfl
    · intro hw; rw [hw] at h; exact absurd h (by decide)
    · intro hw; rw [hw] at h; exact absurd h (by decide)

theorem recWord_type (ty : BitVec 2) (pol : Polarity) (m : BitVec 29) (n : BitVec 16) :
    (recWord ty pol m n).extractLsb' 62 2 = ty := by
  ext i hi
  simp only [recWord, BitVec.getElem_extractLsb', BitVec.getLsbD_append]
  rw [if_neg (by omega), if_neg (by omega), if_neg (by omega), if_neg (by omega),
    show 62 + i - 16 - 16 - 29 - 1 = i by omega, BitVec.getLsbD_eq_getElem]

theorem recWord_low (ty : BitVec 2) (pol : Polarity) (m : BitVec 29) (n : BitVec 16) :
    (recWord ty pol m n).extractLsb' 0 16 = 0#16 := by
  ext i hi
  simp only [recWord, BitVec.getElem_extractLsb', BitVec.getLsbD_append]
  rw [if_pos (by omega)]; simp

theorem recWord_nominal (ty : BitVec 2) (pol : Polarity) (m : BitVec 29) (n : BitVec 16) :
    (recWord ty pol m n).extractLsb' 16 16 = n := by
  ext i hi
  simp only [recWord, BitVec.getElem_extractLsb', BitVec.getLsbD_append]
  rw [if_neg (by omega), if_pos (by omega), show 16 + i - 16 = i by omega, BitVec.getLsbD_eq_getElem]

theorem recWord_measured (ty : BitVec 2) (pol : Polarity) (m : BitVec 29) (n : BitVec 16) :
    (recWord ty pol m n).extractLsb' 32 29 = m := by
  ext i hi
  simp only [recWord, BitVec.getElem_extractLsb', BitVec.getLsbD_append]
  rw [if_neg (by omega), if_neg (by omega), if_pos (by omega), show 32 + i - 16 - 16 = i by omega,
    BitVec.getLsbD_eq_getElem]

theorem recWord_pol (ty : BitVec 2) (pol : Polarity) (m : BitVec 29) (n : BitVec 16) :
    Polarity.ofBit ((recWord ty pol m n).getLsbD 61) = pol := by
  have : (recWord ty pol m n).getLsbD 61 = pol.bit.getLsbD 0 := by
    rw [recWord]; simp only [BitVec.getLsbD_append]; rfl
  rw [this, Polarity.ofBit_bit]

theorem recWord_ne_end {ty : BitVec 2} (h : ty ≠ 2#2) (pol : Polarity) (m : BitVec 29) (n : BitVec 16) :
    recWord ty pol m n ≠ 0x8000000000000000#64 := by
  intro hw
  have := recWord_type ty pol m n
  rw [hw] at this
  exact h (this.symm.trans (by decide))

/-- A record's word decodes to its instruction. -/
theorem decodeRec_word (r : Machine.Record) : decodeRec r.word = .ok r.instr := by
  cases r with
  | fin => rfl
  | recon pol m n =>
    show decodeRec (recWord 0#2 pol m n) = _
    rw [decodeRec, if_neg (recWord_ne_end (by decide) pol m n), recWord_low, recWord_type, recWord_measured,
      recWord_nominal, recWord_pol]
    rfl
  | anomaly pol m n =>
    show decodeRec (recWord 1#2 pol m n) = _
    rw [decodeRec, if_neg (recWord_ne_end (by decide) pol m n), recWord_low, recWord_type, recWord_measured,
      recWord_nominal, recWord_pol]
    rfl

end Sys2Proof
end

