-- ==== Sys2Proof/Laws/Agents.lean ====
section
/-! SUPPORT. What one atomic step of each agent can do, said once: a command word's effects, then one inversion lemma per
unit step, which name the word and its guard. -/

namespace Sys2Proof.Machine

/-! ## Commands -/

/-- The effects that a command which raises no CmdError can have before its CSTAT is written. -/
inductive CommandEffect (s : State) : BitVec 8 → State → Prop where
  | nop : CommandEffect s 0x00#8 s
  | result (op : BitVec 8) (r0 r1 : Word) (h : op ∈ [0x01#8, 0x02#8, 0x03#8, 0x04#8, 0x05#8]) :
    CommandEffect s op (setResult r0 r1 s)
  | txStart (p : Proto) (h : s.tx.st = .idle) : CommandEffect s 0x10#8 { s with tx := .start p s.host.arg }
  | rxStart (p : Proto) (h : s.rx.dec.st.running = false) : CommandEffect s 0x20#8 { s with rx := .start p }
  | rxStop : CommandEffect s 0x21#8 { s with rx := s.rx.stop }
  | gapStart (p : Proto) (h : s.gap.en = false) : CommandEffect s 0x30#8 { s with gap := .start p s.host.gapcfg }
  | gapStop : CommandEffect s 0x31#8 { s with gap := s.gap.stop }
  | gapAck : CommandEffect s 0x32#8 { s with gap := s.gap.clearResult }
  | taStart (p : Proto) (hp : p.code = tproto s.host) (h : s.ta.busy = false) :
    CommandEffect s 0x40#8 { s with ta := .start p s.host }

/-- What a command did while `rst` = 0: a CmdError, or one of the effects, with CSTAT written. -/
abbrev CommandNext (op : BitVec 8) (s t : State) : Prop :=
  (∃ code, code ≠ .ok ∧ t = raiseCmdError code op s) ∨ ∃ u, CommandEffect s op u ∧ t = completeCommand op u

/-- A body that raises an error or has an effect. -/
theorem commandNext_of_body {op : BitVec 8} {body : Except CmdStatus State} {s t : State}
    (hr : s.env.rst = false)
    (hb : (∃ code, code ≠ .ok ∧ body = .error code) ∨ ∃ u, CommandEffect s op u ∧ body = .ok u)
    (h : runCommand op body s = .next t) : CommandNext op s t := by
  obtain ⟨hr', -⟩ | ⟨-, hn⟩ := runCommand_next h
  · rw [hr] at hr'; cases hr'
  rcases hb with ⟨code, hc, rfl⟩ | ⟨u, hu, rfl⟩
  · rcases hn with ⟨_, hn, -⟩ | ⟨_, hn, ht⟩
    · cases hn
    · cases hn; exact .inl ⟨_, hc, ht⟩
  · rcases hn with ⟨_, hn, ht⟩ | ⟨_, hn, -⟩
    · cases hn; exact .inr ⟨_, hu, ht⟩
    · cases hn

/-- The body of NOMINAL, WINDOW and MATCH. -/
theorem symbolCommand_cases (p k : BitVec 4) (body : Proto → SymbolKind → Nat → Word × Word) (s : State) :
    (∃ code, code ≠ .ok ∧ symbolCommand p k body s = .error code) ∨
      ∃ r0 r1, symbolCommand p k body s = .ok (setResult r0 r1 s) := by
  unfold symbolCommand
  rcases withProto_cases p _ with ⟨-, h⟩ | ⟨proto, -, h⟩
  · exact .inl ⟨_, by decide, h⟩
  · rw [h]
    rcases withKind_cases k _ with ⟨-, h⟩ | ⟨kind, -, h⟩
    · exact .inl ⟨_, by decide, h⟩
    · rw [h]
      split
      · exact .inr ⟨_, _, rfl⟩
      · exact .inl ⟨.undefSymbol, by decide, rfl⟩

/-- A body under PROTO whose instances raise an error or have an effect. -/
theorem withProto_effect {op : BitVec 8} {f : BitVec 4} {body : Proto → Except CmdStatus State} {s : State}
    (h : ∀ p, f = p.code →
      (∃ code, code ≠ .ok ∧ body p = .error code) ∨ ∃ u, CommandEffect s op u ∧ body p = .ok u) :
    (∃ code, code ≠ .ok ∧ withProto f body = .error code) ∨
      ∃ u, CommandEffect s op u ∧ withProto f body = .ok u := by
  rcases withProto_cases f body with ⟨-, hb⟩ | ⟨p, hp, hb⟩
  · exact .inl ⟨_, by decide, hb⟩
  · rw [hb]; exact h p hp

/-- What the meaning of an instruction that a command word decodes to can do while `rst` = 0. -/
theorem exec_command_next {v : Word} {i : Instr} {s t : State} (hr : s.env.rst = false) (hd : decodeCmd v = .ok i)
    (h : exec i s = .next t) : CommandNext (opField v) s t := by
  unfold decodeCmd at hd
  split at hd
  · cases hd
  unfold decodeOp at hd
  have sym : ∀ {op : BitVec 8} {p k : BitVec 4} {body},
      op ∈ [0x01#8, 0x02#8, 0x03#8, 0x04#8, 0x05#8] →
      (∃ code, code ≠ .ok ∧ symbolCommand p k body s = .error code) ∨
        ∃ u, CommandEffect s op u ∧ symbolCommand p k body s = .ok u := fun {op p k body} ho => by
    rcases symbolCommand_cases p k body s with h | ⟨r0, r1, h⟩
    · exact .inl h
    · exact .inr ⟨_, .result op r0 r1 ho, h⟩
  by_cases ho : opField v = 0x00#8
  · rw [if_pos ho] at hd; cases hd; rw [ho]
    exact commandNext_of_body hr (.inr ⟨_, .nop, rfl⟩) h
  rw [if_neg ho] at hd; clear ho
  by_cases ho : opField v = 0x01#8
  · rw [if_pos ho] at hd; cases hd; rw [ho]; exact commandNext_of_body hr (sym (by decide)) h
  rw [if_neg ho] at hd; clear ho
  by_cases ho : opField v = 0x02#8
  · rw [if_pos ho] at hd; cases hd; rw [ho]; exact commandNext_of_body hr (sym (by decide)) h
  rw [if_neg ho] at hd; clear ho
  by_cases ho : opField v = 0x03#8
  · rw [if_pos ho] at hd; cases hd; rw [ho]; exact commandNext_of_body hr (sym (by decide)) h
  rw [if_neg ho] at hd; clear ho
  by_cases ho : opField v = 0x04#8
  · rw [if_pos ho] at hd; cases hd; rw [ho]
    exact commandNext_of_body hr (withProto_effect fun p _ => .inr ⟨_, .result _ _ _ (by decide), rfl⟩) h
  rw [if_neg ho] at hd; clear ho
  by_cases ho : opField v = 0x05#8
  · rw [if_pos ho] at hd; cases hd; rw [ho]
    refine commandNext_of_body hr (withProto_effect fun p _ => ?_) h
    split
    · exact .inr ⟨_, .result _ _ _ (by decide), rfl⟩
    · exact .inl ⟨.badIndex, by decide, rfl⟩
  rw [if_neg ho] at hd; clear ho
  by_cases ho : opField v = 0x10#8
  · rw [if_pos ho] at hd; cases hd; rw [ho]
    refine commandNext_of_body hr (withProto_effect fun p _ => ?_) h
    split
    · exact .inl ⟨.busy, by decide, rfl⟩
    · rename_i hst
      exact .inr ⟨_, .txStart p (by cases hs : s.tx.st <;> simp_all), rfl⟩
  rw [if_neg ho] at hd; clear ho
  by_cases ho : opField v = 0x20#8
  · rw [if_pos ho] at hd; cases hd; rw [ho]
    refine commandNext_of_body hr (withProto_effect fun p _ => ?_) h
    split
    · exact .inl ⟨.busy, by decide, rfl⟩
    · exact .inr ⟨_, .rxStart p (Bool.eq_false_iff.mpr ‹_›), rfl⟩
  rw [if_neg ho] at hd; clear ho
  by_cases ho : opField v = 0x21#8
  · rw [if_pos ho] at hd; cases hd; rw [ho]
    exact commandNext_of_body hr (.inr ⟨_, .rxStop, rfl⟩) h
  rw [if_neg ho] at hd; clear ho
  by_cases ho : opField v = 0x30#8
  · rw [if_pos ho] at hd; cases hd; rw [ho]
    refine commandNext_of_body hr (withProto_effect fun p _ => ?_) h
    split
    · exact .inl ⟨.busy, by decide, rfl⟩
    · exact .inr ⟨_, .gapStart p (Bool.eq_false_iff.mpr ‹_›), rfl⟩
  rw [if_neg ho] at hd; clear ho
  by_cases ho : opField v = 0x31#8
  · rw [if_pos ho] at hd; cases hd; rw [ho]
    exact commandNext_of_body hr (.inr ⟨_, .gapStop, rfl⟩) h
  rw [if_neg ho] at hd; clear ho
  by_cases ho : opField v = 0x32#8
  · rw [if_pos ho] at hd; cases hd; rw [ho]
    exact commandNext_of_body hr (.inr ⟨_, .gapAck, rfl⟩) h
  rw [if_neg ho] at hd; clear ho
  by_cases ho : opField v = 0x40#8
  · rw [if_pos ho] at hd; cases hd; rw [ho]
    refine commandNext_of_body hr (withProto_effect fun p hp => ?_) h
    split
    · exact .inl ⟨.busy, by decide, rfl⟩
    · exact .inr ⟨_, .taStart p hp.symm (Bool.eq_false_iff.mpr ‹_›), rfl⟩
  rw [if_neg ho] at hd; clear ho
  cases hd

/-- The meaning of an instruction that a command word decodes to is a command with that word's opcode. -/
theorem exec_command_eq {v : Word} {i : Instr} (hd : decodeCmd v = .ok i) (s : State) :
    ∃ body, exec i s = runCommand (opField v) body s := by
  unfold decodeCmd at hd
  split at hd
  · cases hd
  unfold decodeOp at hd
  by_cases ho : opField v = 0x00#8
  · rw [if_pos ho] at hd; cases hd; rw [ho]; exact ⟨.ok s, rfl⟩
  rw [if_neg ho] at hd; clear ho
  by_cases ho : opField v = 0x01#8
  · rw [if_pos ho] at hd; cases hd; rw [ho]; exact ⟨_, rfl⟩
  rw [if_neg ho] at hd; clear ho
  by_cases ho : opField v = 0x02#8
  · rw [if_pos ho] at hd; cases hd; rw [ho]; exact ⟨_, rfl⟩
  rw [if_neg ho] at hd; clear ho
  by_cases ho : opField v = 0x03#8
  · rw [if_pos ho] at hd; cases hd; rw [ho]; exact ⟨_, rfl⟩
  rw [if_neg ho] at hd; clear ho
  by_cases ho : opField v = 0x04#8
  · rw [if_pos ho] at hd; cases hd; rw [ho]; exact ⟨_, rfl⟩
  rw [if_neg ho] at hd; clear ho
  by_cases ho : opField v = 0x05#8
  · rw [if_pos ho] at hd; cases hd; rw [ho]; exact ⟨_, rfl⟩
  rw [if_neg ho] at hd; clear ho
  by_cases ho : opField v = 0x10#8
  · rw [if_pos ho] at hd; cases hd; rw [ho]; exact ⟨_, rfl⟩
  rw [if_neg ho] at hd; clear ho
  by_cases ho : opField v = 0x20#8
  · rw [if_pos ho] at hd; cases hd; rw [ho]; exact ⟨_, rfl⟩
  rw [if_neg ho] at hd; clear ho
  by_cases ho : opField v = 0x21#8
  · rw [if_pos ho] at hd; cases hd; rw [ho]; exact ⟨.ok { s with rx := s.rx.stop }, rfl⟩
  rw [if_neg ho] at hd; clear ho
  by_cases ho : opField v = 0x30#8
  · rw [if_pos ho] at hd; cases hd; rw [ho]; exact ⟨_, rfl⟩
  rw [if_neg ho] at hd; clear ho
  by_cases ho : opField v = 0x31#8
  · rw [if_pos ho] at hd; cases hd; rw [ho]; exact ⟨.ok { s with gap := s.gap.stop }, rfl⟩
  rw [if_neg ho] at hd; clear ho
  by_cases ho : opField v = 0x32#8
  · rw [if_pos ho] at hd; cases hd; rw [ho]; exact ⟨.ok { s with gap := s.gap.clearResult }, rfl⟩
  rw [if_neg ho] at hd; clear ho
  by_cases ho : opField v = 0x40#8
  · rw [if_pos ho] at hd; cases hd; rw [ho]; exact ⟨_, rfl⟩
  rw [if_neg ho] at hd; clear ho
  cases hd

/-- Every CMD write gives a next state. -/
theorem executeCommand_total (v : Word) (s : State) : ∃ t, executeCommand exec v s = .next t := by
  unfold executeCommand
  split
  · rename_i hd
    obtain ⟨body, hb⟩ := exec_command_eq hd s
    rw [hb]; exact runCommand_total _ _ _
  · exact runCommand_total _ _ _

/-- Everything a CMD write can do while `rst` = 0. -/
theorem executeCommand_next {v : Word} {s t : State} (hr : s.env.rst = false)
    (h : executeCommand exec v s = .next t) : CommandNext (opField v) s t := by
  unfold executeCommand at h
  split at h
  · exact exec_command_next hr ‹_› h
  · exact commandNext_of_body hr (.inl ⟨_, by rename_i why _; cases why <;> decide, rfl⟩) h

/-! ## The instructions of the words the units push -/

@[simp] theorem exec_driverOp (op : DriverOp) (s : State) : exec op.instr s = txPush op s := by cases op <;> rfl

@[simp] theorem exec_record (r : Record) (s : State) : exec r.instr s = recPush r s := by cases r <;> rfl

/-! ## The units -/

/-- The decoder input a CAP word means (spec/42_decoder.md R214). -/
def capEvent (w : BitVec 34) : DecEvent :=
  if w.getLsbD 33 then .timeout else .pulse (Polarity.ofBit (w.getLsbD 32)) (w.extractLsb' 0 32)

theorem exec_decodeCap (w : BitVec 34) (s : State) : exec (decodeCap w) s = rxPop w (capEvent w) s := by
  obtain ⟨t, pol, dur, rfl, rfl | rfl⟩ := capWord_surj w
  · have h := decodeCap_pulse pol dur
    have he : capEvent (capWord 0#1 pol dur) = .pulse pol dur := by
      unfold decodeCap at h; unfold capEvent
      split at h
      · cases h
      · rw [if_neg ‹_›]; injection h with h1 h2; rw [h1, h2]
    rw [h, he]; rfl
  · have h := decodeCap_timeout pol dur
    have he : capEvent (capWord 1#1 pol dur) = .timeout := by
      unfold decodeCap at h; unfold capEvent
      split at h
      · rw [if_pos ‹_›]
      · cases h
    rw [h, he]; rfl

/-- The edge an EDGE word carries (spec/30_encoding.md R112). -/
def edgeOfWord (w : BitVec 33) : EdgeEvent := ⟨Polarity.ofBit (w.getLsbD 32), w.extractLsb' 0 32⟩

theorem exec_decodeEdge (w : BitVec 33) (s : State) :
    exec (decodeEdge w) s =
      unitStep (decide (s.env.edgeIn.head? = some w))
        (popEdge (intakeEdge Config.edgeQDepth (edgeOfWord w) s)) s := by
  obtain ⟨pol, ts, rfl⟩ := edgeWord_surj w
  have h := decodeEdge_word pol ts
  have he : edgeOfWord (edgeWord pol ts) = ⟨pol, ts⟩ := by
    unfold decodeEdge at h; injection h with h1 h2; rw [edgeOfWord, h1, h2]
  rw [h, he]; rfl

/-- What a token does to the TA unit (spec/44_trace_analyzer.md R291). -/
def tokenIn (w : BitVec 9) (t : TaUnit) : TaUnit :=
  if w.getLsbD 8 then t.endOfTrace else t.byteIn (w.extractLsb' 0 8)

theorem exec_decodeTrc (w : BitVec 9) (s : State) : exec (decodeTrc w) s = trcPop w (tokenIn w s.ta) s := by
  obtain ⟨e, data, rfl, rfl | rfl⟩ := trcWord_surj w
  · have h := decodeTrc_byte data
    have he : tokenIn (trcWord 0#1 data) s.ta = s.ta.byteIn data := by
      unfold decodeTrc at h; unfold tokenIn
      split at h
      · cases h
      · rw [if_neg ‹_›]; injection h with h1; rw [h1]
    rw [h, he]; rfl
  · have h := decodeTrc_end data
    have he : tokenIn (trcWord 1#1 data) s.ta = s.ta.endOfTrace := by
      unfold decodeTrc at h; unfold tokenIn
      split at h
      · rw [if_pos ‹_›]
      · cases h
    rw [h, he]; rfl

/-- A TX step pushes the op the sequencer offers, or holds. -/
theorem act_tx_next {s t : State} (h : act exec .tx s = .next t) :
    t = s ∨ ∃ op, s.tx.offered = some op ∧ s.env.drvReady = true ∧ s.env.rst = false ∧ t = txAccepted op s := by
  simp only [act, txAgent] at h
  split at h
  · rename_i op ho
    rw [exec_driverOp, txPush] at h
    rcases unitStep_next h with h | ⟨he, hr, h⟩
    · exact .inl h
    · simp only [Bool.and_eq_true, decide_eq_true_eq] at he
      exact .inr ⟨op, ho, he.2, hr, h⟩
  · cases h; exact .inl rfl

/-- An RX step pops the CAP word at the port into a running decoder, or holds. -/
theorem act_rx_next {s t : State} (h : act exec .rx s = .next t) :
    t = s ∨ ∃ w rest, s.env.capIn = w :: rest ∧ s.rx.dec.st.running = true ∧ s.env.rst = false ∧
      t = rxConsumed (capEvent w) s := by
  simp only [act, rxAgent] at h
  split at h
  · rename_i w rest hw
    rw [exec_decodeCap, rxPop] at h
    rcases unitStep_next h with h | ⟨he, hr, h⟩
    · exact .inl h
    · simp only [Bool.and_eq_true] at he
      exact .inr ⟨w, rest, hw, he.1, hr, h⟩
  · cases h; exact .inl rfl

/-- An intake step takes the EDGE word at the port, or holds. -/
theorem act_edgeIntake_next {s t : State} (h : act exec .edgeIntake s = .next t) :
    t = s ∨ ∃ w rest, s.env.edgeIn = w :: rest ∧ s.env.rst = false ∧
      t = popEdge (intakeEdge Config.edgeQDepth (edgeOfWord w) s) := by
  simp only [act, intakeAgent] at h
  split at h
  · rename_i w rest hw
    rw [exec_decodeEdge] at h
    rcases unitStep_next h with h | ⟨-, hr, h⟩
    · exact .inl h
    · exact .inr ⟨w, rest, hw, hr, h⟩
  · cases h; exact .inl rfl

/-- An edge step takes the oldest queued edge, or holds. -/
theorem act_gapEdge_next {s t : State} (h : act exec .gapEdge s = .next t) :
    t = s ∨ ∃ e rest, s.gap.q = e :: rest ∧ s.gap.en = true ∧ s.env.rst = false ∧
      t = edgeTaken Config.frameBufDepth e s := by
  simp only [act, gapEdgeStep] at h
  split at h
  · cases h; exact .inl rfl
  · rename_i e rest hq
    rcases unitStep_next h with h | ⟨he, hr, h⟩
    · exact .inl h
    · exact .inr ⟨e, rest, hq, he, hr, h⟩

/-- A silence step closes the frame, or holds. -/
theorem act_gapSilence_next {s t : State} (h : act exec .gapSilence s = .next t) :
    t = s ∨ (silent s = true ∧ s.env.rst = false ∧ t = silenceClosed s) :=
  unitStep_next h

/-- A token step pops the TRC token at the port, or holds. -/
theorem act_taToken_next {s t : State} (h : act exec .taToken s = .next t) :
    t = s ∨ ∃ w rest, s.env.trcIn = w :: rest ∧ s.ta.busy = true ∧ s.ta.out = [] ∧ s.env.rst = false ∧
      t = { s with ta := tokenIn w s.ta, env := { s.env with trcIn := s.env.trcIn.tail } } := by
  simp only [act, tokenAgent] at h
  split at h
  · rename_i w rest hw
    rw [exec_decodeTrc, trcPop] at h
    rcases unitStep_next h with h | ⟨he, hr, h⟩
    · exact .inl h
    · simp only [TaUnit.reading, Bool.and_eq_true, List.isEmpty_iff] at he
      exact .inr ⟨w, rest, hw, he.1.1, he.1.2, hr, h⟩
  · cases h; exact .inl rfl

/-- An emit step pushes the oldest record, or holds. -/
theorem act_taEmit_next {s t : State} (h : act exec .taEmit s = .next t) :
    t = s ∨ ∃ r rest, s.ta.out = r :: rest ∧ s.env.recReady = true ∧ s.env.rst = false ∧ t = recAccepted r s := by
  simp only [act, emitAgent] at h
  split at h
  · rename_i r rest hw
    rw [exec_record, recPush] at h
    rcases unitStep_next h with h | ⟨he, hr, h⟩
    · exact .inl h
    · simp only [Bool.and_eq_true] at he
      exact .inr ⟨r, rest, hw, he.2, hr, h⟩
  · cases h; exact .inl rfl

/-- A host read gives its data, or is refused; it changes nothing else. -/
theorem act_hostRead_next {size : Nat} {a : BitVec 8} {s t : State} (h : act exec (.hostRead size a) s = .next t) :
    (accessOk size a s = false ∧ t = refuseAccess a s) ∨
      (accessOk size a s = true ∧ t = respond (.data (readReg a s)) s) := by
  simp only [act, hostRead] at h
  split at h <;> cases h
  · exact .inr ⟨‹_›, rfl⟩
  · exact .inl ⟨Bool.eq_false_iff.mpr ‹_›, rfl⟩

/-- A host write runs a command at CMD, writes a register, or is refused. -/
theorem act_hostWrite_next {size : Nat} {a : BitVec 8} {v : Word} {s t : State}
    (h : act exec (.hostWrite size a v) s = .next t) :
    (accessOk size a s = false ∧ t = refuseAccess a s) ∨ (accessOk size a s = true ∧
      ((a = 0x00#8 ∧ CommandNext (opField v) (respond .accepted s) t) ∨
        (a ≠ 0x00#8 ∧ t = writeReg a v (respond .accepted s)))) := by
  simp only [act, hostWrite] at h
  split at h
  · rename_i hk
    refine .inr ⟨hk, ?_⟩
    split at h
    · exact .inl ⟨‹_›, executeCommand_next ((accessOk_iff size a s).mp hk).2.2 h⟩
    · cases h; exact .inr ⟨‹_›, rfl⟩
  · cases h; exact .inl ⟨Bool.eq_false_iff.mpr ‹_›, rfl⟩

/-- A step is one action. -/
theorem step_act (s : State) : ∃ a u, step s = act exec a u ∧ (u = dropPending s ∨ u = countPick s) := by
  unfold step
  split
  · exact ⟨_, _, rfl, .inl rfl⟩
  · exact ⟨_, _, rfl, .inr rfl⟩

end Sys2Proof.Machine
end

