-- ==== Sys2Proof/Laws/Bus.lean ====
section
/-! SUPPORT. Nothing but a host access writes the bus's response and nothing reads it: every operation commutes with
`respond`, one lemma per operation. -/

namespace Sys2Proof.Machine

/-- The state inside an outcome, mapped. -/
def mapNext (f : State → State) : Out → Out
  | .next t => .next (f t)
  | .fault r => .fault r
  | .refused r => .refused r

/-! ## Commands -/

theorem runCommand_respond (b : BusResponse) (op : BitVec 8) {body body' : Except CmdStatus State} (s : State)
    (h : body' = body.map (respond b)) :
    runCommand op body' (respond b s) = mapNext (respond b) (runCommand op body s) := by
  subst h
  cases hr : s.env.rst
  · cases body <;> simp [runCommand, Except.map, hr, mapNext] <;> rfl
  · rw [runCommand_held hr, runCommand_held (s := respond b s) hr]; rfl

theorem withProto_respond (b : BusResponse) (f : BitVec 4) (body : Proto → Except CmdStatus State) :
    withProto f (fun p => (body p).map (respond b)) = (withProto f body).map (respond b) := by
  unfold withProto; cases Proto.ofField f <;> rfl

theorem withKind_respond (b : BusResponse) (f : BitVec 4) (body : SymbolKind → Except CmdStatus State) :
    withKind f (fun k => (body k).map (respond b)) = (withKind f body).map (respond b) := by
  unfold withKind; cases SymbolKind.ofField f <;> rfl

theorem symbolCommand_respond (b : BusResponse) (p k : BitVec 4) (body : Proto → SymbolKind → Nat → Word × Word)
    (s : State) : symbolCommand p k body (respond b s) = (symbolCommand p k body s).map (respond b) := by
  unfold symbolCommand
  rw [← withProto_respond]; congr; funext q
  rw [← withKind_respond]; congr; funext r
  cases nominal q r <;> rfl

/-- A command under PROTO whose instances do not look at the bus's response. -/
theorem protoCommand_respond (b : BusResponse) (op : BitVec 8) (p : BitVec 4)
    (body body' : Proto → Except CmdStatus State) (s : State) (h : ∀ q, body' q = (body q).map (respond b)) :
    runCommand op (withProto p body') (respond b s) = mapNext (respond b) (runCommand op (withProto p body) s) :=
  runCommand_respond b op s (by rw [funext h, withProto_respond])

/-! ## Unit steps -/

theorem unitStep_respond (b : BusResponse) (e : Bool) {n n' : State} (s : State) (h : n' = respond b n) :
    unitStep e n' (respond b s) = mapNext (respond b) (unitStep e n s) := by
  subst h
  cases e <;> cases hr : s.env.rst <;> simp [unitStep, hold, hr, mapNext]

theorem txAccepted_respond (b : BusResponse) (op : DriverOp) (s : State) :
    txAccepted op (respond b s) = respond b (txAccepted op s) := by
  unfold txAccepted; dsimp only [respond_tx]; cases (TxUnit.advance op s.tx).exhausted <;> rfl

theorem rxConsumed_respond (b : BusResponse) (ev : DecEvent) (s : State) :
    rxConsumed ev (respond b s) = respond b (rxConsumed ev s) := by
  unfold rxConsumed; dsimp only [respond_rx]; cases (RxUnit.consume ev s.rx).dec.st.terminal <;> rfl

theorem intakeEdge_respond (b : BusResponse) (n : Nat) (e : EdgeEvent) (s : State) :
    intakeEdge n e (respond b s) = respond b (intakeEdge n e s) := by
  unfold intakeEdge
  cases he : s.gap.en <;> by_cases hr : hasRoom s.gap.q n = true <;>
    simp only [respond_gap, he, hr, if_true, if_false, Bool.not_true, Bool.not_false, Bool.false_eq_true] <;> rfl

theorem recAccepted_respond (b : BusResponse) (r : Record) (s : State) :
    recAccepted r (respond b s) = respond b (recAccepted r s) := by
  cases r <;> rfl

theorem closeFrame_respond (b : BusResponse) (s : State) : closeFrame (respond b s) = respond b (closeFrame s) := by
  unfold closeFrame publish
  cases hb : s.gap.buf <;> cases hr : s.gap.result <;> simp only [respond_gap, hb, hr] <;> rfl

theorem frameEdge_respond (b : BusResponse) (n : Nat) (e : EdgeEvent) (s : State) :
    frameEdge n e (respond b s) = respond b (frameEdge n e s) := by
  unfold frameEdge appendInterval; rw [closeFrame_respond]
  cases hl : s.gap.haveLast <;> by_cases hg : isGap (e.ts - s.gap.lastTs) s.gap.thr = true <;>
    by_cases hr : hasRoom s.gap.buf n = true <;>
    simp only [respond_gap, hl, hg, hr, if_true, if_false, Bool.not_true, Bool.not_false, Bool.false_eq_true] <;> rfl

theorem edgeTaken_respond (b : BusResponse) (n : Nat) (e : EdgeEvent) (s : State) :
    edgeTaken n e (respond b s) = respond b (edgeTaken n e s) := by
  have h := frameEdge_respond b n e { s with gap := { s.gap with q := s.gap.q.tail } }
  unfold edgeTaken
  exact congrArg (fun t : State => { t with gap := { t.gap with lastTs := e.ts, lastPol := e.pol } }) h

theorem silenceClosed_respond (b : BusResponse) (s : State) :
    silenceClosed (respond b s) = respond b (silenceClosed s) := by
  unfold silenceClosed; rw [closeFrame_respond]; rfl

/-! ## Every instruction and every action but a host access -/

/-- What an instruction does does not depend on the bus's response, and it leaves the response as it is. -/
theorem exec_respond (b : BusResponse) (i : Instr) (s : State) :
    exec i (respond b s) = mapNext (respond b) (exec i s) := by
  cases i with
  | nop => exact runCommand_respond b _ (body := .ok s) s rfl
  | nominal p k => exact runCommand_respond b _ s (symbolCommand_respond b p k _ s)
  | window p k => exact runCommand_respond b _ s (symbolCommand_respond b p k _ s)
  | matchSym p k => exact runCommand_respond b _ s (symbolCommand_respond b p k _ s)
  | nearest p k => exact protoCommand_respond b _ p _ _ s fun q => rfl
  | symbol p k =>
    refine protoCommand_respond b _ p _ _ s fun q => ?_
    dsimp only [respond_host]; cases (symbols q)[s.host.arg.toNat]? <;> rfl
  | txStart p k =>
    refine protoCommand_respond b _ p _ _ s fun q => ?_
    by_cases h : s.tx.st = .emitting <;> simp only [respond_tx, h] <;> rfl
  | rxStart p k =>
    refine protoCommand_respond b _ p _ _ s fun q => ?_
    by_cases h : s.rx.dec.st.running = true <;> simp only [respond_rx, h] <;> rfl
  | rxStop => exact runCommand_respond b _ (body := .ok { s with rx := s.rx.stop }) s rfl
  | gapStart p k =>
    refine protoCommand_respond b _ p _ _ s fun q => ?_
    by_cases h : s.gap.en = true <;> simp only [respond_gap, h] <;> rfl
  | gapStop => exact runCommand_respond b _ (body := .ok { s with gap := s.gap.stop }) s rfl
  | gapAck => exact runCommand_respond b _ (body := .ok { s with gap := s.gap.clearResult }) s rfl
  | taStart =>
    refine protoCommand_respond b _ _ _ _ s fun q => ?_
    by_cases h : s.ta.busy = true <;> simp only [respond_ta, h] <;> rfl
  | drvDelay n => exact unitStep_respond b _ s (txAccepted_respond b (.delay n) s)
  | drvEnable => exact unitStep_respond b _ s (txAccepted_respond b .enable s)
  | drvDisable => exact unitStep_respond b _ s (txAccepted_respond b .disable s)
  | capPulse pol dur => exact unitStep_respond b _ s (rxConsumed_respond b (.pulse pol dur) s)
  | capTimeout pol dur => exact unitStep_respond b _ s (rxConsumed_respond b .timeout s)
  | edge pol ts =>
    exact unitStep_respond b _ s (congrArg popEdge (intakeEdge_respond b Config.edgeQDepth ⟨pol, ts⟩ s))
  | trcByte data => exact unitStep_respond b _ s rfl
  | trcEnd data => exact unitStep_respond b _ s rfl
  | recRecon pol m n => exact unitStep_respond b _ s (recAccepted_respond b (.recon pol m n) s)
  | recAnomaly pol m n => exact unitStep_respond b _ s (recAccepted_respond b (.anomaly pol m n) s)
  | recEnd => exact unitStep_respond b _ s (recAccepted_respond b .fin s)

/-- The same of a CMD write. -/
theorem executeCommand_respond (b : BusResponse) (v : Word) (s : State) :
    executeCommand exec v (respond b s) = mapNext (respond b) (executeCommand exec v s) := by
  unfold executeCommand
  cases decodeCmd v with
  | ok i => exact exec_respond b i s
  | error why => exact runCommand_respond b _ s rfl

/-- The same of every action but a host access. -/
theorem act_respond (b : BusResponse) (a : Action) (s : State) (hr : ∀ size off, a ≠ .hostRead size off)
    (hw : ∀ size off v, a ≠ .hostWrite size off v) : act exec a (respond b s) = mapNext (respond b) (act exec a s) := by
  cases a with
  | hostRead => exact absurd rfl (hr _ _)
  | hostWrite => exact absurd rfl (hw _ _ _)
  | tx => simp only [act, txAgent, respond_tx]; cases s.tx.offered; exacts [rfl, exec_respond ..]
  | rx => simp only [act, rxAgent, respond_env_capIn]; cases s.env.capIn; exacts [rfl, exec_respond ..]
  | edgeIntake => simp only [act, intakeAgent, respond_env_edgeIn]; cases s.env.edgeIn; exacts [rfl, exec_respond ..]
  | gapEdge =>
    simp only [act, gapEdgeStep, respond_gap]; split
    exacts [rfl, unitStep_respond _ _ _ (edgeTaken_respond ..)]
  | gapSilence => exact unitStep_respond _ _ _ (silenceClosed_respond ..)
  | taToken => simp only [act, tokenAgent, respond_env_trcIn]; cases s.env.trcIn; exacts [rfl, exec_respond ..]
  | taEmit => simp only [act, emitAgent, respond_ta]; cases s.ta.out; exacts [rfl, exec_respond ..]
  | rst v => cases v <;> rfl
  | _ => rfl

end Sys2Proof.Machine
end

