-- ==== Sys2Proof/Laws/PerInstr.lean ====
section
/-! SUPPORT. Statements made per instruction. Family OpcodeRow: the encoded word of an instruction is a word of its row
of spec/opcode_table.json, its bits under the row's mask being the row's match. -/

namespace Sys2Proof.Laws

/-- The word under a mask is a match, the numbers as spec/opcode_table.json gives them. -/
def masked : PortWord → (mask value : Nat) → Prop
  | .cmd w, mask, value => w &&& BitVec.ofNat 32 mask = BitVec.ofNat 32 value
  | .drv w, mask, value => w &&& BitVec.ofNat 32 mask = BitVec.ofNat 32 value
  | .cap w, mask, value => w &&& BitVec.ofNat 34 mask = BitVec.ofNat 34 value
  | .edge w, mask, value => w &&& BitVec.ofNat 33 mask = BitVec.ofNat 33 value
  | .trc w, mask, value => w &&& BitVec.ofNat 9 mask = BitVec.ofNat 9 value
  | .record w, mask, value => w &&& BitVec.ofNat 64 mask = BitVec.ofNat 64 value

/-- The mask and match of an instruction's row of spec/opcode_table.json. -/
def tableRow : Instr → Nat × Nat
  | .nop _ _ => (0xFFFF00FF, 0x00000000)
  | .nominal _ _ => (0xFFFF00FF, 0x00000001)
  | .window _ _ => (0xFFFF00FF, 0x00000002)
  | .matchSym _ _ => (0xFFFF00FF, 0x00000003)
  | .nearest _ _ => (0xFFFF00FF, 0x00000004)
  | .symbol _ _ => (0xFFFF00FF, 0x00000005)
  | .txStart _ _ => (0xFFFF00FF, 0x00000010)
  | .rxStart _ _ => (0xFFFF00FF, 0x00000020)
  | .rxStop _ _ => (0xFFFF00FF, 0x00000021)
  | .gapStart _ _ => (0xFFFF00FF, 0x00000030)
  | .gapStop _ _ => (0xFFFF00FF, 0x00000031)
  | .gapAck _ _ => (0xFFFF00FF, 0x00000032)
  | .taStart _ _ => (0xFFFF00FF, 0x00000040)
  | .drvDisable => (0xFFFFFFFF, 0x00000000)
  | .drvEnable => (0xFFFFFFFF, 0x40000000)
  | .drvDelay _ => (0xFF000000, 0x80000000)
  | .capPulse _ _ => (0x200000000, 0x000000000)
  | .capTimeout _ _ => (0x200000000, 0x200000000)
  | .edge _ _ => (0x000000000, 0x000000000)
  | .trcByte _ => (0x100, 0x000)
  | .trcEnd _ => (0x100, 0x100)
  | .recRecon _ _ _ => (0xC00000000000FFFF, 0x0000000000000000)
  | .recAnomaly _ _ _ => (0xC00000000000FFFF, 0x4000000000000000)
  | .recEnd => (0xFFFFFFFFFFFFFFFF, 0x8000000000000000)

namespace OpcodeRow

/-- An instruction's word is a word of its row. -/
def Statement (i : Instr) : Prop := masked (encode i) (tableRow i).1 (tableRow i).2

/-- The opcode and the reserved bits of a command word are what its mask keeps. -/
theorem cmdWord_masked (op : BitVec 8) (p k : BitVec 4) : cmdWord op p k &&& 0xFFFF00FF#32 = op.setWidth 32 := by
  apply BitVec.eq_of_getLsbD_eq
  intro i hi
  have hm : ∀ j, j < 32 → (0xFFFF00FF#32).getLsbD j = (decide (j < 8) || decide (16 ≤ j)) := by decide
  rw [BitVec.getLsbD_and, hm i hi]
  simp only [cmdWord, BitVec.getLsbD_append, BitVec.getLsbD_setWidth]
  by_cases h8 : i < 8
  · rw [if_pos h8, decide_eq_true h8, decide_eq_true hi]; simp
  · rw [if_neg h8, decide_eq_false h8, BitVec.getLsbD_of_ge op i (by omega)]
    by_cases h16 : 16 ≤ i
    · rw [if_neg (by omega), if_neg (by omega)]; simp
    · rw [decide_eq_false h16]; simp

theorem nop (p k : BitVec 4) : Statement (.nop p k) := cmdWord_masked 0x00#8 p k
theorem nominal (p k : BitVec 4) : Statement (.nominal p k) := cmdWord_masked 0x01#8 p k
theorem window (p k : BitVec 4) : Statement (.window p k) := cmdWord_masked 0x02#8 p k
theorem matchSym (p k : BitVec 4) : Statement (.matchSym p k) := cmdWord_masked 0x03#8 p k
theorem nearest (p k : BitVec 4) : Statement (.nearest p k) := cmdWord_masked 0x04#8 p k
theorem symbol (p k : BitVec 4) : Statement (.symbol p k) := cmdWord_masked 0x05#8 p k
theorem txStart (p k : BitVec 4) : Statement (.txStart p k) := cmdWord_masked 0x10#8 p k
theorem rxStart (p k : BitVec 4) : Statement (.rxStart p k) := cmdWord_masked 0x20#8 p k
theorem rxStop (p k : BitVec 4) : Statement (.rxStop p k) := cmdWord_masked 0x21#8 p k
theorem gapStart (p k : BitVec 4) : Statement (.gapStart p k) := cmdWord_masked 0x30#8 p k
theorem gapStop (p k : BitVec 4) : Statement (.gapStop p k) := cmdWord_masked 0x31#8 p k
theorem gapAck (p k : BitVec 4) : Statement (.gapAck p k) := cmdWord_masked 0x32#8 p k
theorem taStart (p k : BitVec 4) : Statement (.taStart p k) := cmdWord_masked 0x40#8 p k
theorem drvDisable : Statement .drvDisable := rfl
theorem drvEnable : Statement .drvEnable := rfl

theorem drvDelay (n : BitVec 24) : Statement (.drvDelay n) := by
  apply BitVec.eq_of_getLsbD_eq
  intro i hi
  have hm : ∀ j, j < 32 → (BitVec.ofNat 32 0xFF000000).getLsbD j = decide (24 ≤ j) := by decide
  have hv : ∀ j, j < 32 → (BitVec.ofNat 32 0x80000000).getLsbD j = (decide (24 ≤ j) && (0x80#8).getLsbD (j - 24)) := by
    decide
  show (delayWord n &&& BitVec.ofNat 32 0xFF000000).getLsbD i = (BitVec.ofNat 32 0x80000000).getLsbD i
  rw [BitVec.getLsbD_and, hm i hi, hv i hi, delayWord, BitVec.getLsbD_append]
  by_cases h : i < 24
  · rw [decide_eq_false (by omega : ¬ 24 ≤ i)]; simp
  · rw [if_neg h]; simp [Bool.and_comm]

/-- Only the top bit of a CAP word is under its mask. -/
theorem capWord_masked (t : BitVec 1) (pol : Polarity) (dur : Word) (v : BitVec 34)
    (hv : ∀ j, j < 34 → v.getLsbD j = (decide (j = 33) && t.getLsbD 0)) :
    capWord t pol dur &&& 0x200000000#34 = v := by
  apply BitVec.eq_of_getLsbD_eq
  intro i hi
  have hm : ∀ j, j < 34 → (0x200000000#34).getLsbD j = decide (j = 33) := by decide
  rw [BitVec.getLsbD_and, hm i hi, hv i hi]
  by_cases h : i = 33
  · subst h; simp only [capWord, BitVec.getLsbD_append, Bool.and_comm]; rfl
  · simp [h]

theorem capPulse (pol : Polarity) (dur : Word) : Statement (.capPulse pol dur) :=
  capWord_masked 0#1 pol dur 0#34 (by decide)

theorem capTimeout (pol : Polarity) (dur : Word) : Statement (.capTimeout pol dur) :=
  capWord_masked 1#1 pol dur 0x200000000#34 (by decide)

theorem edge (pol : Polarity) (ts : Word) : Statement (.edge pol ts) := BitVec.and_zero

/-- Only the top bit of a TRC token is under its mask. -/
theorem trcWord_masked (e : BitVec 1) (data : Byte) (v : BitVec 9)
    (hv : ∀ j, j < 9 → v.getLsbD j = (decide (j = 8) && e.getLsbD 0)) : trcWord e data &&& 0x100#9 = v := by
  apply BitVec.eq_of_getLsbD_eq
  intro i hi
  have hm : ∀ j, j < 9 → (0x100#9).getLsbD j = decide (j = 8) := by decide
  rw [BitVec.getLsbD_and, hm i hi, hv i hi]
  by_cases h : i = 8
  · subst h; simp only [trcWord, BitVec.getLsbD_append, Bool.and_comm]; rfl
  · simp [h]

theorem trcByte (data : Byte) : Statement (.trcByte data) := trcWord_masked 0#1 data 0#9 (by decide)
theorem trcEnd (data : Byte) : Statement (.trcEnd data) := trcWord_masked 1#1 data 0x100#9 (by decide)

/-- The type and the 16 zero bits of a record word are what its mask keeps. -/
theorem recWord_masked (ty : BitVec 2) (pol : Polarity) (m : BitVec 29) (n : BitVec 16) (v : BitVec 64)
    (hv : ∀ j, j < 64 → v.getLsbD j = (decide (62 ≤ j) && ty.getLsbD (j - 62))) :
    recWord ty pol m n &&& 0xC00000000000FFFF#64 = v := by
  apply BitVec.eq_of_getLsbD_eq
  intro i hi
  have hm : ∀ j, j < 64 → (0xC00000000000FFFF#64).getLsbD j = (decide (62 ≤ j) || decide (j < 16)) := by decide
  rw [BitVec.getLsbD_and, hm i hi, hv i hi]
  simp only [recWord, BitVec.getLsbD_append]
  by_cases h : 62 ≤ i
  · rw [if_neg (by omega), if_neg (by omega), if_neg (by omega), if_neg (by omega), decide_eq_true h,
      show i - 16 - 16 - 29 - 1 = i - 62 by omega]
    simp
  · by_cases h16 : i < 16
    · rw [if_pos h16]; simp [h]
    · rw [decide_eq_false h, decide_eq_false h16]; simp

theorem recRecon (pol : Polarity) (m : BitVec 29) (n : BitVec 16) : Statement (.recRecon pol m n) :=
  recWord_masked 0#2 pol m n 0#64 (by decide)

theorem recAnomaly (pol : Polarity) (m : BitVec 29) (n : BitVec 16) : Statement (.recAnomaly pol m n) :=
  recWord_masked 1#2 pol m n 0x4000000000000000#64 (by decide)

theorem recEnd : Statement .recEnd := rfl

end OpcodeRow

end Sys2Proof.Laws
end

