-- ==== Sys2Proof/Laws/Units.lean ====
section
/-! SUPPORT. One lemma per function of the units: what frames hold, what the decoder does with a list of events, what
closing a frame keeps, what a record is. -/

namespace Sys2Proof.Machine

/-! ## Frames and ops -/

/-- Every symbol of a frame has a nominal, so that no duration of a frame is the default of `symbolDuration` (log 14). -/
theorem frame_symbols_defined :
    (∀ v, ∀ x ∈ necSymbols v, (timing .nec x.2).isSome = true) ∧ ∀ k, (timing .r05d k).isSome = true := by
  refine ⟨fun v x hx => ?_, fun k => by cases k <;> rfl⟩
  simp only [necSymbols, headerSymbols, List.mem_append, List.mem_cons, List.mem_flatMap, List.not_mem_nil,
    or_false] at hx
  rcases hx with ((rfl | rfl) | ⟨i, -, hx⟩) | rfl
  · rfl
  · rfl
  · unfold bitSymbols at hx
    split at hx <;> simp only [List.mem_cons, List.not_mem_nil, or_false] at hx <;> rcases hx with rfl | rfl <;> rfl
  · rfl

/-- No nominal exceeds 9000 µs (spec/40_classifier.md R141). -/
theorem symbolDuration_le (p : Proto) (k : SymbolKind) : (symbolDuration p k).toNat ≤ 9000 := by cases p <;> cases k <;> decide

/-- One DELAY per event (spec/41_encoder.md R184). -/
theorem driverOps_countP (f : List PulseEvent) : (driverOps f).countP DriverOp.isDelay = f.length := by
  unfold driverOps
  rw [List.countP_append]
  have h1 : (finalOps f).countP DriverOp.isDelay = 0 := by
    unfold finalOps; split
    · split <;> rfl
    · rfl
  rw [h1]
  induction f with
  | nil => rfl
  | cons e es ih =>
    have h2 : (finalOps es).countP DriverOp.isDelay = 0 := by
      unfold finalOps; split
      · split <;> rfl
      · rfl
    have := ih h2
    simp only [List.flatMap_cons, List.countP_append, List.length_cons] at this ⊢
    have h3 : (eventOps e).countP DriverOp.isDelay = 1 := by unfold eventOps; split <;> rfl
    omega

theorem frame_dur (p : Proto) (x : Word) : ∀ e ∈ frame p x, e.dur.toNat ≤ 9000 := by
  intro e he
  cases p with
  | nec =>
    simp only [frame, encodeNEC, List.mem_map] at he
    obtain ⟨y, _, rfl⟩ := he
    exact symbolDuration_le _ _
  | r05d =>
    simp only [frame, encodeR05D, List.mem_append, List.mem_map] at he
    rcases he with ⟨y, _, rfl⟩ | ⟨y, _, rfl⟩ <;> exact symbolDuration_le _ _

theorem bitSymbols_length (b : Bool) : (bitSymbols b).length = 2 := by cases b <;> rfl
/-- A NEC frame has 67 events, an R05D frame 200 (spec/30_encoding.md R115, R116). -/
theorem frame_length (p : Proto) (x : Word) : (frame p x).length = match p with | .nec => 67 | .r05d => 200 := by
  cases p with
  | nec => simp [frame, encodeNEC, necSymbols, headerSymbols, List.length_flatMap, bitSymbols_length]
  | r05d => simp [frame, encodeR05D, subFrameSymbols, headerSymbols, subFrameBytes, byteSymbols,
    bitSymbols_length]

/-! ## The decoder over a list of events -/

@[simp] theorem feedFrame_nil (p : Proto) (d : DecState) : feedFrame p d [] = d := rfl

/-- A terminal decoder takes no more events. -/
theorem feedFrame_terminal {p : Proto} {d : DecState} (h : d.st.terminal = true) (b : List PulseEvent) :
    feedFrame p d b = d := by
  cases b with
  | nil => rfl
  | cons e es => simp [feedFrame, h]

theorem feedFrame_cons {p : Proto} {d : DecState} (h : d.st.terminal = false) (e : PulseEvent) (es : List PulseEvent) :
    feedFrame p d (e :: es) = feedFrame p (rxStep p d (.pulse e.pol e.dur)) es := by simp [feedFrame, h]

/-- Feeding is done event by event. -/
theorem feedFrame_append (p : Proto) (b c : List PulseEvent) (d : DecState) :
    feedFrame p d (b ++ c) = feedFrame p (feedFrame p d b) c := by
  induction b generalizing d with
  | nil => rfl
  | cons e es ih =>
    cases h : d.st.terminal
    · rw [List.cons_append, feedFrame_cons h, feedFrame_cons h, ih]
    · rw [feedFrame_terminal h, feedFrame_terminal h, feedFrame_terminal h]

/-! ## Closing a frame -/

/-- Closing a frame touches no other unit, nothing at the boundary, and empties the interval buffer. -/
theorem closeFrame_kept (s : State) :
    (closeFrame s).tx = s.tx ∧ (closeFrame s).rx = s.rx ∧ (closeFrame s).ta = s.ta ∧ (closeFrame s).env = s.env ∧
      (closeFrame s).gap.en = s.gap.en ∧ (closeFrame s).gap.q = s.gap.q ∧ (closeFrame s).gap.buf = [] ∧
      (closeFrame s).gap.haveLast = s.gap.haveLast := by
  unfold closeFrame; simp only; split
  · simp
  · unfold publish; split <;> simp

/-! ## Records -/

/-- A merged run gives RECON or ANOMALY, never END. -/
theorem recordOf_ne_fin (t : TaUnit) (pol : Polarity) (n : Word) : recordOf t pol n ≠ .fin := by
  unfold recordOf; simp only; split <;> simp

end Sys2Proof.Machine
end

