-- ==== Sys2Proof/Laws/Sound.lean ====
section
/-! SUPPORT. What each operation of a unit does to the soundness of that unit (Safety.lean), one lemma per operation. -/

namespace Sys2Proof.Machine

/-! ## Host registers -/

/-- Setting an interrupt bit that exists keeps the reserved bits 0. -/
theorem HostRegs.Sound.raise {r : HostRegs} (h : r.Sound) (src : IrqSource) : (r.raiseIrq src).Sound := by
  refine ⟨h.1, h.2, ?_⟩
  have h3 := h.3
  simp only [HostRegs.raiseIrq]
  apply BitVec.eq_of_getLsbD_eq
  intro i hi
  have := congrArg (fun x => x.getLsbD i) h3
  simp only [BitVec.getLsbD_and, BitVec.getLsbD_or] at this ⊢
  have hm : (src.mask.getLsbD i && irqBits.getLsbD i) = src.mask.getLsbD i := by
    rw [← BitVec.getLsbD_and]; cases src <;> rfl
  rw [Bool.and_or_distrib_right, this, hm]

/-- Writing CSTAT touches no reserved bit. -/
theorem HostRegs.Sound.status {r : HostRegs} (h : r.Sound) (c : CmdStatus) (op : BitVec 8) :
    ({ r with err := c, lastOp := op }).Sound := ⟨h.1, h.2, h.3⟩

theorem and_idem_mask (v m : Word) : v &&& m &&& m = v &&& m := by rw [BitVec.and_assoc, BitVec.and_self]

/-- A register write stores no reserved bit. -/
theorem HostRegs.Sound.write {r : HostRegs} (h : r.Sound) (a : BitVec 8) (v : Word) : (r.write a v).Sound := by
  unfold HostRegs.write
  (repeat' split)
  all_goals first
    | exact h
    | exact ⟨h.1, h.2, h.3⟩
    | exact ⟨and_idem_mask _ _, h.2, h.3⟩
    | exact ⟨h.1, and_idem_mask _ _, h.3⟩
    | skip
  refine ⟨h.1, h.2, ?_⟩
  show r.irqstat &&& _ &&& irqBits = _
  rw [BitVec.and_assoc, BitVec.and_comm _ irqBits, ← BitVec.and_assoc, h.3]

/-! ## The decoder -/

theorem DecState.Sound.armed (p : Proto) : DecState.armed.Sound p := by
  cases p <;> refine ⟨?_, ?_, ?_, ?_, ?_, ?_, ?_⟩ <;> decide
theorem DecState.Sound.idle (p : Proto) : DecState.idle.Sound p := by
  cases p <;> refine ⟨?_, ?_, ?_, ?_, ?_, ?_, ?_⟩ <;> decide

/-- A failure from a state other than Done. -/
theorem DecState.Sound.failWith {p : Proto} {d : DecState} (h : d.Sound p) (hw : d.st ≠ .done) (code : FailCode)
    (hc : code ≠ .none) (j : Nat) (hj : j ≤ nbits p) : (d.failWith code j).Sound p := by
  refine ⟨hj, ?_, ?_, ?_, ?_, ?_, ?_⟩ <;> simp [hc]
  cases hw' : d.warn
  · rfl
  · exact absurd (h.warn_done hw') hw

theorem nbits_pos (p : Proto) : 0 < nbits p := by cases p <;> decide

/-- Every input keeps the decoder's state sound (spec/42_decoder.md R215 to R221). -/
theorem rxStep_sound {p : Proto} {d : DecState} (h : d.Sound p) (ev : DecEvent) : (rxStep p d ev).Sound p := by
  obtain ⟨st, i, acc, fail, warn⟩ := d
  have hw := h.warn_done
  have hf := h.fail_failed
  have hi := h.index_bound
  cases st
  case idle => exact h
  case done => exact h
  case failed => exact h
  all_goals
    simp at hw hf
    subst hw; subst hf
    first
    | (have h0 := h.index_start; simp at h0; subst h0)
    | (have h0 := h.index_bits; simp at h0)
  case awaitHeaderMark =>
    cases ev with
    | pulse pol dur =>
      cases pol
      · exact h
      · simp only [rxStep, stepHeaderMark]
        split
        · refine ⟨?_, ?_, ?_, ?_, ?_, ?_, ?_⟩ <;> simp
        · exact h.failWith (by simp) _ (by simp) _ (by simp)
    | timeout => exact h
    | endOfInput => exact h.failWith (by simp) _ (by simp) _ (by simp)
  case awaitHeaderSpace =>
    cases ev with
    | pulse pol dur =>
      cases pol
      · simp only [rxStep, stepHeaderSpace]
        split
        · refine ⟨?_, ?_, ?_, ?_, ?_, ?_, ?_⟩ <;> simp [nbits_pos]
        · exact h.failWith (by simp) _ (by simp) _ (by simp)
      · exact h.failWith (by simp) _ (by simp) _ (by simp)
    | timeout => exact h.failWith (by simp) _ (by simp) _ (by simp)
    | endOfInput => exact h.failWith (by simp) _ (by simp) _ (by simp)
  case awaitBitMark =>
    cases ev with
    | pulse pol dur =>
      cases pol
      · exact h.failWith (by simp) _ (by simp) _ hi
      · simp only [rxStep, stepBitMark]
        split
        · refine ⟨?_, ?_, ?_, ?_, ?_, ?_, ?_⟩ <;> simp [h0]; exact hi
        · exact h.failWith (by simp) _ (by simp) _ hi
    | timeout => exact h.failWith (by simp) _ (by simp) _ hi
    | endOfInput => exact h.failWith (by simp) _ (by simp) _ hi
  case awaitBitSpace =>
    have ha : ∀ b, (acceptBit p ⟨.awaitBitSpace, i, acc, .none, false⟩ b).Sound p := by
      intro b
      unfold acceptBit
      split
      · rename_i he
        refine ⟨?_, ?_, ?_, ?_, ?_, ?_, ?_⟩ <;> simp
        all_goals simp only at he; omega
      · rename_i he
        refine ⟨?_, ?_, ?_, ?_, ?_, ?_, ?_⟩ <;> simp
        all_goals simp only at he; omega
    cases ev with
    | pulse pol dur =>
      cases pol
      · simp only [rxStep, stepBitSpace]
        split
        · exact ha _
        · split
          · exact ha _
          · exact h.failWith (by simp) _ (by simp) _ hi
      · exact h.failWith (by simp) _ (by simp) _ hi
    | timeout => exact h.failWith (by simp) _ (by simp) _ hi
    | endOfInput => exact h.failWith (by simp) _ (by simp) _ hi
  case awaitStop =>
    have hd : ∀ b, DecState.Sound p ⟨.done, i, acc, .none, b⟩ := by
      intro b
      have h0 := h.index_stop (.inl rfl)
      simp only at h0
      refine ⟨?_, ?_, ?_, ?_, ?_, ?_, ?_⟩ <;> simp [h0]
    cases ev with
    | pulse pol dur => cases pol <;> exact hd _
    | timeout => exact hd _
    | endOfInput => exact hd _

theorem feedFrame_sound {p : Proto} (b : List PulseEvent) : ∀ {d : DecState}, d.Sound p → (feedFrame p d b).Sound p := by
  induction b with
  | nil => exact fun h => h
  | cons e es ih => intro d h; simp only [feedFrame]; split; exact h; exact ih (rxStep_sound h _)

theorem decodeFrame_sound (p : Proto) (b : List PulseEvent) : (decodeFrame p b).Sound p := by
  unfold decodeFrame
  simp only
  split
  · exact feedFrame_sound b (.armed p)
  · exact rxStep_sound (feedFrame_sound b (.armed p)) _

theorem gapResultOf_sound {p : Proto} {d : DecState} (h : d.Sound p) (o : Bool) : (gapResultOf p d o).Sound := by
  refine ⟨?_, ?_, ?_⟩
  · intro hf
    simp only [gapResultOf, decide_eq_true_eq] at hf ⊢
    refine ⟨by simp [hf], by simp [hf], ?_⟩
    cases hw : d.warn
    · rfl
    · have := h.warn_done hw; rw [hf] at this; cases this
  · simp only [gapResultOf, decide_eq_true_eq]; exact h.fail_failed.symm
  · have := h.index_bound; cases p <;> simp [nbits] at this <;> simp [gapResultOf] <;> omega

/-! ## The GAP framer -/

/-- Closing a frame keeps the framer sound, with or without a result. -/
theorem GapUnit.Sound.closeFrame {s : State} (h : s.gap.Sound) : (closeFrame s).gap.Sound := by
  unfold Machine.closeFrame
  simp only
  have key : ∀ t : State,
      t.gap = s.gap ∨ t.gap = { s.gap with resultOverrun := true } ∨
        (s.gap.haveLast = true ∧ ∃ r, r.Sound ∧ t.gap = { s.gap with result := some r }) →
      ({ t.gap with buf := [], bufOvf := false } : GapUnit).Sound := by
    intro t ht
    rcases ht with ht | ht | ⟨hl, r, hr, ht⟩ <;> rw [ht] <;>
      refine ⟨h.q_bound, by simp, by simp, ?_, by simp, ?_⟩
    · exact h.disabled_empty
    · exact h.result_sound
    · exact h.disabled_empty
    · exact h.result_sound
    · intro he; have := (h.disabled_empty he).2.1; rw [hl] at this; cases this
    · simp; exact hr
  apply key
  split
  · exact .inl rfl
  · rename_i e es hb
    unfold publish
    split
    · exact .inr (.inl rfl)
    · refine .inr (.inr ⟨?_, _, gapResultOf_sound (decodeFrame_sound _ _) _, rfl⟩)
      cases hl : s.gap.haveLast
      · have := h.closed_empty hl; rw [hb] at this; cases this
      · rfl

theorem closeFrame_host {s : State} (h : s.host.Sound) : (closeFrame s).host.Sound := by
  unfold closeFrame; simp only; split; exact h; unfold publish; split <;> exact h.raise _

theorem GapUnit.Sound.last {g : GapUnit} (h : g.Sound) (ts : Word) (p : Polarity) :
    ({ g with lastTs := ts, lastPol := p } : GapUnit).Sound :=
  ⟨h.1, h.2, h.3, h.4, h.5, h.6⟩

/-- The edge step keeps a sound state (spec/43_gap_framer.md R256). -/
theorem edgeTaken_sound {s : State} (h : s.Sound) (e : EdgeEvent) (he : s.gap.en = true) :
    (edgeTaken Config.frameBufDepth e s).Sound := by
  have hq : ({ s.gap with q := s.gap.q.tail } : GapUnit).Sound := by
    refine ⟨?_, h.gap_sound.2, h.gap_sound.3, ?_, h.gap_sound.5, h.gap_sound.6⟩
    · have := h.gap_sound.q_bound; simp; omega
    · simp [he]
  unfold edgeTaken frameEdge
  simp only
  split
  · rename_i hl
    have hl : s.gap.haveLast = false := by simpa using hl
    refine ⟨h.1, h.2, h.3, ?_, h.5⟩
    apply GapUnit.Sound.last
    refine ⟨hq.1, h.gap_sound.2, h.gap_sound.3, ?_, by simp, h.gap_sound.6⟩
    simp [he]
  · split
    · refine ⟨closeFrame_host h.1, ?_, ?_, ?_, ?_⟩
      · show (Machine.closeFrame _).tx.Sound; rw [(closeFrame_kept _).1]; exact h.2
      · show (Machine.closeFrame _).rx.Sound; rw [(closeFrame_kept _).2.1]; exact h.3
      · exact GapUnit.Sound.last
          (GapUnit.Sound.closeFrame (s := { s with gap := { s.gap with q := s.gap.q.tail } }) hq) _ _
      · show (Machine.closeFrame _).ta.Sound; rw [(closeFrame_kept _).2.2.1]; exact h.5
    · rename_i hl _
      have hl : s.gap.haveLast = true := by simpa using hl
      unfold appendInterval
      split
      · rename_i hr
        rw [hasRoom_iff] at hr
        refine ⟨h.1, h.2, h.3, ?_, h.5⟩
        apply GapUnit.Sound.last
        refine ⟨hq.1, ?_, ?_, ?_, ?_, hq.6⟩
        · simp at hr ⊢; omega
        · intro ho; have := hq.3 ho; simp at this hr; omega
        · simp [he]
        · simp [hl]
      · rename_i hr
        rw [hasRoom_iff] at hr
        refine ⟨h.1, h.2, h.3, ?_, h.5⟩
        apply GapUnit.Sound.last
        refine ⟨hq.1, hq.2, ?_, hq.4, hq.5, hq.6⟩
        intro _; have := hq.buf_bound; simp at this hr ⊢; omega

/-- The silence step keeps a sound state (spec/43_gap_framer.md R258). -/
theorem silenceClosed_sound {s : State} (h : s.Sound) : (silenceClosed s).Sound := by
  unfold silenceClosed
  simp only
  have hk := closeFrame_kept s
  have hg := h.gap_sound.closeFrame
  refine ⟨closeFrame_host h.1, hk.1 ▸ h.2, hk.2.1 ▸ h.3, ?_, hk.2.2.1 ▸ h.5⟩
  refine ⟨hg.1, hg.2, hg.3, ?_, ?_, hg.6⟩
  · intro he; exact ⟨(hg.disabled_empty he).1, rfl, (hg.disabled_empty he).2.2⟩
  · intro _; exact hk.2.2.2.2.2.2.1

/-- The intake keeps a sound state (spec/43_gap_framer.md R255). -/
theorem intake_sound {s : State} (h : s.Sound) (e : EdgeEvent) : (intakeEdge Config.edgeQDepth e s).Sound := by
  have hg := h.gap_sound
  unfold intakeEdge
  split
  · exact h
  · rename_i he
    have he : s.gap.en = true := by simpa using he
    split
    · rename_i hr
      rw [hasRoom_iff] at hr
      refine ⟨h.1, h.2, h.3, ⟨?_, hg.2, hg.3, ?_, hg.5, hg.6⟩, h.5⟩
      · simp; omega
      · simp [he]
    · exact ⟨h.1.raise _, h.2, h.3, ⟨hg.1, hg.2, hg.3, hg.4, hg.5, hg.6⟩, h.5⟩

/-! ## The TX sequencer -/

/-- An accepted op keeps a sound state (spec/41_encoder.md R185). -/
theorem txAccepted_sound {s : State} (h : s.Sound) {op : DriverOp} (ho : s.tx.offered = some op) :
    (txAccepted op s).Sound := by
  have ht := h.tx_sound
  have hst : s.tx.st = .emitting ∧ s.tx.ops[s.tx.opi]? = some op := by
    unfold TxUnit.offered at ho; split at ho
    · cases ho
    · exact ⟨‹_›, ho⟩
  have hlt := ht.emitting_in_frame hst.1
  have htake : s.tx.ops.take (s.tx.opi + 1) = s.tx.ops.take s.tx.opi ++ [op] := by
    rw [List.take_add_one, hst.2]; rfl
  have hcount : (s.tx.advance op).events.toNat =
      ((s.tx.advance op).ops.take (s.tx.advance op).opi).countP DriverOp.isDelay := by
    simp only [TxUnit.advance_events, TxUnit.advance_opi, TxUnit.advance_ops]
    rw [htake, List.countP_append]
    have hle : (s.tx.ops.take (s.tx.opi+1)).countP DriverOp.isDelay ≤ 200 :=
      Nat.le_trans (List.Sublist.countP_le (List.take_sublist _ _)) ht.events_bound
    rw [htake, List.countP_append] at hle
    have := ht.events_count
    by_cases hd : op.isDelay = true
    · simp [hd] at hle ⊢; rw [satInc16_toNat]; omega
    · simp [hd]; omega
  unfold txAccepted
  simp only
  split
  · refine ⟨h.1.raise _, ⟨?_, ?_, hcount, ht.events_bound, ht.delays_nominal⟩, h.3, h.4, h.5⟩
    · simp
    · simp
  · rename_i hx
    have hx' : ¬ s.tx.opi + 1 = s.tx.ops.length := fun he => hx (by simp [TxUnit.exhausted, he])
    refine ⟨h.1, ⟨?_, ?_, hcount, ht.events_bound, ht.delays_nominal⟩, h.3, h.4, h.5⟩
    · intro _; simp; omega
    · intro hdn; simp at hdn; have := ht.done_idle hdn; rw [hst.1] at this; cases this

/-- A frame that starts is sound (spec/41_encoder.md R186). -/
theorem txStart_sound (p : Proto) (x : Word) : (TxUnit.start p x).Sound := by
  refine ⟨?_, by simp [TxUnit.start], by simp [TxUnit.start], ?_, ?_⟩
  · intro _
    show 0 < (driverOps (frame p x)).length
    have := driverOps_countP (frame p x)
    rw [frame_length] at this
    have h2 := List.countP_le_length (p := DriverOp.isDelay) (l := driverOps (frame p x))
    cases p <;> simp at this <;> omega
  · show (driverOps (frame p x)).countP _ ≤ 200
    rw [driverOps_countP, frame_length]; cases p <;> simp
  · intro n hn
    simp only [TxUnit.start, driverOps, List.mem_append, List.mem_flatMap] at hn
    rcases hn with ⟨e, he, hn⟩ | hn
    · have := frame_dur p x e he
      unfold eventOps at hn
      split at hn <;> simp at hn <;> subst hn <;> simp <;> omega
    · unfold finalOps at hn
      split at hn
      · split at hn <;> simp at hn
      · simp at hn

/-! ## The RX unit -/

/-- A consumed CAP word keeps a sound state (spec/42_decoder.md R214). -/
theorem rxConsumed_sound {s : State} (h : s.Sound) (hr : s.rx.dec.st.running = true) (ev : DecEvent) :
    (rxConsumed ev s).Sound := by
  have hrx := h.rx_sound
  have hnd : s.rx.dec.st ≠ .done := by intro hd; rw [hd] at hr; cases hr
  have hs : (s.rx.consume ev).Sound := by
    unfold RxUnit.consume
    simp only
    split
    · rename_i hd
      exact ⟨rxStep_sound hrx.1 _, fun _ => ⟨rfl, rfl⟩, fun hn => absurd hd hn⟩
    · rename_i hd
      exact ⟨rxStep_sound hrx.1 _, fun hn => absurd hn hd, fun _ => hrx.data_zero hnd⟩
  unfold rxConsumed
  simp only
  split
  · exact ⟨h.1.raise _, h.2, hs, h.4, h.5⟩
  · exact ⟨h.1, h.2, hs, h.4, h.5⟩

/-! ## The TA unit -/

/-- A TA unit amid a token: at most k records wait, none of them END. -/
structure TaMid (t : TaUnit) (k : Nat) : Prop where
  out_bound : t.out.length ≤ k
  no_fin : Record.fin ∉ t.out
  leading : t.curValid = true → t.preCnt = 0#32

/-- The fields no token touches. -/
abbrev TaKept (u t : TaUnit) : Prop :=
  u.busy = t.busy ∧ u.done = t.done ∧ u.anomalies = t.anomalies ∧ u.runs = t.runs

/-- Finishing a raw run forms at most one record (spec/44_trace_analyzer.md R295). -/
theorem finishRaw_mid {t : TaUnit} {k : Nat} (h : TaMid t k) (rp : Polarity) (rc : Word) :
    TaMid (t.finishRaw rp rc) (k + 1) ∧ TaKept (t.finishRaw rp rc) t := by
  unfold TaUnit.finishRaw
  split
  · split
    · exact ⟨⟨Nat.le_succ_of_le h.1, h.2, by simp_all⟩, rfl, rfl, rfl, rfl⟩
    · exact ⟨⟨Nat.le_succ_of_le h.1, h.2, by simp_all⟩, rfl, rfl, rfl, rfl⟩
  · split
    · exact ⟨⟨Nat.le_succ_of_le h.1, h.2, h.3⟩, rfl, rfl, rfl, rfl⟩
    · refine ⟨⟨?_, ?_, h.3⟩, rfl, rfl, rfl, rfl⟩
      · simp only [TaUnit.formRecord, List.length_append, List.length_singleton]
        exact Nat.succ_le_succ h.1
      · simp only [TaUnit.formRecord, List.mem_append, List.mem_singleton, not_or]
        exact ⟨h.2, (recordOf_ne_fin _ _ _).symm⟩

theorem flushRaw_mid {t : TaUnit} {k : Nat} (h : TaMid t k) :
    TaMid t.flushRaw (k + 1) ∧ TaKept t.flushRaw t ∧ t.flushRaw.rawValid = false := by
  unfold TaUnit.flushRaw
  split
  · have := finishRaw_mid h t.rawPol t.rawCnt
    exact ⟨⟨this.1.1, this.1.2, this.1.3⟩, this.2, rfl⟩
  · exact ⟨⟨Nat.le_succ_of_le h.1, h.2, h.3⟩, ⟨rfl, rfl, rfl, rfl⟩, by simp_all⟩

theorem flushCur_mid {t : TaUnit} {k : Nat} (h : TaMid t k) :
    TaMid t.flushCur (k + 1) ∧ TaKept t.flushCur t ∧ t.flushCur.rawValid = t.rawValid ∧ t.flushCur.curValid = false := by
  unfold TaUnit.flushCur
  split
  · refine ⟨⟨?_, ?_, by simp⟩, ⟨rfl, rfl, rfl, rfl⟩, rfl, rfl⟩
    · simp only [TaUnit.formRecord_out, List.length_append, List.length_singleton]
      exact Nat.succ_le_succ h.1
    · simp only [TaUnit.formRecord_out, List.mem_append, List.mem_singleton, not_or]
      exact ⟨h.2, (recordOf_ne_fin _ _ _).symm⟩
  · exact ⟨⟨Nat.le_succ_of_le h.1, h.2, h.3⟩, ⟨rfl, rfl, rfl, rfl⟩, rfl, by simp_all⟩

/-- A token keeps the TA unit sound (spec/44_trace_analyzer.md R291 to R298). -/
theorem tokenIn_sound {t : TaUnit} (h : t.Sound) (hb : t.busy = true) (ho : t.out = []) (w : BitVec 9) :
    (tokenIn w t).Sound := by
  have h0 : TaMid t 0 := ⟨by simp [ho], by simp [ho], h.leading_glitches⟩
  unfold tokenIn
  split
  · have h1 := flushRaw_mid h0
    have h2 := flushCur_mid h1.1
    unfold TaUnit.endOfTrace
    simp only
    obtain ⟨⟨a1, a2, -⟩, ⟨b, d, an, ru⟩, rv, cv⟩ := h2
    obtain ⟨-, ⟨b', d', an', ru'⟩, rv'⟩ := h1
    rw [b'] at b; rw [d'] at d; rw [an'] at an; rw [ru'] at ru; rw [rv'] at rv
    generalize t.flushRaw.flushCur = u at *
    refine ⟨?_, ?_, ?_, ?_, ?_, ?_, ?_⟩
    · simp only [List.length_append, List.length_singleton]; omega
    · simp [b, hb]
    · simpa using a2
    · simp [rv, cv]
    · simp only [b, d]; exact h.done_idle
    · simp
    · simp only [an, ru]; exact h.anomalies_runs
  · have h1 : ∀ u : TaUnit, TaMid u 1 → TaKept u t → u.Sound := by
      intro u hm ⟨b, d, an, ru⟩
      refine ⟨Nat.le_trans hm.1 (by decide), ?_, ?_, ?_, ?_, hm.3, ?_⟩
      · simp [b, hb]
      · exact fun hf => hm.2 (List.mem_of_mem_dropLast hf)
      · exact fun hf => absurd hf hm.2
      · rw [b, d]; exact h.done_idle
      · rw [an, ru]; exact h.anomalies_runs
    unfold TaUnit.byteIn
    split
    · exact h1 _ ⟨by simp [ho], h0.2, h0.3⟩ ⟨rfl, rfl, rfl, rfl⟩
    · unfold TaUnit.sampleIn
      split
      · exact h1 _ ⟨by simp [ho], h0.2, h0.3⟩ ⟨rfl, rfl, rfl, rfl⟩
      · split
        · exact h1 _ ⟨by simp [ho], h0.2, h0.3⟩ ⟨rfl, rfl, rfl, rfl⟩
        · have := finishRaw_mid h0 t.rawPol t.rawCnt
          exact h1 _ ⟨this.1.1, this.1.2, this.1.3⟩ this.2

/-- An accepted record keeps a sound state (spec/44_trace_analyzer.md R299). -/
theorem recAccepted_sound {s : State} (h : s.Sound) {r : Record} {rest : List Record} (ho : s.ta.out = r :: rest) :
    (recAccepted r s).Sound := by
  have ht := h.ta_sound
  have hb : s.ta.busy = true := ht.out_busy (by simp [ho])
  have hbd := ht.out_bound
  have hf := ht.fin_last
  rw [ho] at hbd hf
  have hrest : Record.fin ∉ rest.dropLast := by
    intro hm; apply hf
    cases rest with
    | nil => simp at hm
    | cons a l => rw [List.dropLast_cons_cons]; exact List.mem_cons_of_mem _ hm
  have h1 : ∀ (an : BitVec 16) (ru : Word), an.toNat ≤ ru.toNat →
      ({ s.ta with out := rest, anomalies := an, runs := ru } : TaUnit).Sound := by
    intro an ru hle
    refine ⟨by simp at hbd ⊢; omega, by simp [hb], hrest, ?_, ht.done_idle, ht.leading_glitches, hle⟩
    intro hm; exact ht.fin_flushed (by rw [ho]; exact List.mem_cons_of_mem _ hm)
  have hle : (satInc16 s.ta.anomalies).toNat ≤ (satAdd s.ta.runs 1#32).toNat ∧
      s.ta.anomalies.toNat ≤ (satAdd s.ta.runs 1#32).toNat := by
    rw [satInc16_toNat, satAdd_toNat]
    have := ht.anomalies_runs
    have := s.ta.anomalies.isLt
    simp; omega
  unfold recAccepted
  simp only
  cases r with
  | recon pol m n =>
    refine ⟨h.1, h.2, h.3, h.4, ?_⟩
    simp only [TaUnit.count, ho, List.tail_cons]
    exact h1 s.ta.anomalies _ hle.2
  | anomaly pol m n =>
    refine ⟨h.1, h.2, h.3, h.4, ?_⟩
    simp only [TaUnit.count, ho, List.tail_cons]
    exact h1 _ _ hle.1
  | fin =>
    have hnil : rest = [] := by
      cases rest with
      | nil => rfl
      | cons a l => exfalso; apply hf; simp
    subst hnil
    refine ⟨h.1.raise _, h.2, h.3, h.4, ?_⟩
    simp only [TaUnit.count, ho, List.tail_cons]
    exact ⟨by simp, by simp, by simp, by simp, by simp, ht.leading_glitches, ht.anomalies_runs⟩

/-- A command's effect keeps a sound state. -/
theorem effect_sound {s u : State} {op : BitVec 8} (h : s.Sound) (he : CommandEffect s op u) : u.Sound := by
  cases he with
  | nop => exact h
  | result op r0 r1 ho => exact ⟨⟨h.1.1, h.1.2, h.1.3⟩, h.2, h.3, h.4, h.5⟩
  | txStart p ho => exact ⟨h.1, txStart_sound _ _, h.3, h.4, h.5⟩
  | rxStart p ho =>
    exact ⟨h.1, h.2, ⟨.armed p, by simp [RxUnit.start, DecState.armed], by simp [RxUnit.start]⟩, h.4, h.5⟩
  | rxStop => exact ⟨h.1, h.2, ⟨.idle _, by simp [RxUnit.stop, DecState.idle], by simp [RxUnit.stop]⟩, h.4, h.5⟩
  | gapStart p ho => exact ⟨h.1, h.2, h.3, by constructor <;> simp [GapUnit.start], h.5⟩
  | gapStop => exact ⟨h.1, h.2, h.3, by constructor <;> simp [GapUnit.stop], h.5⟩
  | gapAck =>
    have g := h.gap_sound
    refine ⟨h.1, h.2, h.3, ⟨g.1, g.2, g.3, fun he => ?_, g.5, by simp [GapUnit.clearResult]⟩, h.5⟩
    exact ⟨(g.4 he).1, (g.4 he).2.1, rfl⟩
  | taStart p hp ho => exact ⟨h.1, h.2, h.3, h.4, by constructor <;> simp [TaUnit.start]⟩

end Sys2Proof.Machine
end

