-- ==== Sys2Proof/Machine/Assembler.lean ====
section
/-! DEFINITION. The command syntax and the pseudo-commands (spec/30_encoding.md R120, R121), by which a program of
host accesses is written. -/

namespace Sys2Proof.Machine

/-- The protocol a name stands for (spec/30_encoding.md R120). -/
def protoNamed (n : String) : Option Proto :=
  if n = "NEC" then some .nec else if n = "R05D" then some .r05d else none

/-- The symbol kind a name stands for; LeadMark and LeadSpace are accepted (spec/30_encoding.md R120). -/
def kindNamed (n : String) : Option SymbolKind :=
  if n = "HeaderMark" ∨ n = "LeadMark" then some .headerMark
  else if n = "HeaderSpace" ∨ n = "LeadSpace" then some .headerSpace
  else if n = "Bit0Mark" then some .bit0Mark
  else if n = "Bit0Space" then some .bit0Space
  else if n = "Bit1Mark" then some .bit1Mark
  else if n = "Bit1Space" then some .bit1Space
  else if n = "StopMark" then some .stopMark
  else if n = "StopSpace" then some .stopSpace
  else none

/-- The opcode of a mnemonic without operands (spec/30_encoding.md R106, R120). -/
def plainOp (m : String) : Option (BitVec 8) :=
  if m = "NOP" then some 0x00#8
  else if m = "RX_STOP" then some 0x21#8
  else if m = "GAP_STOP" then some 0x31#8
  else if m = "GAP_ACK" then some 0x32#8
  else if m = "TA_START" then some 0x40#8
  else none

/-- The opcode of a mnemonic with a protocol (spec/30_encoding.md R106, R120). -/
def protoOp (m : String) : Option (BitVec 8) :=
  if m = "NEAREST" then some 0x04#8
  else if m = "SYMBOL" then some 0x05#8
  else if m = "TX_START" then some 0x10#8
  else if m = "RX_START" then some 0x20#8
  else if m = "GAP_START" then some 0x30#8
  else none

/-- The opcode of a mnemonic with a protocol and a kind (spec/30_encoding.md R106, R120). -/
def protoKindOp (m : String) : Option (BitVec 8) :=
  if m = "NOMINAL" then some 0x01#8
  else if m = "WINDOW" then some 0x02#8
  else if m = "MATCH" then some 0x03#8
  else none

/-- A command, its mnemonic and its operands as separate words, assembles to one CMD word
(spec/30_encoding.md R120). -/
def assemble (m : String) (operands : List String) : Option Word :=
  match operands with
  | [] => (plainOp m).map fun op => cmdWord op 0#4 0#4
  | [p] =>
    match protoOp m, protoNamed p with
    | some op, some proto => some (cmdWord op proto.code 0#4)
    | _, _ => none
  | [p, k] =>
    match protoKindOp m, protoNamed p, kindNamed k with
    | some op, some proto, some kind => some (cmdWord op proto.code kind.code)
    | _, _, _ => none
  | _ => none

/-- `wr` at an offset: one host access (spec/30_encoding.md R120). -/
def wr (a : BitVec 8) (v : Word) : Action := .hostWrite 4 a v

/-- `rd` at an offset: one host access (spec/30_encoding.md R120). -/
def rd (a : BitVec 8) : Action := .hostRead 4 a

/-- The pseudo-commands (spec/30_encoding.md R121). -/
inductive Pseudo where
  | matchCmd (p : Proto) (k : SymbolKind) (d : Word)
  | nearest (p : Proto) (d : Word)
  | symbol (p : Proto) (i : Word)
  | txNec (v : Word)
  | txR05d (a b c : Byte)
  | ackIrq (m : Word)
deriving DecidableEq, Repr

/-- The host accesses a pseudo-command expands to, in order (spec/30_encoding.md R121). -/
def Pseudo.expand : Pseudo → List Action
  | .matchCmd p k d => [wr 0x04#8 d, wr 0x00#8 (cmdWord 0x03#8 p.code k.code)]
  | .nearest p d => [wr 0x04#8 d, wr 0x00#8 (cmdWord 0x04#8 p.code 0#4)]
  | .symbol p i => [wr 0x04#8 i, wr 0x00#8 (cmdWord 0x05#8 p.code 0#4)]
  | .txNec v => [wr 0x04#8 v, wr 0x00#8 (cmdWord 0x10#8 Proto.nec.code 0#4)]
  | .txR05d a b c => [wr 0x04#8 (0#8 ++ a ++ b ++ c), wr 0x00#8 (cmdWord 0x10#8 Proto.r05d.code 0#4)]
  | .ackIrq m => [wr 0x4C#8 m]

end Sys2Proof.Machine
end

