-- ==== Sys2Proof/Tests/Slice0.lean ====
section
/-! SUPPORT. The model's own tests: ill-formed terms that WellFormed refuses, words written out from the spec's
encodings, one step on a small state with a value of spec/95_test_vectors.md, and a witness for the hypotheses of every
statement that has some. -/

namespace Sys2Proof.Tests

open Sys2Proof Sys2Proof.Machine Sys2Proof.Claims

/-! ## Helpers -/

/-- The reset state with a value in ARG. -/
def argState (v : Word) : State := { State.reset with host := { HostRegs.reset with arg := v } }

/-- The reset state with `rst` = 1. -/
def heldState : State := { State.reset with env := { Env.reset with rst := true } }

/-- The sequencer amid a frame of these ops. -/
def txState (ops : List DriverOp) : State :=
  { State.reset with tx := { TxUnit.reset with st := .emitting, ops := ops } }

/-- A decoder in a state, with words at CAP. -/
def rxState (p : Proto) (d : DecState) (ws : List (BitVec 34)) : State :=
  { State.reset with rx := { RxUnit.reset with proto := p, dec := d }, env := { Env.reset with capIn := ws } }

/-- A framer, with words at EDGE. -/
def gapState (g : GapUnit) (ws : List (BitVec 33)) : State :=
  { State.reset with gap := g, env := { Env.reset with edgeIn := ws } }

/-- A TA unit, with tokens at TRC. -/
def taState (t : TaUnit) (ws : List (BitVec 9)) : State :=
  { State.reset with ta := t, env := { Env.reset with trcIn := ws } }

/-- An analysis of R05D at the reset configuration, its seek over. -/
def analysis : TaUnit := { TaUnit.start .r05d HostRegs.reset with skip := 0#16 }

/-- One field of the state an action leads to. -/
def after {α : Type} (a : Action) (s : State) (f : State → α) : Option α :=
  match act exec a s with
  | .next t => some (f t)
  | .fault _ => none
  | .refused _ => none

/-- One field of the state after a CMD write. -/
def afterCmd {α : Type} (v : Word) (s : State) (f : State → α) : Option α := after (.hostWrite 4 0x00#8 v) s f

/-! ## WellFormed refuses -/

theorem test_wf_nominal_proto : ¬ (Instr.nominal 2#4 0#4).WellFormed := by decide
theorem test_wf_nominal_kind : ¬ (Instr.nominal 0#4 8#4).WellFormed := by decide
theorem test_wf_window_proto : ¬ (Instr.window 15#4 0#4).WellFormed := by decide
theorem test_wf_window_kind : ¬ (Instr.window 1#4 15#4).WellFormed := by decide
theorem test_wf_match_proto : ¬ (Instr.matchSym 2#4 7#4).WellFormed := by decide
theorem test_wf_match_kind : ¬ (Instr.matchSym 0#4 9#4).WellFormed := by decide
theorem test_wf_nearest_proto : ¬ (Instr.nearest 2#4 0#4).WellFormed := by decide
theorem test_wf_symbol_proto : ¬ (Instr.symbol 3#4 0#4).WellFormed := by decide
theorem test_wf_tx_start_proto : ¬ (Instr.txStart 2#4 0#4).WellFormed := by decide
theorem test_wf_rx_start_proto : ¬ (Instr.rxStart 2#4 0#4).WellFormed := by decide
theorem test_wf_gap_start_proto : ¬ (Instr.gapStart 2#4 0#4).WellFormed := by decide
theorem test_wf_delay : ¬ (Instr.drvDelay 0x10000#24).WellFormed := by decide
theorem test_wf_nop_ignores : (Instr.nop 15#4 15#4).WellFormed := by decide

/-! ## Words written out from the encodings (spec/30_encoding.md R102, R106, R110 to R114; spec/95 sections 2, 3) -/

theorem test_decode_nop : decode (.cmd 0b0000000000000000_1111_1111_00000000#32) = .ok (.nop 15#4 15#4) := by decide
theorem test_decode_nominal : decode (.cmd 0b0000000000000000_0101_0000_00000001#32) = .ok (.nominal 0#4 5#4) := by decide
theorem test_decode_window : decode (.cmd 0x00005102#32) = .ok (.window 1#4 5#4) := by decide
theorem test_decode_match : decode (.cmd 0x00005003#32) = .ok (.matchSym 0#4 5#4) := by decide
theorem test_decode_nearest : decode (.cmd 0x00000104#32) = .ok (.nearest 1#4 0#4) := by decide
theorem test_decode_symbol : decode (.cmd 0x00000105#32) = .ok (.symbol 1#4 0#4) := by decide
theorem test_decode_tx_start : decode (.cmd 0x00000110#32) = .ok (.txStart 1#4 0#4) := by decide
theorem test_decode_rx_start : decode (.cmd 0x00000120#32) = .ok (.rxStart 1#4 0#4) := by decide
theorem test_decode_rx_stop : decode (.cmd 0x00000021#32) = .ok (.rxStop 0#4 0#4) := by decide
theorem test_decode_gap_start : decode (.cmd 0x00000130#32) = .ok (.gapStart 1#4 0#4) := by decide
theorem test_decode_gap_stop : decode (.cmd 0x00000031#32) = .ok (.gapStop 0#4 0#4) := by decide
theorem test_decode_gap_ack : decode (.cmd 0x00000032#32) = .ok (.gapAck 0#4 0#4) := by decide
theorem test_decode_ta_start : decode (.cmd 0x00000040#32) = .ok (.taStart 0#4 0#4) := by decide
theorem test_decode_drv_disable : decode (.drv 0x00000000#32) = .ok .drvDisable := by decide
theorem test_decode_drv_enable : decode (.drv 0x40000000#32) = .ok .drvEnable := by decide
theorem test_decode_drv_delay : decode (.drv 0b10000000_000000000010001100101000#32) = .ok (.drvDelay 9000#24) := by decide
theorem test_decode_cap_pulse :
    decode (.cap 0b0_1_00000000000000000010001100101000#34) = .ok (.capPulse .mark 9000#32) := by decide
theorem test_decode_cap_timeout : decode (.cap 0x200000000#34) = .ok (.capTimeout .space 0#32) := by decide
theorem test_decode_edge : decode (.edge 0b1_00000000000000000000001111101000#33) = .ok (.edge .mark 1000#32) := by decide
theorem test_decode_trc_byte : decode (.trc 0b0_00000001#9) = .ok (.trcByte 1#8) := by decide
theorem test_decode_trc_end : decode (.trc 0b1_00000000#9) = .ok (.trcEnd 0#8) := by decide
theorem test_decode_rec_recon :
    decode (.record 0x2000113011300000#64) = .ok (.recRecon .mark 4400#29 4400#16) := by decide
theorem test_decode_rec_anomaly :
    decode (.record 0x6000271014640000#64) = .ok (.recAnomaly .mark 10000#29 5220#16) := by decide
theorem test_decode_rec_end : decode (.record 0x8000000000000000#64) = .ok .recEnd := by decide
theorem test_reject_reserved_first : decode (.cmd 0x00010006#32) = .error (.cmd .reservedBits) := by decide
theorem test_reject_opcode : decode (.cmd 0x00000041#32) = .error (.cmd .badOpcode) := by decide
theorem test_reject_drv : decode (.drv 0x00000001#32) = .error .neverProduced := by decide
theorem test_reject_rec : decode (.record 0x8000000000010000#64) = .error .neverProduced := by decide
theorem test_assemble : assemble "NOMINAL" ["R05D", "StopSpace"] = some 0x00007101#32 := by decide
theorem test_assemble_lead : assemble "MATCH" ["R05D", "LeadMark"] = some 0x00000103#32 := by decide
theorem test_expand : Pseudo.expand (.txR05d 0xB2#8 0x4D#8 0x1F#8) =
    [.hostWrite 4 0x04#8 0x00B24D1F#32, .hostWrite 4 0x00#8 0x00000110#32] := by decide

/-! ## One step each (spec/95_test_vectors.md, section 2) -/

theorem test_nominal : afterCmd 0x00007101#32 .reset (fun t => (t.host.cres0, t.host.cres1, cstat t.host)) =
    some (5220#32, 0#32, 0x00000100#32) := by decide
theorem test_nominal_undef :
    afterCmd 0x00007001#32 (argState 7#32) (fun t => (t.host.cres0, cstat t.host, t.host.irqstat)) =
      some (0#32, 0x00000105#32, 1#32) := by decide
theorem test_window : afterCmd 0x00005002#32 .reset (fun t => (t.host.cres0, t.host.cres1)) =
    some (1352#32, 2028#32) := by decide
theorem test_match_edge : afterCmd 0x00000003#32 (argState 10800#32) (fun t => t.host.cres0) = some 1#32 := by decide
theorem test_match_past : afterCmd 0x00000003#32 (argState 10801#32) (fun t => t.host.cres0) = some 0#32 := by decide
theorem test_nearest_tie : afterCmd 0x00000004#32 (argState 6750#32) (fun t => (t.host.cres0, t.host.cres1)) =
    some (9000#32, 2250#32) := by decide
theorem test_nearest_top : afterCmd 0x0000F004#32 (argState 0xFFFFFFFF#32) (fun t => (t.host.cres0, t.host.cres1)) =
    some (9000#32, 4294958295#32) := by decide
theorem test_symbol : afterCmd 0x00000105#32 (argState 3#32) (fun t => (t.host.cres0, t.host.cres1)) =
    some (5220#32, 4#32) := by decide
theorem test_symbol_index : afterCmd 0x00000105#32 (argState 4#32) (fun t => cstat t.host) = some 0x00000506#32 := by
  decide
theorem test_bad_proto_first : afterCmd 0x0000F201#32 .reset (fun t => cstat t.host) = some 0x00000103#32 := by decide
theorem test_reserved : afterCmd 0xFFFFFFFF#32 .reset (fun t => (cstat t.host, t.host.irqstat)) =
    some (0x0000FF01#32, 1#32) := by decide
theorem test_tx_start : afterCmd 0x00000010#32 (argState 0x00FF30CF#32)
    (fun t => (txstat t.tx, (t.tx.ops.map DriverOp.word).take 8)) =
      some (0x00000001#32, [0x40000000#32, 0x80002328#32, 0x00000000#32, 0x80001194#32, 0x40000000#32, 0x80000230#32,
        0x00000000#32, 0x8000069A#32]) := by decide
theorem test_tx_busy : afterCmd 0x00000110#32 (txState [.enable]) (fun t => (cstat t.host, txstat t.tx)) =
    some (0x00001007#32, 0x00000001#32) := by decide
theorem test_tx_last : after .tx (txState [.disable]) (fun t => (txstat t.tx, t.host.irqstat, t.env.drvOut)) =
    some (0x00000002#32, 2#32, [0x00000000#32]) := by decide
theorem test_tx_delay : after .tx (txState [.delay 9000#24, .disable]) (fun t => (txstat t.tx, t.env.drvOut)) =
    some (0x00010001#32, [0x80002328#32]) := by decide
theorem test_rx_start : afterCmd 0x00000020#32 .reset (fun t => rxstat t.rx) = some 0x00000101#32 := by decide
theorem test_rx_header_fail : after .rx (rxState .nec .armed [0x100001B58#34, 0#34])
    (fun t => (rxstat t.rx, t.host.irqstat, t.env.capIn)) = some (0x00001704#32, 4#32, [0#34]) := by decide
theorem test_rx_timeout_ignored : after .rx (rxState .nec .armed [0x200000000#34])
    (fun t => (rxstat t.rx, t.env.capIn)) = some (0x00000101#32, []) := by decide
theorem test_rx_stop : afterCmd 0x00000021#32 (rxState .r05d .armed []) (fun t => rxstat t.rx) = some 0x00000010#32 := by
  decide
theorem test_gap_start : afterCmd 0x00000130#32 .reset (fun t => (gapstat t.gap, t.gap.thr)) =
    some (0x00000011#32, 10000#32) := by decide
theorem test_gap_ack_disabled : afterCmd 0x00000032#32 .reset (fun t => (cstat t.host, gapstat t.gap)) =
    some (0x00003200#32, 0#32) := by decide
theorem test_edge_disabled : after .edgeIntake (gapState .reset [5#33]) (fun t => (t.gap, t.env.edgeIn)) =
    some (GapUnit.reset, []) := by decide
theorem test_gap_silence_discard :
    after .gapSilence
      { gapState { GapUnit.start .nec 10000#32 with haveLast := true, lastTs := 100#32 } [] with
        env := { Env.reset with now := 10101#32 } }
      (fun t => (gapstat t.gap, t.gap.haveLast)) = some (0x00000001#32, false) := by decide
theorem test_ta_start : afterCmd 0x00000040#32 .reset (fun t => (cstat t.host, tastat t.ta, t.ta.skip)) =
    some (0x00004000#32, 0x00000001#32, 232#16) := by decide
theorem test_ta_bad_proto :
    afterCmd 0x00000040#32 { State.reset with host := { HostRegs.reset with tacfg2 := 0x21#32 } }
      (fun t => (cstat t.host, t.host.irqstat, tastat t.ta)) = some (0x00004003#32, 1#32, 0#32) := by decide
theorem test_record_recon : (recordOf analysis .mark 25012#32).word = 0x20000410021C0000#64 := by decide
theorem test_record_anomaly : (recordOf analysis .mark 25013#32).word = 0x60000411021C0000#64 := by decide
theorem test_ta_end_empty : after .taToken (taState analysis [0x100#9]) (fun t => t.ta.out) = some [.fin] := by decide
theorem test_rec_end : after .taEmit (taState { analysis with out := [.fin] } [])
    (fun t => (tastat t.ta, t.host.irqstat, t.env.recOut)) =
      some (0x00000002#32, 0x20#32, [0x8000000000000000#64]) := by decide
theorem test_irq_w1c : after (.hostWrite 4 0x4C#8 1#32) { State.reset with host := { HostRegs.reset with irqstat := 3#32 } }
    (fun t => t.host.irqstat) = some 2#32 := by decide
theorem test_irqen_mask : after (.hostWrite 4 0x48#8 0xFFFFFFFF#32) .reset (readReg 0x48#8) = some 0x3F#32 := by decide
theorem test_tacfg2_mask : after (.hostWrite 4 0x3C#8 0xFFFFFFFF#32) .reset (readReg 0x3C#8) = some 0xF1#32 := by decide
theorem test_read_reserved : after (.hostRead 4 0xFC#8) .reset (fun t => t.env.bus) = some (.data 0#32) := by
  decide
theorem test_bus_error_size : after (.hostRead 2 0x04#8) .reset (fun t => (t.env.bus, t.host)) =
    some (.refused (.busError 0x04#8), .reset) := by decide
theorem test_bus_error_offset : after (.hostWrite 4 0x02#8 1#32) .reset (fun t => (t.env.bus, t.host)) =
    some (.refused (.busError 0x02#8), .reset) := by decide
theorem test_bus_error_in_reset : after (.hostWrite 4 0x04#8 1#32) heldState (fun t => (t.env.bus, t.host)) =
    some (.refused (.busError 0x04#8), .reset) := by decide

/-- A command after a BusError (spec/60_exceptions.md R335). -/
theorem test_command_after_bus_error :
    afterCmd 0x00007101#32 (refuseAccess 0x02#8 .reset) (fun t => (t.host.cres0, t.env.bus)) =
      some (5220#32, .accepted) := by decide
theorem test_reset_midway : after (.rst true) (txState [.disable]) (fun t => (txstat t.tx, t.env.drvOut)) =
    some (0#32, []) := by decide

/-! ## Words placed where the next step runs them -/

/-- The outcome of a step, as a state. -/
def nextState (o : Out) : Option State :=
  match o with
  | .next t => some t
  | .fault _ => none
  | .refused _ => none

theorem test_fetch_cmd : (nextState (step (State.reset.withFetchWord 32 0x00007101))).map (fun t => t.host.cres0) =
    some 5220#32 := by decide
theorem test_fetch_drv : (nextState (step (State.reset.withFetchWord 32 0x80002328))).map (fun t => t.env.drvOut) =
    some [0x80002328#32] := by decide
theorem test_fetch_cap : (nextState (step (State.reset.withFetchWord 34 0x100002328))).map (fun t => t.rx.dec.st) =
    some .awaitHeaderSpace := by decide
theorem test_fetch_trc : (nextState (step (State.reset.withFetchWord 16 0x100))).map (fun t => t.ta.out) =
    some [.fin] := by decide
theorem test_fetch_rec :
    (nextState (step (State.reset.withFetchWord 64 0x6000271014640000))).map (fun t => tastat t.ta &&& 0xFFFF0000#32) =
      some 0x00010000#32 := by decide
theorem test_table_edge : decodeTableWord 33 0x1000003E8 = some (.edge .mark 1000#32) := by decide

/-! ## Witnesses: a state and operands that meet the hypotheses of each statement -/

/-- The reset state with a script. -/
def scripted (a : Action) : State := { State.reset with env := { Env.reset with pending := [a] } }

theorem witness_EncodeOfDecode : decode (.drv 0x80FFFFFF#32) = .ok (.drvDelay 0xFFFFFF#24) := by decide

theorem witness_StepRunsDecodedInstruction :
    ((scripted (.hostWrite 4 0x00#8 0#32)).env.pending = [.hostWrite 4 0x00#8 0#32] ∧
      (scripted (.hostWrite 4 0x00#8 0#32)).env.rst = false ∧ decode (.cmd 0#32) = .ok (.nop 0#4 0#4)) ∧
    (∃ s : State, s.env.pending = [.rx] ∧ s.env.capIn = [0#34] ∧ decode (.cap 0#34) = .ok (.capPulse .space 0#32)) ∧
    (∃ s : State, s.env.pending = [.edgeIntake] ∧ s.env.edgeIn = [0#33] ∧
      decode (.edge 0#33) = .ok (.edge .space 0#32)) ∧
    (∃ s : State, s.env.pending = [.taToken] ∧ s.env.trcIn = [0x100#9] ∧ decode (.trc 0x100#9) = .ok (.trcEnd 0#8)) ∧
    (∃ s : State, s.env.pending = [.tx] ∧ s.tx.offered = some .enable ∧
      decode (.drv DriverOp.enable.word) = .ok .drvEnable) ∧
    (∃ s : State, s.env.pending = [.taEmit] ∧ s.ta.out = [.fin] ∧ decode (.record Record.fin.word) = .ok .recEnd) ∧
    decodeTableWord 64 0x8000000000000000 = some .recEnd ∧ State.reset.env.pending = [] := by
  refine ⟨by decide, ⟨{ rxState .nec .armed [0#34] with env := { Env.reset with pending := [.rx], capIn := [0#34] } },
    by decide⟩, ⟨{ State.reset with env := { Env.reset with pending := [.edgeIntake], edgeIn := [0#33] } }, by decide⟩,
    ⟨{ State.reset with env := { Env.reset with pending := [.taToken], trcIn := [0x100#9] } }, by decide⟩,
    ⟨{ txState [.enable] with env := { Env.reset with pending := [.tx] } }, by decide⟩,
    ⟨{ taState { analysis with out := [.fin] } [] with env := { Env.reset with pending := [.taEmit] } }, by decide⟩,
    by decide, by decide⟩

theorem witness_ForbiddenAccessOnlyReported :
    (ForbiddenAccess (.hostRead 2 0x00#8) .reset ∧ ForbiddenAccess (.hostWrite 4 0x01#8 0#32) .reset ∧
      ForbiddenAccess (.hostRead 4 0x00#8) heldState ∧ ¬ ForbiddenAccess (.hostRead 4 0xFC#8) .reset) ∧
    (∃ t, act exec (.hostRead 4 0xFC#8) .reset = .next t) ∧ (∃ t, act exec (.hostWrite 4 0x01#8 0#32) .reset = .next t) ∧
    ∃ u, act exec (.hostWrite 4 0x00#8 0x00007101#32) .reset = .next u :=
  ⟨by simp [ForbiddenAccess, heldState, State.reset, Env.reset], ⟨_, rfl⟩, ⟨_, rfl⟩, ⟨_, rfl⟩⟩

theorem witness_CmdErrorChangesNothingElse : State.reset.env.rst = false ∧
    (∃ t, executeCommand exec 0x00010000#32 .reset = .next t ∧ t.host.err = .reservedBits) ∧
      ∃ t, executeCommand exec 0x00000000#32 .reset = .next t ∧ t.host.err = .ok :=
  ⟨rfl, ⟨_, rfl, rfl⟩, ⟨_, rfl, rfl⟩⟩

theorem witness_CommandCheckOrder :
    State.reset.env.rst = false ∧ (0x00010000#32).extractLsb' 16 16 ≠ 0#16 ∧ opField 0x06#32 ∉ opcodeMap ∧
    (opField 0x204#32 ∈ protoOps ∧ 1 < (protoField 0x204#32).toNat) ∧
    (opField 0x8101#32 ∈ kindOps ∧ (protoField 0x8101#32).toNat ≤ 1 ∧ 7 < (kindField 0x8101#32).toNat) ∧
    (opField 0x7003#32 ∈ kindOps ∧ protoField 0x7003#32 = 0#4 ∧ kindField 0x7003#32 = 7#4) ∧
    (opField 0x105#32 = 0x05#8 ∧ (protoField 0x105#32).toNat ≤ 1 ∧ 4 ≤ (argState 4#32).host.arg.toNat) ∧
    (opField 0x110#32 = 0x10#8 ∧ (protoField 0x110#32).toNat ≤ 1 ∧ (txState [.disable]).tx.st = .emitting) ∧
    (opField 0x120#32 = 0x20#8 ∧ (protoField 0x120#32).toNat ≤ 1 ∧
      (rxState .nec .armed []).rx.dec.st.running = true) ∧
    (opField 0x130#32 = 0x30#8 ∧ (protoField 0x130#32).toNat ≤ 1 ∧ (GapUnit.start .nec 0#32).en = true) ∧
    (opField 0x40#32 = 0x40#8 ∧ 1 < (tproto { HostRegs.reset with tacfg2 := 0x21#32 }).toNat) ∧
    (tproto HostRegs.reset).toNat ≤ 1 ∧ analysis.busy = true := by decide

theorem witness_NopCompletes : State.reset.env.rst = false := rfl

/-- For NOMINAL, WINDOW and MATCH: each clause at a boundary value. -/
theorem witness_SymbolCommands :
    State.reset.env.rst = false ∧ 1 < (2#4).toNat ∧ ((1#4).toNat ≤ 1 ∧ 7 < (8#4).toNat) ∧
    (Proto.code .nec = 0#4 ∧ SymbolKind.code .stopSpace = 7#4 ∧ timing .nec .stopSpace = none) ∧
    (Proto.code .r05d = 1#4 ∧ SymbolKind.code .stopSpace = 7#4 ∧ timing .r05d .stopSpace = some 5220#16) ∧
    (Proto.code .nec = 0#4 ∧ SymbolKind.code .headerMark = 0#4 ∧ timing .nec .headerMark = some 9000#16) := by decide

theorem witness_NominalResult : timing .r05d .stopSpace = some 5220#16 ∧ State.reset.env.rst = false := by decide
theorem witness_WindowResult : timing .nec .bit1Space = some 1690#16 ∧ State.reset.env.rst = false := by decide
theorem witness_MatchResult : timing .nec .stopMark = some 560#16 ∧ State.reset.env.rst = false := by decide

theorem witness_NearestIsFirstClosest :
    State.reset.env.rst = false ∧ 1 < (2#4).toNat ∧ Proto.code .r05d = 1#4 ∧ Proto.code .nec = 0#4 := by decide

theorem witness_SymbolResult :
    State.reset.env.rst = false ∧ 1 < (2#4).toNat ∧
    (Proto.code .nec = 0#4 ∧ (symbols .nec).length ≤ (argState 4#32).host.arg.toNat) ∧
    (Proto.code .r05d = 1#4 ∧ (symbols .r05d)[(argState 3#32).host.arg.toNat]? = some 5220) := by decide

theorem witness_ClassifierFrame :
    (∃ t, exec (.nominal 1#4 7#4) .reset = .next t ∧ t.host.err = .ok) ∧
      ∃ t, exec (.nominal 2#4 7#4) .reset = .next t ∧ t.host.err ≠ .ok :=
  ⟨⟨_, rfl, rfl⟩, ⟨_, rfl, by decide⟩⟩

theorem witness_TxStartArmsFrame :
    State.reset.env.rst = false ∧ 1 < (2#4).toNat ∧ ((1#4).toNat ≤ 1 ∧ (txState [.disable]).tx.st = .emitting) ∧
      (Proto.code .r05d = 1#4 ∧ State.reset.tx.st = .idle) := by decide

/-- The sequencer at op i of the NEC frame of 0, a sound state for i = 0. -/
theorem witness_TxStepPushesOp :
    (∃ s : State, s.tx.Sound ∧ s.tx.offered = some .enable ∧ s.env.drvReady = true ∧ s.env.rst = false) ∧
    (∃ s : State, s.tx.Sound ∧ s.tx.offered = some .disable ∧ s.env.drvReady = true ∧ s.env.rst = false ∧
      s.tx.opi + 1 = s.tx.ops.length) ∧
    (∃ s : State, s.tx.Sound ∧ s.tx.offered = some (.delay 5220#24) ∧ s.env.drvReady = true ∧ s.env.rst = false) := by
  refine ⟨⟨{ State.reset with tx := .start .nec 0#32 }, txStart_sound _ _, by decide, rfl, rfl⟩,
    ⟨txState [.disable], ?_, by decide, rfl, rfl, rfl⟩, ⟨txState [.delay 5220#24, .disable], ?_, by decide, rfl, rfl⟩⟩
  · constructor <;> simp [txState, TxUnit.reset, DriverOp.isDelay]
  · constructor <;> simp [txState, TxUnit.reset]
    decide

theorem witness_WholeFrameEmitted :
    ∃ s : State, s.tx = TxUnit.start .r05d 0x00A50F3C#32 ∧ s.env.drvReady = true ∧ s.env.rst = false ∧
      s.env.pending = List.replicate (driverOps (frame .r05d 0x00A50F3C#32)).length .tx ++ [] :=
  ⟨{ State.reset with
      tx := .start .r05d 0x00A50F3C#32
      env := { Env.reset with
        pending := List.replicate (driverOps (frame .r05d 0x00A50F3C#32)).length .tx ++ [] } }, rfl, rfl, rfl, rfl⟩

/-- A decoder in each running state. -/
theorem witness_DecoderTransitions :
    DecState.armed.st = .awaitHeaderMark ∧
    (∃ d : DecState, d.st = .awaitHeaderSpace) ∧ (∃ d : DecState, d.st = .awaitBitMark) ∧
    (∃ d : DecState, d.st = .awaitBitSpace ∧ d.i + 1 = nbits .r05d) ∧ (∃ d : DecState, d.st = .awaitStop) :=
  ⟨rfl, ⟨⟨.awaitHeaderSpace, 0, 0#48, .none, false⟩, rfl⟩, ⟨⟨.awaitBitMark, 0, 0#48, .none, false⟩, rfl⟩,
    ⟨⟨.awaitBitSpace, 47, 0#48, .none, false⟩, rfl, rfl⟩, ⟨⟨.awaitStop, 32, 0#48, .none, false⟩, rfl⟩⟩

theorem witness_ResultWordFields :
    ∃ d : DecState, d.acc = 0xA5#8 ++ 0x5A#8 ++ 0x0F#8 ++ 0xF0#8 ++ 0x3C#8 ++ 0xC3#8 :=
  ⟨⟨.done, 48, 0xA55A0FF03CC3#48, .none, false⟩, by decide⟩

theorem witness_RxStartArms :
    State.reset.env.rst = false ∧ 1 < (2#4).toNat ∧
    ((1#4).toNat ≤ 1 ∧ (rxState .nec .armed []).rx.dec.st ∈
      [DecSt.awaitHeaderMark, .awaitHeaderSpace, .awaitBitMark, .awaitBitSpace, .awaitStop]) ∧
    (Proto.code .r05d = 1#4 ∧ State.reset.rx.dec.st ∈ [DecSt.idle, .done, .failed]) := by decide

theorem witness_RxStopIdles : State.reset.env.rst = false := rfl

theorem witness_RxStepPopsCapWord :
    (∃ s : State, s.env.rst = false ∧ s.rx.dec.st.running = true ∧ s.env.capIn = capWord 0#1 .mark 9000#32 :: []) ∧
    (∃ s : State, s.env.rst = false ∧ s.rx.dec.st.running = true ∧ s.env.capIn = capWord 1#1 .space 0#32 :: []) ∧
    State.reset.rx.dec.st.running = false :=
  ⟨⟨rxState .nec .armed [capWord 0#1 .mark 9000#32], rfl, rfl, rfl⟩,
    ⟨rxState .nec .armed [capWord 1#1 .space 0#32], rfl, rfl, rfl⟩, rfl⟩

theorem witness_TerminalDecoderHolds :
    ∃ s t : State, s.rx.dec.st = .done ∧ act exec .rx s = .next t :=
  ⟨rxState .nec ⟨.done, 32, 0#48, .none, false⟩ [0#34], _, rfl, rfl⟩

theorem witness_NecRoundTrip :
    ∃ s : State, s.rx.proto = .nec ∧ s.rx.dec = .armed ∧ s.env.rst = false ∧
      s.env.capIn = capWords (encodeNEC 0x00FF30CF#32) ++ [] ∧ s.env.pending = List.replicate 67 .rx ++ [] :=
  ⟨{ rxState .nec .armed [] with
      env := { Env.reset with
        capIn := capWords (encodeNEC 0x00FF30CF#32) ++ [], pending := List.replicate 67 .rx ++ [] } },
    rfl, rfl, rfl, rfl, rfl⟩

theorem witness_R05dRoundTrip :
    ∃ (s : State) (before : List (BitVec 34)), before = [capWord 0#1 .space 5220#32] ∧
      s.rx.proto = .r05d ∧ s.rx.dec = .armed ∧ s.env.rst = false ∧
      s.env.capIn = before ++ capWords (subFrame 0xA5#8 0x0F#8 0x3C#8) ++ [] ∧
      s.env.pending = List.replicate (before.length + 99) .rx ++ [] :=
  ⟨{ rxState .r05d .armed [] with
      env := { Env.reset with
        capIn := [capWord 0#1 .space 5220#32] ++ capWords (subFrame 0xA5#8 0x0F#8 0x3C#8) ++ []
        pending := List.replicate (1 + 99) .rx ++ [] } }, _, rfl, rfl, rfl, rfl, rfl, rfl⟩

theorem witness_GapStartEnables :
    State.reset.env.rst = false ∧ 1 < (2#4).toNat ∧ ((0#4).toNat ≤ 1 ∧ (GapUnit.start .nec 0#32).en = true) ∧
      (Proto.code .nec = 0#4 ∧ State.reset.gap.en = false) := by decide

theorem witness_GapStopAndAck : State.reset.env.rst = false := rfl

/-- The queue exactly full, and one short of it. -/
theorem witness_EdgeIntakeTakesEdge :
    (∃ s : State, s.env.rst = false ∧ s.env.edgeIn = [edgeWord .mark 1#32] ∧ s.gap.en = false) ∧
    (∃ s : State, s.env.rst = false ∧ s.env.edgeIn = [edgeWord .mark 1#32] ∧ s.gap.en = true ∧
      Config.edgeQDepth ≤ s.gap.q.length) ∧
    (∃ s : State, s.env.rst = false ∧ s.env.edgeIn = [edgeWord .mark 1#32] ∧ s.gap.en = true ∧
      s.gap.q.length < Config.edgeQDepth) := by
  refine ⟨⟨gapState .reset [edgeWord .mark 1#32], rfl, rfl, rfl⟩,
    ⟨gapState { GapUnit.start .nec 0#32 with q := List.replicate Config.edgeQDepth ⟨.mark, 0#32⟩ }
      [edgeWord .mark 1#32], rfl, rfl, rfl, ?_⟩,
    ⟨gapState { GapUnit.start .nec 0#32 with q := List.replicate Config.edgeQExtra ⟨.mark, 0#32⟩ }
      [edgeWord .mark 1#32], rfl, rfl, rfl, ?_⟩⟩
  · exact Nat.le_of_eq List.length_replicate.symm
  · exact Nat.lt_succ_of_le (Nat.le_of_eq List.length_replicate)

/-- An interval at the threshold is no gap, one past it is; the buffer exactly full, and empty. -/
theorem witness_GapEdgeStep :
    (∃ s : State, s.env.rst = false ∧ s.gap.en = true ∧ s.gap.q = [⟨.mark, 10000#32⟩] ∧ s.gap.haveLast = false) ∧
    (∃ s : State, s.env.rst = false ∧ s.gap.en = true ∧ s.gap.q = [⟨.mark, 10000#32⟩] ∧ s.gap.haveLast = true ∧
      (10000#32 - s.gap.lastTs).toNat ≤ s.gap.thr.toNat ∧ s.gap.buf.length < Config.frameBufDepth) ∧
    (∃ s : State, s.env.rst = false ∧ s.gap.en = true ∧ s.gap.q = [⟨.mark, 10000#32⟩] ∧ s.gap.haveLast = true ∧
      (10000#32 - s.gap.lastTs).toNat ≤ s.gap.thr.toNat ∧ Config.frameBufDepth ≤ s.gap.buf.length) ∧
    (∃ s : State, s.env.rst = false ∧ s.gap.en = true ∧ s.gap.q = [⟨.mark, 10001#32⟩] ∧ s.gap.haveLast = true ∧
      s.gap.thr.toNat < (10001#32 - s.gap.lastTs).toNat) := by
  refine ⟨⟨gapState { GapUnit.start .nec 10000#32 with q := [⟨.mark, 10000#32⟩] } [], rfl, rfl, rfl, rfl⟩,
    ⟨gapState { GapUnit.start .nec 10000#32 with q := [⟨.mark, 10000#32⟩], haveLast := true } [],
      rfl, rfl, rfl, rfl, by decide, Nat.succ_pos _⟩,
    ⟨gapState
      { GapUnit.start .nec 10000#32 with
        q := [⟨.mark, 10000#32⟩], haveLast := true, buf := List.replicate Config.frameBufDepth ⟨.mark, 1#32⟩ } [],
      rfl, rfl, rfl, rfl, by decide, Nat.le_of_eq List.length_replicate.symm⟩,
    ⟨gapState { GapUnit.start .nec 10000#32 with q := [⟨.mark, 10001#32⟩], haveLast := true } [],
      rfl, rfl, rfl, rfl, by decide⟩⟩

/-- Silence of one more than the threshold. -/
theorem witness_GapSilenceStep :
    ∃ s : State, s.env.rst = false ∧ s.gap.en = true ∧ s.gap.q = [] ∧ s.gap.haveLast = true ∧
      s.gap.thr.toNat < (s.env.now - s.gap.lastTs).toNat :=
  ⟨{ gapState { GapUnit.start .nec 10000#32 with haveLast := true } [] with
      env := { Env.reset with now := 10001#32 } }, rfl, rfl, rfl, rfl, by decide⟩

/-- Silence of exactly the threshold, a waiting record, ports without words, consumers not ready, and reset. -/
theorem witness_HeldUnitsStay :
    State.reset.tx.st = .idle ∧ State.reset.rx.dec.st.running = false ∧ State.reset.env.edgeIn = [] ∧
    State.reset.gap.en = false ∧ State.reset.ta.busy = false ∧ State.reset.ta.out = [] ∧ heldState.env.rst = true ∧
    (∃ s : State, s.gap.en = true ∧ s.gap.q = [] ∧ s.gap.haveLast = true ∧
      (s.env.now - s.gap.lastTs).toNat ≤ s.gap.thr.toNat) ∧
    (∃ s : State, s.tx.st = .emitting ∧ s.ta.out ≠ [] ∧ s.env.drvReady = false ∧ s.env.recReady = false) :=
  ⟨rfl, rfl, rfl, rfl, rfl, rfl, rfl,
    ⟨{ gapState { GapUnit.start .nec 10000#32 with haveLast := true } [] with
        env := { Env.reset with now := 10000#32 } }, rfl, rfl, rfl, by decide⟩,
    ⟨{ txState [.disable] with
        ta := { analysis with out := [.fin] }
        env := { Env.reset with drvReady := false, recReady := false } }, rfl, by decide, rfl, rfl⟩⟩

theorem witness_CloseFramePublishes :
    GapUnit.reset.buf = [] ∧
    (∃ g : GapUnit, g.buf ≠ [] ∧ g.result ≠ none) ∧ (∃ g : GapUnit, g.buf ≠ [] ∧ g.result = none) :=
  ⟨rfl, ⟨{ GapUnit.reset with buf := [⟨.mark, 1#32⟩], result := some .absent }, by decide, by decide⟩,
    ⟨{ GapUnit.reset with buf := [⟨.mark, 1#32⟩] }, by decide, rfl⟩⟩

theorem witness_DecodeFrameEnds : (feedFrame .nec .armed [⟨.mark, 7000#32⟩]).st = .failed := by decide

theorem witness_GapFramerDecodes :
    (∃ s : State, s.gap.proto = .nec ∧ s.gap.haveLast = false ∧ s.gap.buf = [] ∧ s.gap.bufOvf = false ∧
      s.gap.result = none ∧ 9000 ≤ s.gap.thr.toNat) ∧
    (∃ s : State, s.gap.proto = .r05d ∧ s.gap.haveLast = false ∧ s.gap.buf = [] ∧ s.gap.bufOvf = false ∧
      s.gap.result = none ∧ 5220 ≤ s.gap.thr.toNat) :=
  ⟨⟨gapState (.start .nec 9000#32) [], rfl, rfl, rfl, rfl, rfl, by decide⟩,
    ⟨gapState (.start .r05d 5220#32) [], rfl, rfl, rfl, rfl, rfl, by decide⟩⟩

theorem witness_TaStartCopiesConfiguration :
    State.reset.env.rst = false ∧ 1 < (tproto { HostRegs.reset with tacfg2 := 0x21#32 }).toNat ∧
    ((tproto HostRegs.reset).toNat ≤ 1 ∧ analysis.busy = true) ∧
    (Proto.code .r05d = tproto HostRegs.reset ∧ State.reset.ta.busy = false) := by decide

/-- The five cases of a trace byte: in the seek, first, same and other polarity, and a unit that reads no token. -/
theorem witness_TraceByteStep :
    (∃ s : State, s.env.rst = false ∧ s.ta.busy = true ∧ s.ta.out = [] ∧ s.env.trcIn = [trcWord 0#1 1#8] ∧
      0 < s.ta.skip.toNat) ∧
    (∃ s : State, s.env.rst = false ∧ s.ta.busy = true ∧ s.ta.out = [] ∧ s.env.trcIn = [trcWord 0#1 1#8] ∧
      s.ta.skip.toNat = 0 ∧ s.ta.rawValid = false) ∧
    (∃ s : State, s.env.rst = false ∧ s.ta.busy = true ∧ s.ta.out = [] ∧ s.env.trcIn = [trcWord 0#1 1#8] ∧
      s.ta.skip.toNat = 0 ∧ s.ta.rawValid = true ∧ s.ta.rawPol = .mark ∧ s.ta.cMark = true) ∧
    (∃ s : State, s.env.rst = false ∧ s.ta.busy = true ∧ s.ta.out = [] ∧ s.env.trcIn = [trcWord 0#1 1#8] ∧
      s.ta.skip.toNat = 0 ∧ s.ta.rawValid = true ∧ s.ta.rawPol = .space ∧ s.ta.cMark = true) ∧
    State.reset.ta.busy = false :=
  ⟨⟨taState { analysis with skip := 1#16 } [trcWord 0#1 1#8], by decide⟩,
    ⟨taState analysis [trcWord 0#1 1#8], by decide⟩,
    ⟨taState { analysis with rawValid := true, rawPol := .mark, rawCnt := 1#32 } [trcWord 0#1 1#8], by decide⟩,
    ⟨taState { analysis with rawValid := true, rawPol := .space, rawCnt := 1#32 } [trcWord 0#1 1#8], by decide⟩, rfl⟩

/-- A run of 99 samples is a glitch, one of 100 is not (spec/95_test_vectors.md 2.5.3, 2.5.4). -/
theorem witness_GlitchMerge :
    (analysis.curValid = false ∧ (99#32).toNat < analysis.cMin.toNat) ∧ analysis.cMin.toNat ≤ (100#32).toNat ∧
    (∃ t : TaUnit, t.curValid = true ∧ t.cMin.toNat ≤ (100#32).toNat ∧ Polarity.space ≠ t.curPol) ∧
    (∃ t : TaUnit, t.curValid = true ∧ Polarity.mark = t.curPol) :=
  ⟨by decide, by decide, ⟨{ analysis with curValid := true, curPol := .mark }, by decide⟩,
    ⟨{ analysis with curValid := true, curPol := .mark }, by decide⟩⟩

theorem witness_TraceEndStep :
    ∃ s : State, s.env.rst = false ∧ s.ta.busy = true ∧ s.ta.out = [] ∧ s.env.trcIn = trcWord 1#1 0#8 :: [] :=
  ⟨taState analysis [trcWord 1#1 0#8], by decide⟩

/-- A delta of exactly MAX_DELTA and one of one more (spec/95_test_vectors.md 2.5.8, 2.5.9). -/
theorem witness_RecordFormation :
    absDiff ((25012 * analysis.cScale.toNat + 5000) / 10000) 540 ≤ analysis.cMax.toNat ∧
      analysis.cMax.toNat < absDiff ((25013 * analysis.cScale.toNat + 5000) / 10000) 540 := by decide

theorem witness_AnomalyRanges :
    (analysis.cMax = 500#16 ∧ analysis.cProto = .r05d) ∧
      ∃ t : TaUnit, t.cMax = 500#16 ∧ t.cProto = .nec :=
  ⟨by decide, ⟨TaUnit.start .nec HostRegs.reset, by decide⟩⟩

theorem witness_EmitStepPushesRecord :
    (∃ s : State, s.env.rst = false ∧ s.env.recReady = true ∧ s.ta.out = .recon .mark 540#29 540#16 :: [.fin]) ∧
    (∃ s : State, s.env.rst = false ∧ s.env.recReady = true ∧ s.ta.out = .anomaly .mark 4#29 540#16 :: [.fin]) ∧
    (∃ s : State, s.env.rst = false ∧ s.env.recReady = true ∧ s.ta.out = [.fin]) :=
  ⟨⟨taState { analysis with out := [.recon .mark 540#29 540#16, .fin] } [], by decide⟩,
    ⟨taState { analysis with out := [.anomaly .mark 4#29 540#16, .fin] } [], by decide⟩,
    ⟨taState { analysis with out := [.fin] } [], by decide⟩⟩

/-- The seek bytes, then two runs of exactly MIN_RUN samples. -/
theorem witness_TraceOfTwoRuns :
    ∃ header marks spaces : List Byte, header.length = (seekBytes HostRegs.reset).toNat ∧
      (∀ b ∈ marks, b.getLsbD 0 = markLevel HostRegs.reset) ∧ (∀ b ∈ spaces, b.getLsbD 0 ≠ markLevel HostRegs.reset) ∧
      0 < marks.length ∧ (minRun HostRegs.reset).toNat ≤ marks.length ∧ marks.length < 2 ^ 32 ∧
      0 < spaces.length ∧ (minRun HostRegs.reset).toNat ≤ spaces.length ∧ spaces.length < 2 ^ 32 := by
  refine ⟨List.replicate 232 0#8, List.replicate 100 1#8, List.replicate 100 0#8, List.length_replicate, ?_, ?_, ?_⟩
  · intro b hb; rw [List.eq_of_mem_replicate hb]; decide
  · intro b hb; rw [List.eq_of_mem_replicate hb]; decide
  · simp only [List.length_replicate]; decide

theorem witness_UnitCommandFrame :
    (∃ t, exec (.txStart 0#4 0#4) .reset = .next t) ∧ (∃ t, exec (.rxStart 0#4 0#4) .reset = .next t) ∧
    (∃ t, exec (.rxStop 0#4 0#4) .reset = .next t) ∧ (∃ t, exec (.gapStart 0#4 0#4) .reset = .next t) ∧
    (∃ t, exec (.gapStop 0#4 0#4) .reset = .next t) ∧ (∃ t, exec (.gapAck 0#4 0#4) .reset = .next t) ∧
    (∃ t, exec (.taStart 0#4 0#4) .reset = .next t) :=
  ⟨⟨_, rfl⟩, ⟨_, rfl⟩, ⟨_, rfl⟩, ⟨_, rfl⟩, ⟨_, rfl⟩, ⟨_, rfl⟩, ⟨_, rfl⟩⟩

theorem witness_PortWordFrame :
    (∃ t, exec DriverOp.disable.instr (txState [.disable]) = .next t ∧ t.tx.done = true) ∧
    (∃ t, exec (.capPulse .mark 9000#32) (rxState .nec .armed [capWord 0#1 .mark 9000#32]) = .next t ∧
      t.env.capIn = []) ∧
    (∃ t, exec (.edge .mark 1#32) (gapState .reset [edgeWord .mark 1#32]) = .next t ∧ t.env.edgeIn = []) ∧
    (∃ t, exec (.trcEnd 0#8) (taState analysis [trcWord 1#1 0#8]) = .next t ∧ t.env.trcIn = []) ∧
    (∃ t, exec Record.fin.instr (taState { analysis with out := [.fin] } []) = .next t ∧ t.ta.done = true) :=
  ⟨⟨_, rfl, rfl⟩, ⟨_, rfl, rfl⟩, ⟨_, rfl, rfl⟩, ⟨_, rfl, rfl⟩, ⟨_, rfl, rfl⟩⟩

/-- Every offset of the window, a decoder in Done, and a framer with and without a latched failure. -/
theorem witness_MemReadReturnsRegister :
    (State.reset.env.rst = false ∧ 0x50 ≤ (0x50#8).toNat ∧ ∀ k < 64, (BitVec.ofNat 8 (4 * k)).toNat % 4 = 0) ∧
    (∃ r : RxUnit, r.Sound ∧ r.dec.st = .done) ∧ (∃ r : RxUnit, r.Sound ∧ r.dec.st ≠ .done) ∧
    (∃ g : GapUnit, g.result = none) ∧ ∃ (g : GapUnit) (r : GapResult), g.Sound ∧ g.result = some r ∧ r.failed = true := by
  refine ⟨by decide, ⟨⟨.nec, ⟨.done, 32, 0#48, .none, true⟩, 0#32, 0#32⟩, ⟨?_, fun _ => by decide, by simp⟩, rfl⟩,
    ⟨.reset, ⟨.idle _, by simp [RxUnit.reset, DecState.idle], fun _ => ⟨rfl, rfl⟩⟩, by decide⟩, ⟨.reset, rfl⟩,
    { GapUnit.start .nec 0#32 with result := some ⟨true, false, .headerMismatch, 0, false, 0#32, 0#32⟩ }, _, ?_, rfl, rfl⟩
  · constructor <;> simp [nbits]
  · constructor <;> simp [GapUnit.start]
    constructor <;> simp

theorem witness_MemWriteStoresRegister :
    ((0x00#8).toNat % 4 = 0 ∧ State.reset.env.rst = false) ∧
    ∀ a ∈ [0x04#8, 0x24#8, 0x34#8, 0x38#8, 0x3C#8, 0x48#8, 0x4C#8, 0x08#8, 0xFC#8],
      a.toNat % 4 = 0 ∧ a ≠ 0x00#8 := by decide

/-- Each of the bits is set by a step of its own, and cleared by a write and by reset. -/
theorem witness_IrqBitsOverSteps :
    afterCmd 0x06#32 .reset (fun t => t.host.irqstat) = some 0x01#32 ∧
    after .tx (txState [.disable]) (fun t => t.host.irqstat) = some 0x02#32 ∧
    after .rx (rxState .nec .armed [capWord 0#1 .mark 7000#32]) (fun t => t.host.irqstat) = some 0x04#32 ∧
    after .taEmit (taState { analysis with out := [.fin] } []) (fun t => t.host.irqstat) = some 0x20#32 ∧
    after (.rst true) { State.reset with host := { HostRegs.reset with irqstat := 0x3F#32 } }
      (fun t => t.host.irqstat) = some 0#32 := by decide

theorem witness_UnitsShareNoState : ∃ t, act exec .tx .reset = .next t := ⟨_, rfl⟩

/-- A sound state amid a frame, whose step pushes the last op. -/
theorem witness_StepKeepsSound : ∃ s t : State, s.Sound ∧ step s = .next t ∧ t.tx.done = true := by
  refine ⟨{ txState [.disable] with env := { Env.reset with pending := [.tx] } }, _, ?_, rfl, rfl⟩
  refine ⟨?_, ?_, ⟨.idle _, ?_, ?_⟩, ?_, ?_⟩
  · constructor <;> decide
  · constructor <;> simp [txState, TxUnit.reset, DriverOp.isDelay]
  · exact fun h => absurd h (by decide)
  · exact fun _ => ⟨rfl, rfl⟩
  · constructor <;> simp [txState, State.reset, GapUnit.reset]
  · constructor <;> simp [txState, State.reset, TaUnit.reset]

end Sys2Proof.Tests
end

section
/-! PROOFS. The invariant of Safety.lean over the machine's steps (spec/10_state.md R22, R28 to R49). Laws/Sound.lean
gives one lemma per operation of a unit, Laws/Agents.lean says what each agent's step can do; here they are put
together, one lemma per kind of action. -/

namespace Sys2Proof.Machine

/-! ## Updates that no unit sees -/

/-- Soundness speaks of the block's state only: whatever stands at the boundary may change. -/
theorem State.Sound.withEnv {s : State} (h : s.Sound) (e : Env) : ({ s with env := e } : State).Sound :=
  ⟨h.host_sound, h.tx_sound, h.rx_sound, h.gap_sound, h.ta_sound⟩

/-- A change of the host registers is judged on the host registers alone. -/
theorem State.Sound.withHost {s : State} (h : s.Sound) {r : HostRegs} (hr : r.Sound) :
    ({ s with host := r } : State).Sound :=
  ⟨hr, h.tx_sound, h.rx_sound, h.gap_sound, h.ta_sound⟩

/-! ## Reset -/

/-- Right after reset every unit is idle and empty, and no reserved bit is set (spec/70_reset_and_hazards.md R370). -/
theorem State.reset_sound : State.reset.Sound where
  host_sound := by constructor <;> decide
  tx_sound := by constructor <;> simp [State.reset, TxUnit.reset]
  rx_sound := ⟨.idle _, fun hd => absurd hd (by decide), fun _ => ⟨rfl, rfl⟩⟩
  gap_sound := by constructor <;> simp [State.reset, GapUnit.reset]
  ta_sound := by constructor <;> simp [State.reset, TaUnit.reset]

/-- Either level of the input `rst` leaves a sound state (spec/70_reset_and_hazards.md R370). -/
theorem setRst_sound {s : State} (h : s.Sound) (b : Bool) : (setRst b s).Sound := by
  cases b with
  | false => exact h.withEnv _
  | true => exact State.reset_sound.withEnv _

/-! ## The host's accesses -/

/-- A command keeps a sound state, whether it raises a CmdError or has its effect (spec/60_exceptions.md R331). -/
theorem commandNext_sound {op : BitVec 8} {s t : State} (h : s.Sound) (hn : CommandNext op s t) : t.Sound := by
  obtain ⟨code, -, rfl⟩ | ⟨u, hu, rfl⟩ := hn
  · exact h.withHost ((h.host_sound.status code op).raise .cmdErr)
  · have hs := effect_sound h hu
    exact hs.withHost (hs.host_sound.status .ok op)

/-- A host read keeps a sound state: only the bus's answer changes (spec/20_memory.md R71, R74). -/
theorem act_hostRead_sound {s t : State} (h : s.Sound) {size : Nat} {a : BitVec 8}
    (ha : act exec (.hostRead size a) s = .next t) : t.Sound := by
  obtain ⟨-, rfl⟩ | ⟨-, rfl⟩ := act_hostRead_next ha
  · exact h.withEnv _
  · exact h.withEnv _

/-- A host write keeps a sound state: refused, a command, or a register written (spec/20_memory.md R72, R74). -/
theorem act_hostWrite_sound {s t : State} (h : s.Sound) {size : Nat} {a : BitVec 8} {v : Word}
    (ha : act exec (.hostWrite size a v) s = .next t) : t.Sound := by
  have hacc : (respond .accepted s).Sound := h.withEnv _
  obtain ⟨-, rfl⟩ | ⟨-, ⟨-, hc⟩ | ⟨-, rfl⟩⟩ := act_hostWrite_next ha
  · exact h.withEnv _
  · exact commandNext_sound hacc hc
  · exact hacc.withHost (hacc.host_sound.write a v)

/-! ## The units' steps

Each is held, which leaves the state as it is, or taken under the guard that its operation's lemma needs. -/

theorem act_tx_sound {s t : State} (h : s.Sound) (ha : act exec .tx s = .next t) : t.Sound := by
  obtain rfl | ⟨op, hoffered, -, -, rfl⟩ := act_tx_next ha
  · exact h
  · exact txAccepted_sound h hoffered

theorem act_rx_sound {s t : State} (h : s.Sound) (ha : act exec .rx s = .next t) : t.Sound := by
  obtain rfl | ⟨w, -, -, hrunning, -, rfl⟩ := act_rx_next ha
  · exact h
  · exact rxConsumed_sound h hrunning (capEvent w)

theorem act_edgeIntake_sound {s t : State} (h : s.Sound) (ha : act exec .edgeIntake s = .next t) : t.Sound := by
  obtain rfl | ⟨w, -, -, -, rfl⟩ := act_edgeIntake_next ha
  · exact h
  · exact (intake_sound h (edgeOfWord w)).withEnv _

theorem act_gapEdge_sound {s t : State} (h : s.Sound) (ha : act exec .gapEdge s = .next t) : t.Sound := by
  obtain rfl | ⟨e, -, -, hen, -, rfl⟩ := act_gapEdge_next ha
  · exact h
  · exact edgeTaken_sound h e hen

theorem act_gapSilence_sound {s t : State} (h : s.Sound) (ha : act exec .gapSilence s = .next t) : t.Sound := by
  obtain rfl | ⟨-, -, rfl⟩ := act_gapSilence_next ha
  · exact h
  · exact silenceClosed_sound h

theorem act_taToken_sound {s t : State} (h : s.Sound) (ha : act exec .taToken s = .next t) : t.Sound := by
  obtain rfl | ⟨w, -, -, hbusy, hout, -, rfl⟩ := act_taToken_next ha
  · exact h
  · exact ⟨h.host_sound, h.tx_sound, h.rx_sound, h.gap_sound, tokenIn_sound h.ta_sound hbusy hout w⟩

theorem act_taEmit_sound {s t : State} (h : s.Sound) (ha : act exec .taEmit s = .next t) : t.Sound := by
  obtain rfl | ⟨r, rest, hout, -, -, rfl⟩ := act_taEmit_next ha
  · exact h
  · exact recAccepted_sound h hout

/-! ## Every step -/

/-- One atomic step of any agent keeps a sound state (spec/60_exceptions.md R348). -/
theorem act_sound {a : Action} {s t : State} (h : s.Sound) (ha : act exec a s = .next t) : t.Sound := by
  cases a with
  | hostRead size off => exact act_hostRead_sound h ha
  | hostWrite size off v => exact act_hostWrite_sound h ha
  | tx => exact act_tx_sound h ha
  | rx => exact act_rx_sound h ha
  | edgeIntake => exact act_edgeIntake_sound h ha
  | gapEdge => exact act_gapEdge_sound h ha
  | gapSilence => exact act_gapSilence_sound h ha
  | taToken => exact act_taToken_sound h ha
  | taEmit => exact act_taEmit_sound h ha
  | rst b => cases ha; exact setRst_sound h b
  | capOffer w => cases ha; exact h.withEnv _
  | edgeOffer w => cases ha; exact h.withEnv _
  | trcOffer w => cases ha; exact h.withEnv _
  | drvReady b => cases ha; exact h.withEnv _
  | recReady b => cases ha; exact h.withEnv _
  | tick us => cases ha; exact h.withEnv _

/-- Settles O60: a step is one action, taken after the script or the counter of free actions has moved on, and neither
is part of the block's state. -/
theorem stepKeepsSound : Obligations.StepKeepsSound := by
  intro s t h hstep
  obtain ⟨a, u, hact, hu⟩ := step_act s
  have hsu : u.Sound := by
    obtain rfl | rfl := hu
    · exact h.withEnv _
    · exact h.withEnv _
  exact act_sound hsu (hact ▸ hstep)

end Sys2Proof.Machine
end

section
/-! PROOFS. What every agent's step has in common: it gives a next state, a unit's step is held where its rule does not
enable it (spec/20_memory.md R80; log 3), it leaves the other units as they are (spec/20_memory.md R95), and the
environment's steps leave the block as it is. Laws/Agents.lean says what each unit's step can do; here that is read
off, one lemma per unit. -/

namespace Sys2Proof.Machine

/-! ## Every step gives a next state (spec/60_exceptions.md R335) -/

theorem unitStep_total (enabled : Bool) (n s : State) : ∃ t, unitStep enabled n s = .next t :=
  ⟨_, unitStep_eq enabled n s⟩

theorem act_hostRead_total (size : Nat) (off : BitVec 8) (s : State) :
    ∃ t, act exec (.hostRead size off) s = .next t := by
  simp only [act, hostRead]
  split
  · exact ⟨_, rfl⟩
  · exact ⟨_, rfl⟩

theorem act_hostWrite_total (size : Nat) (off : BitVec 8) (v : Word) (s : State) :
    ∃ t, act exec (.hostWrite size off v) s = .next t := by
  simp only [act, hostWrite]
  split
  · split
    · exact executeCommand_total v _
    · exact ⟨_, rfl⟩
  · exact ⟨_, rfl⟩

theorem act_tx_total (s : State) : ∃ t, act exec .tx s = .next t := by
  simp only [act, txAgent]
  split
  · rw [exec_driverOp]; exact unitStep_total ..
  · exact ⟨s, rfl⟩

theorem act_rx_total (s : State) : ∃ t, act exec .rx s = .next t := by
  simp only [act, rxAgent]
  split
  · rw [exec_decodeCap]; exact unitStep_total ..
  · exact ⟨s, rfl⟩

theorem act_edgeIntake_total (s : State) : ∃ t, act exec .edgeIntake s = .next t := by
  simp only [act, intakeAgent]
  split
  · rw [exec_decodeEdge]; exact unitStep_total ..
  · exact ⟨s, rfl⟩

theorem act_gapEdge_total (s : State) : ∃ t, act exec .gapEdge s = .next t := by
  simp only [act, gapEdgeStep]
  split
  · exact ⟨s, rfl⟩
  · exact unitStep_total ..

theorem act_taToken_total (s : State) : ∃ t, act exec .taToken s = .next t := by
  simp only [act, tokenAgent]
  split
  · rw [exec_decodeTrc]; exact unitStep_total ..
  · exact ⟨s, rfl⟩

theorem act_taEmit_total (s : State) : ∃ t, act exec .taEmit s = .next t := by
  simp only [act, emitAgent]
  split
  · rw [exec_record]; exact unitStep_total ..
  · exact ⟨s, rfl⟩

/-- No action faults or is refused. -/
theorem act_total (a : Action) (s : State) : ∃ t, act exec a s = .next t := by
  cases a with
  | hostRead size off => exact act_hostRead_total size off s
  | hostWrite size off v => exact act_hostWrite_total size off v s
  | tx => exact act_tx_total s
  | rx => exact act_rx_total s
  | edgeIntake => exact act_edgeIntake_total s
  | gapEdge => exact act_gapEdge_total s
  | gapSilence => exact unitStep_total ..
  | taToken => exact act_taToken_total s
  | taEmit => exact act_taEmit_total s
  | capOffer | edgeOffer | trcOffer | drvReady | recReady | tick | rst => exact ⟨_, rfl⟩

theorem step_total (s : State) : ∃ t, step s = .next t := by
  obtain ⟨a, u, hstep, -⟩ := step_act s
  exact hstep ▸ act_total a u

/-! ## Held units

A unit's step is taken only under its guard (`act_tx_next` and its likes); where the guard fails, what is left is the
state itself. -/

/-- An op is offered only amid a frame (spec/41_encoder.md R185). -/
theorem TxUnit.emitting_of_offered {u : TxUnit} {op : DriverOp} (h : u.offered = some op) : u.st = .emitting := by
  unfold TxUnit.offered at h
  split at h
  · cases h
  · assumption

/-- When the silence step is enabled (spec/43_gap_framer.md R258). -/
theorem silent_iff (s : State) :
    silent s = true ↔ s.gap.en = true ∧ s.gap.q = [] ∧ s.gap.haveLast = true ∧
      s.gap.thr.toNat < (s.env.now - s.gap.lastTs).toNat := by
  simp [silent, isGap, and_assoc]

theorem act_tx_held {s : State} (h : s.tx.st = .idle ∨ s.env.drvReady = false ∨ s.env.rst = true) :
    act exec .tx s = .next s := by
  obtain ⟨t, ht⟩ := act_total .tx s
  obtain rfl | ⟨op, hoffered, hready, hrst, -⟩ := act_tx_next ht
  · exact ht
  · have hemitting := TxUnit.emitting_of_offered hoffered
    simp_all

theorem act_rx_held {s : State} (h : s.rx.dec.st.running = false ∨ s.env.capIn = [] ∨ s.env.rst = true) :
    act exec .rx s = .next s := by
  obtain ⟨t, ht⟩ := act_total .rx s
  obtain rfl | ⟨w, rest, hcap, hrunning, hrst, -⟩ := act_rx_next ht
  · exact ht
  · simp_all

theorem act_edgeIntake_held {s : State} (h : s.env.edgeIn = [] ∨ s.env.rst = true) :
    act exec .edgeIntake s = .next s := by
  obtain ⟨t, ht⟩ := act_total .edgeIntake s
  obtain rfl | ⟨w, rest, hedge, hrst, -⟩ := act_edgeIntake_next ht
  · exact ht
  · simp_all

theorem act_gapEdge_held {s : State} (h : s.gap.en = false ∨ s.gap.q = [] ∨ s.env.rst = true) :
    act exec .gapEdge s = .next s := by
  obtain ⟨t, ht⟩ := act_total .gapEdge s
  obtain rfl | ⟨e, rest, hq, hen, hrst, -⟩ := act_gapEdge_next ht
  · exact ht
  · simp_all

theorem act_gapSilence_held {s : State}
    (h : s.gap.en = false ∨ s.gap.q ≠ [] ∨ s.gap.haveLast = false ∨
      (s.env.now - s.gap.lastTs).toNat ≤ s.gap.thr.toNat ∨ s.env.rst = true) :
    act exec .gapSilence s = .next s := by
  obtain ⟨t, ht⟩ := act_total .gapSilence s
  obtain rfl | ⟨hsilent, hrst, -⟩ := act_gapSilence_next ht
  · exact ht
  · obtain ⟨hen, hq, hlast, hgap⟩ := (silent_iff s).mp hsilent
    have hlong := Nat.not_le.mpr hgap
    simp_all

theorem act_taToken_held {s : State}
    (h : s.ta.busy = false ∨ s.ta.out ≠ [] ∨ s.env.trcIn = [] ∨ s.env.rst = true) :
    act exec .taToken s = .next s := by
  obtain ⟨t, ht⟩ := act_total .taToken s
  obtain rfl | ⟨w, rest, htrc, hbusy, hout, hrst, -⟩ := act_taToken_next ht
  · exact ht
  · simp_all

theorem act_taEmit_held {s : State} (h : s.ta.out = [] ∨ s.env.recReady = false ∨ s.env.rst = true) :
    act exec .taEmit s = .next s := by
  obtain ⟨t, ht⟩ := act_total .taEmit s
  obtain rfl | ⟨r, rest, hout, hready, hrst, -⟩ := act_taEmit_next ht
  · exact ht
  · simp_all

/-- Settles O58, unit by unit: a step that is not held meets its guard. -/
theorem heldUnitsStay : Obligations.HeldUnitsStay := fun _ =>
  ⟨act_tx_held, act_rx_held, act_edgeIntake_held, act_gapEdge_held, act_gapSilence_held, act_taToken_held,
    act_taEmit_held⟩

/-! ## What a unit's operation leaves unchanged

One lemma per operation: the other units, and every host register but IRQSTAT. -/

/-- The host registers are as before, IRQSTAT apart (spec/60_exceptions.md R340). -/
abbrev HostKeptButIrqstat (s t : State) : Prop := t.host = { s.host with irqstat := t.host.irqstat }

theorem txAccepted_frame (op : DriverOp) (s : State) :
    (txAccepted op s).rx = s.rx ∧ (txAccepted op s).gap = s.gap ∧ (txAccepted op s).ta = s.ta ∧
      HostKeptButIrqstat s (txAccepted op s) := by
  simp only [txAccepted]
  split
  · exact ⟨rfl, rfl, rfl, rfl⟩
  · exact ⟨rfl, rfl, rfl, rfl⟩

theorem rxConsumed_frame (ev : DecEvent) (s : State) :
    (rxConsumed ev s).tx = s.tx ∧ (rxConsumed ev s).gap = s.gap ∧ (rxConsumed ev s).ta = s.ta ∧
      HostKeptButIrqstat s (rxConsumed ev s) := by
  simp only [rxConsumed]
  split
  · exact ⟨rfl, rfl, rfl, rfl⟩
  · exact ⟨rfl, rfl, rfl, rfl⟩

theorem intakeEdge_frame (depth : Nat) (e : EdgeEvent) (s : State) :
    (intakeEdge depth e s).tx = s.tx ∧ (intakeEdge depth e s).rx = s.rx ∧ (intakeEdge depth e s).ta = s.ta ∧
      HostKeptButIrqstat s (intakeEdge depth e s) := by
  simp only [intakeEdge]
  split
  · exact ⟨rfl, rfl, rfl, rfl⟩
  · split
    · exact ⟨rfl, rfl, rfl, rfl⟩
    · exact ⟨rfl, rfl, rfl, rfl⟩

theorem publish_hostKept (d : DecState) (ovf : Bool) (s : State) : HostKeptButIrqstat s (publish d ovf s) := by
  unfold publish
  split
  · rfl
  · rfl

theorem closeFrame_hostKept (s : State) : HostKeptButIrqstat s (closeFrame s) := by
  simp only [closeFrame]
  split
  · rfl
  · exact publish_hostKept ..

theorem closeFrame_frame (s : State) :
    (closeFrame s).tx = s.tx ∧ (closeFrame s).rx = s.rx ∧ (closeFrame s).ta = s.ta ∧
      HostKeptButIrqstat s (closeFrame s) := by
  obtain ⟨htx, hrx, hta, -⟩ := closeFrame_kept s
  exact ⟨htx, hrx, hta, closeFrame_hostKept s⟩

theorem appendInterval_frame (depth : Nat) (e : PulseEvent) (s : State) :
    (appendInterval depth e s).tx = s.tx ∧ (appendInterval depth e s).rx = s.rx ∧
      (appendInterval depth e s).ta = s.ta ∧ HostKeptButIrqstat s (appendInterval depth e s) := by
  unfold appendInterval
  split
  · exact ⟨rfl, rfl, rfl, rfl⟩
  · exact ⟨rfl, rfl, rfl, rfl⟩

theorem frameEdge_frame (depth : Nat) (e : EdgeEvent) (s : State) :
    (frameEdge depth e s).tx = s.tx ∧ (frameEdge depth e s).rx = s.rx ∧ (frameEdge depth e s).ta = s.ta ∧
      HostKeptButIrqstat s (frameEdge depth e s) := by
  unfold frameEdge
  split
  · exact ⟨rfl, rfl, rfl, rfl⟩
  · split
    · exact closeFrame_frame s
    · exact appendInterval_frame ..

theorem edgeTaken_frame (depth : Nat) (e : EdgeEvent) (s : State) :
    (edgeTaken depth e s).tx = s.tx ∧ (edgeTaken depth e s).rx = s.rx ∧ (edgeTaken depth e s).ta = s.ta ∧
      HostKeptButIrqstat s (edgeTaken depth e s) :=
  frameEdge_frame depth e { s with gap := { s.gap with q := s.gap.q.tail } }

theorem silenceClosed_frame (s : State) :
    (silenceClosed s).tx = s.tx ∧ (silenceClosed s).rx = s.rx ∧ (silenceClosed s).ta = s.ta ∧
      HostKeptButIrqstat s (silenceClosed s) :=
  closeFrame_frame s

theorem recAccepted_frame (r : Record) (s : State) :
    (recAccepted r s).tx = s.tx ∧ (recAccepted r s).rx = s.rx ∧ (recAccepted r s).gap = s.gap ∧
      HostKeptButIrqstat s (recAccepted r s) := by
  cases r with
  | recon | anomaly | fin => exact ⟨rfl, rfl, rfl, rfl⟩

/-! ## What a unit's step leaves unchanged (spec/20_memory.md R95, spec/44_trace_analyzer.md R305) -/

theorem act_tx_frame {s t : State} (h : act exec .tx s = .next t) :
    t.rx = s.rx ∧ t.gap = s.gap ∧ t.ta = s.ta ∧ HostKeptButIrqstat s t := by
  obtain rfl | ⟨op, -, -, -, rfl⟩ := act_tx_next h
  · exact ⟨rfl, rfl, rfl, rfl⟩
  · exact txAccepted_frame op s

theorem act_rx_frame {s t : State} (h : act exec .rx s = .next t) :
    t.tx = s.tx ∧ t.gap = s.gap ∧ t.ta = s.ta ∧ HostKeptButIrqstat s t := by
  obtain rfl | ⟨w, -, -, -, -, rfl⟩ := act_rx_next h
  · exact ⟨rfl, rfl, rfl, rfl⟩
  · exact rxConsumed_frame (capEvent w) s

/-- The same of the three steps of the GAP framer. -/
theorem act_gap_frame {a : Action} {s t : State} (ha : a = .edgeIntake ∨ a = .gapEdge ∨ a = .gapSilence)
    (h : act exec a s = .next t) : t.tx = s.tx ∧ t.rx = s.rx ∧ t.ta = s.ta ∧ HostKeptButIrqstat s t := by
  obtain rfl | rfl | rfl := ha
  · obtain rfl | ⟨w, -, -, -, rfl⟩ := act_edgeIntake_next h
    · exact ⟨rfl, rfl, rfl, rfl⟩
    · exact intakeEdge_frame _ (edgeOfWord w) s
  · obtain rfl | ⟨e, -, -, -, -, rfl⟩ := act_gapEdge_next h
    · exact ⟨rfl, rfl, rfl, rfl⟩
    · exact edgeTaken_frame _ e s
  · obtain rfl | ⟨-, -, rfl⟩ := act_gapSilence_next h
    · exact ⟨rfl, rfl, rfl, rfl⟩
    · exact silenceClosed_frame s

/-- The same of the two steps of the TA unit. -/
theorem act_ta_frame {a : Action} {s t : State} (ha : a = .taToken ∨ a = .taEmit) (h : act exec a s = .next t) :
    t.tx = s.tx ∧ t.rx = s.rx ∧ t.gap = s.gap ∧ HostKeptButIrqstat s t := by
  obtain rfl | rfl := ha
  · obtain rfl | ⟨w, -, -, -, -, -, rfl⟩ := act_taToken_next h
    · exact ⟨rfl, rfl, rfl, rfl⟩
    · exact ⟨rfl, rfl, rfl, rfl⟩
  · obtain rfl | ⟨r, -, -, -, -, rfl⟩ := act_taEmit_next h
    · exact ⟨rfl, rfl, rfl, rfl⟩
    · exact recAccepted_frame r s

/-- No unit's step touches a host register but IRQSTAT. -/
theorem act_unit_hostKept {a : Action} {s t : State}
    (ha : a ∈ [Action.tx, .rx, .edgeIntake, .gapEdge, .gapSilence, .taToken, .taEmit])
    (h : act exec a s = .next t) : HostKeptButIrqstat s t := by
  have hunit : a = .tx ∨ a = .rx ∨ (a = .edgeIntake ∨ a = .gapEdge ∨ a = .gapSilence) ∨
      (a = .taToken ∨ a = .taEmit) := by
    simpa [or_assoc] using ha
  obtain rfl | rfl | hgap | hta := hunit
  · obtain ⟨-, -, -, hhost⟩ := act_tx_frame h
    exact hhost
  · obtain ⟨-, -, -, hhost⟩ := act_rx_frame h
    exact hhost
  · obtain ⟨-, -, -, hhost⟩ := act_gap_frame hgap h
    exact hhost
  · obtain ⟨-, -, -, hhost⟩ := act_ta_frame hta h
    exact hhost

/-- Settles O56: each step is held or is its unit's operation, and the operation has its frame. -/
theorem unitsShareNoState : Obligations.UnitsShareNoState := by
  intro a s t h
  refine ⟨?_, ?_, fun ha => ?_, fun ha => ?_, fun ha => act_unit_hostKept ha h⟩
  · rintro rfl
    obtain ⟨hrx, hgap, hta, -⟩ := act_tx_frame h
    exact ⟨hrx, hgap, hta⟩
  · rintro rfl
    obtain ⟨htx, hgap, hta, -⟩ := act_rx_frame h
    exact ⟨htx, hgap, hta⟩
  · obtain ⟨htx, hrx, hta, -⟩ := act_gap_frame ha h
    exact ⟨htx, hrx, hta⟩
  · obtain ⟨htx, hrx, hgap, -⟩ := act_ta_frame ha h
    exact ⟨htx, hrx, hgap⟩

/-! ## The environment -/

/-- NOW advances modulo 2^32 (spec/20_memory.md R84). -/
theorem tickTime_eq (us : Word) (s : State) :
    tickTime us s =
      { s with env := { s.env with now := BitVec.ofNat 32 ((s.env.now.toNat + us.toNat) % 2 ^ 32) } } := by
  have hnow : s.env.now + us = BitVec.ofNat 32 ((s.env.now.toNat + us.toNat) % 2 ^ 32) := by
    rw [← BitVec.toNat_add, BitVec.ofNat_toNat, BitVec.setWidth_eq]
  rw [tickTime, hnow]

/-- GAPCFG and TACFG0 to TACFG2 apart, every register reads 0 right after reset (spec/70_reset_and_hazards.md R370): the
256 offsets of the window, each looked up. -/
theorem readReg_reset :
    ∀ a : BitVec 8, a ∉ [0x24#8, 0x34#8, 0x38#8, 0x3C#8] → readReg a .reset = 0#32 := by decide

/-- Settles O57: NOW by its sum, the registers by `readReg_reset`, the rest by the definition of each step. -/
theorem environmentSteps : Obligations.EnvironmentSteps :=
  ⟨rfl, rfl, rfl, rfl, readReg_reset, rfl, fun s =>
    ⟨fun _ => rfl, fun _ => rfl, fun _ => rfl, fun _ => rfl, fun _ => rfl,
      fun us => congrArg Host.Outcome.next (tickTime_eq us s), rfl, _, rfl, rfl, rfl, rfl, rfl, rfl, rfl⟩⟩

end Sys2Proof.Machine
end

section
/-! PROOFS. The host's accesses (spec/20_memory.md R70 to R74): which accesses the bus refuses and what a refused one
leaves, what a legal write stores, what a legal read answers at each offset, field by field. -/

namespace Sys2Proof.Machine

open Sys2Proof.Claims

/-! ## Refused accesses (spec/20_memory.md R74, spec/60_exceptions.md R333) -/

theorem forbidden_hostRead_iff (size : Nat) (off : BitVec 8) (s : State) :
    ForbiddenAccess (.hostRead size off) s ↔ accessOk size off s = false :=
  (accessOk_eq_false_iff size off s).symm

theorem forbidden_hostWrite_iff (size : Nat) (off : BitVec 8) (v : Word) (s : State) :
    ForbiddenAccess (.hostWrite size off v) s ↔ accessOk size off s = false :=
  (accessOk_eq_false_iff size off s).symm

theorem act_hostRead_refused {size : Nat} {off : BitVec 8} {s : State} (h : accessOk size off s = false) :
    act exec (.hostRead size off) s = .next (refuseAccess off s) := by
  simp [act, hostRead, h]

theorem act_hostWrite_refused {size : Nat} {off : BitVec 8} {s : State} (h : accessOk size off s = false) (v : Word) :
    act exec (.hostWrite size off v) s = .next (refuseAccess off s) := by
  simp [act, hostWrite, h]

/-- A forbidden action is a host access, and its one effect is the bus's error response. -/
theorem act_forbidden {a : Action} {s : State} (h : ForbiddenAccess a s) :
    ∃ off, act exec a s = .next (refuseAccess off s) := by
  cases a with
  | hostRead size off => exact ⟨off, act_hostRead_refused ((forbidden_hostRead_iff size off s).mp h)⟩
  | hostWrite size off v => exact ⟨off, act_hostWrite_refused ((forbidden_hostWrite_iff size off v s).mp h) v⟩
  | tx | rx | edgeIntake | gapEdge | gapSilence | taToken | taEmit => exact h.elim
  | capOffer | edgeOffer | trcOffer | drvReady | recReady | tick | rst => exact h.elim

/-! ## The bus's response over a step -/

theorem CommandEffect.env_eq {op : BitVec 8} {s u : State} (h : CommandEffect s op u) : u.env = s.env := by
  cases h with
  | nop | result | txStart | rxStart | rxStop | gapStart | gapStop | gapAck | taStart => rfl

/-- A command leaves the boundary as it is. -/
theorem CommandNext.env_eq {op : BitVec 8} {s t : State} (h : CommandNext op s t) : t.env = s.env := by
  obtain ⟨code, -, rfl⟩ | ⟨u, hu, rfl⟩ := h
  · rfl
  · exact hu.env_eq

/-- Every action but a host access keeps the bus's response: it is the same whatever the response is, so also with the
response that stands there. -/
theorem act_bus_kept {a : Action} {s t : State} (hr : ∀ size off, a ≠ .hostRead size off)
    (hw : ∀ size off v, a ≠ .hostWrite size off v) (h : act exec a s = .next t) : t.env.bus = s.env.bus := by
  have hcomm := act_respond s.env.bus a s hr hw
  rw [respond_self, h] at hcomm
  injection hcomm with ht
  rw [ht, respond_env_bus]

/-- A legal access is answered with data or with the acceptance of the write; no other action answers. -/
theorem act_bus_legal {a : Action} {s t : State} (hlegal : ¬ ForbiddenAccess a s) (h : act exec a s = .next t) :
    t.env.bus = s.env.bus ∨ t.env.bus = .accepted ∨ ∃ v, t.env.bus = .data v := by
  cases a with
  | hostRead size off =>
    rw [forbidden_hostRead_iff] at hlegal
    obtain ⟨hbad, -⟩ | ⟨-, rfl⟩ := act_hostRead_next h
    · exact absurd hbad hlegal
    · exact .inr (.inr ⟨_, rfl⟩)
  | hostWrite size off v =>
    rw [forbidden_hostWrite_iff] at hlegal
    obtain ⟨hbad, -⟩ | ⟨-, ⟨-, hcmd⟩ | ⟨-, rfl⟩⟩ := act_hostWrite_next h
    · exact absurd hbad hlegal
    · exact .inr (.inl (by rw [hcmd.env_eq, respond_env_bus]))
    · exact .inr (.inl rfl)
  | _ => exact .inl (act_bus_kept (by simp) (by simp) h)

/-- What any action does does not depend on the bus's response that stands before it. -/
theorem act_after_respond {a : Action} {s u : State} (b : BusResponse) (h : act exec a s = .next u) :
    ∃ u', act exec a (respond b s) = .next u' ∧ u = respond u.env.bus u' := by
  cases a with
  | hostRead size off => exact ⟨u, h, rfl⟩
  | hostWrite size off v => exact ⟨u, h, rfl⟩
  | _ => exact ⟨respond b u, by rw [act_respond b _ s (by simp) (by simp), h]; rfl, rfl⟩

/-- Settles O6: `act_total`, `step_total`; a refused access is `respond` of the error, which no legal action gives and
which no action looks at. -/
theorem forbiddenAccessOnlyReported : Obligations.ForbiddenAccessOnlyReported := by
  refine ⟨act_total, step_total, fun size off v s => ⟨fun h => ?_, fun h => ?_⟩, fun a s t => act_bus_legal,
    fun a b s t u ha hact hb => ?_⟩
  · exact act_hostRead_refused ((forbidden_hostRead_iff size off s).mp h)
  · exact act_hostWrite_refused ((forbidden_hostWrite_iff size off v s).mp h) v
  · obtain ⟨off, hrefused⟩ := act_forbidden ha
    cases hact.symm.trans hrefused
    exact act_after_respond _ hb

/-! ## Legal accesses -/

theorem accessOk_legal {a : BitVec 8} {s : State} (ha : a.toNat % 4 = 0) (hr : s.env.rst = false) :
    accessOk 4 a s = true := (accessOk_iff 4 a s).mpr ⟨rfl, ha, hr⟩

theorem act_hostRead_legal {a : BitVec 8} {s : State} (ha : a.toNat % 4 = 0) (hr : s.env.rst = false) :
    act exec (.hostRead 4 a) s = .next (respond (.data (readReg a s)) s) := by
  simp [act, hostRead, accessOk_legal ha hr]

theorem act_hostWrite_cmd {s : State} (hr : s.env.rst = false) (v : Word) :
    act exec (.hostWrite 4 0x00#8 v) s = executeCommand exec v (respond .accepted s) := by
  simp [act, hostWrite, accessOk_legal (a := 0x00#8) rfl hr]

theorem act_hostWrite_reg {a : BitVec 8} {s : State} (ha : a.toNat % 4 = 0) (hr : s.env.rst = false)
    (hcmd : a ≠ 0x00#8) (v : Word) :
    act exec (.hostWrite 4 a v) s = .next (writeReg a v (respond .accepted s)) := by
  simp [act, hostWrite, accessOk_legal ha hr, hcmd]

/-! ## What a register write stores (spec/20_memory.md R72) -/

/-- The offsets whose registers a write changes, CMD apart. -/
abbrev writableRegs : List (BitVec 8) := [0x04#8, 0x24#8, 0x34#8, 0x38#8, 0x3C#8, 0x48#8, 0x4C#8]

theorem readReg_respond (a : BitVec 8) (b : BusResponse) (s : State) : readReg a (respond b s) = readReg a s := rfl

/-- ARG, GAPCFG, TACFG0 and TACFG1 take the value. -/
theorem readReg_write_plain {a : BitVec 8} (ha : a ∈ [0x04#8, 0x24#8, 0x34#8, 0x38#8]) (v : Word) (s : State) :
    readReg a (writeReg a v s) = v := by
  simp only [List.mem_cons, List.not_mem_nil, or_false] at ha
  obtain rfl | rfl | rfl | rfl := ha <;> rfl

/-- A write to a read-only or reserved offset is ignored. -/
theorem writeReg_ignored {a : BitVec 8} (ha : a ∉ writableRegs) (v : Word) (s : State) : writeReg a v s = s := by
  simp only [List.mem_cons, List.not_mem_nil, or_false, not_or] at ha
  simp [writeReg, HostRegs.write, ha]

/-- A write changes no register but the one at its offset. -/
theorem readReg_write_other {a b : BitVec 8} (hb : b ≠ a) (v : Word) (s : State) :
    readReg b (writeReg a v s) = readReg b s := by
  by_cases ha : a ∈ writableRegs
  · simp only [List.mem_cons, List.not_mem_nil, or_false] at ha
    obtain rfl | rfl | rfl | rfl | rfl | rfl | rfl := ha <;> simp only [readReg, hb, if_false] <;> rfl
  · rw [writeReg_ignored ha]

/-- Settles O53: CMD runs the command, and elsewhere `writeReg` stores what R72 says. -/
theorem memWriteStoresRegister : Obligations.MemWriteStoresRegister := by
  intro s a v ha hr
  refine ⟨?_, fun hcmd => ⟨_, act_hostWrite_reg ha hr hcmd v, rfl, rfl, rfl, rfl, rfl, fun hplain => ?_, ?_, ?_, ?_,
    fun b hb => ?_⟩⟩
  · rintro rfl; exact act_hostWrite_cmd hr v
  · exact readReg_write_plain hplain v _
  · rintro rfl; rfl
  · rintro rfl; rfl
  · rintro rfl; rfl
  · rw [← readReg_respond b .accepted s]
    obtain hne | hro := hb
    · exact readReg_write_other hne v _
    · rw [writeReg_ignored hro]

end Sys2Proof.Machine
end

section
/-! PROOFS. What a legal read answers (spec/20_memory.md R71): the fields of the status registers
(spec/10_state.md R27 to R40), then the register at each offset. -/

namespace Sys2Proof.Machine

open Sys2Proof.Claims BitVec

/-! ## Codes read back -/

theorem bit1_getLsbD (b : Bool) : (bit1 b).getLsbD 0 = b := by
  cases b with
  | false | true => rfl

theorem proto_of_code (p : Proto) : [Proto.nec, .r05d][p.code.toNat]? = some p := by
  cases p with
  | nec | r05d => rfl

theorem failCode_of_code (f : FailCode) :
    [FailCode.none, .headerMismatch, .bitPulseMismatch, .bitSpaceMismatch, .timeout][f.code.toNat]? = some f := by
  cases f with
  | none | headerMismatch | bitPulseMismatch | bitSpaceMismatch | timeout => rfl

theorem decSt_of_code (st : DecSt) :
    [DecSt.idle, .awaitHeaderMark, .awaitHeaderSpace, .awaitBitMark, .awaitBitSpace, .awaitStop, .done,
      .failed][st.code.toNat]? = some st := by
  cases st with
  | idle | awaitHeaderMark | awaitHeaderSpace | awaitBitMark | awaitBitSpace | awaitStop | done | failed => rfl

theorem cmdStatus_of_code (c : CmdStatus) :
    [CmdStatus.ok, .reservedBits, .badOpcode, .badProto, .badKind, .undefSymbol, .badIndex,
      .busy][c.code.toNat]? = some c := by
  cases c with
  | ok | reservedBits | badOpcode | badProto | badKind | undefSymbol | badIndex | busy => rfl

/-- The running states by name (spec/00_scope.md R19). -/
theorem DecSt.running_iff (st : DecSt) :
    st.running = true ↔
      st ∈ [DecSt.awaitHeaderMark, .awaitHeaderSpace, .awaitBitMark, .awaitBitSpace, .awaitStop] := by
  cases st with
  | idle | awaitHeaderMark | awaitHeaderSpace | awaitBitMark | awaitBitSpace | awaitStop | done | failed => decide

theorem protoReads_of_field {v : Word} {p : Proto} (h : v.extractLsb' 4 4 = p.code) : ProtoReads v p := by
  rw [ProtoReads, h]; exact proto_of_code p

theorem outcomeReads_of_fields {v : Word} {fail : FailCode} {index : Nat} {warn : Bool}
    (hfail : v.extractLsb' 12 4 = fail.code) (hindex : v.extractLsb' 16 8 = BitVec.ofNat 8 index)
    (hwarn : v.getLsbD 24 = warn) : OutcomeReads v fail index warn := by
  refine ⟨?_, ?_, hwarn⟩
  · rw [hfail]; exact failCode_of_code fail
  · rw [hindex, BitVec.toNat_ofNat]

/-! ## The fields of the status registers

A status register is its fields appended, so what stands at a field's place is that field. -/

theorem getLsbD_of_field {v : Word} {i : Nat} {b : Bool} (h : v.extractLsb' i 1 = bit1 b) : v.getLsbD i = b := by
  have hbit : (v.extractLsb' i 1).getLsbD 0 = v.getLsbD i := by simp
  rw [← hbit, h, bit1_getLsbD]

theorem getLsbD_iff_of_field {v : Word} {i : Nat} {p : Prop} [Decidable p]
    (h : v.extractLsb' i 1 = bit1 (decide p)) : v.getLsbD i = true ↔ p := by
  rw [getLsbD_of_field h, decide_eq_true_eq]

theorem cstat_fields (r : HostRegs) :
    (cstat r).extractLsb' 0 4 = r.err.code ∧ (cstat r).extractLsb' 4 4 = 0#4 ∧
      (cstat r).extractLsb' 8 8 = r.lastOp ∧ (cstat r).extractLsb' 16 16 = 0#16 := by
  simp (disch := decide) only [cstat, extractLsb'_append_eq_of_le, extractLsb'_append_eq_of_add_le,
    extractLsb'_eq_self, Nat.reduceSub, and_true]

theorem txstat_fields (u : TxUnit) :
    (txstat u).extractLsb' 0 1 = bit1 (decide (u.st = .emitting)) ∧ (txstat u).extractLsb' 1 1 = bit1 u.done ∧
      (txstat u).extractLsb' 2 2 = 0#2 ∧ (txstat u).extractLsb' 4 4 = u.proto.code ∧
      (txstat u).extractLsb' 8 8 = 0#8 ∧ (txstat u).extractLsb' 16 16 = u.events := by
  simp (disch := decide) only [txstat, extractLsb'_append_eq_of_le, extractLsb'_append_eq_of_add_le,
    extractLsb'_eq_self, Nat.reduceSub, and_true]

theorem rxstat_fields (u : RxUnit) :
    (rxstat u).extractLsb' 0 1 = bit1 u.dec.st.running ∧
      (rxstat u).extractLsb' 1 1 = bit1 (decide (u.dec.st = .done)) ∧
      (rxstat u).extractLsb' 2 1 = bit1 (decide (u.dec.st = .failed)) ∧ (rxstat u).extractLsb' 3 1 = bit1 false ∧
      (rxstat u).extractLsb' 4 4 = u.proto.code ∧ (rxstat u).extractLsb' 8 4 = u.dec.st.code ∧
      (rxstat u).extractLsb' 12 4 = u.dec.fail.code ∧ (rxstat u).extractLsb' 16 8 = BitVec.ofNat 8 u.dec.i ∧
      (rxstat u).extractLsb' 24 1 = bit1 u.dec.warn ∧ (rxstat u).extractLsb' 25 7 = 0#7 := by
  simp (disch := decide) only [rxstat, extractLsb'_append_eq_of_le, extractLsb'_append_eq_of_add_le,
    extractLsb'_eq_self, Nat.reduceSub, and_true, true_and]
  rfl

theorem gapstat_fields (u : GapUnit) :
    (gapstat u).extractLsb' 0 1 = bit1 u.en ∧ (gapstat u).extractLsb' 1 1 = bit1 u.result.isSome ∧
      (gapstat u).extractLsb' 2 1 = bit1 u.shown.failed ∧ (gapstat u).extractLsb' 3 1 = bit1 u.shown.frameOvf ∧
      (gapstat u).extractLsb' 4 4 = u.proto.code ∧ (gapstat u).extractLsb' 8 4 = 0#4 ∧
      (gapstat u).extractLsb' 12 4 = u.shown.fail.code ∧
      (gapstat u).extractLsb' 16 8 = BitVec.ofNat 8 u.shown.index ∧
      (gapstat u).extractLsb' 24 1 = bit1 u.shown.stopWarn ∧ (gapstat u).extractLsb' 25 1 = bit1 u.edgeOvf ∧
      (gapstat u).extractLsb' 26 1 = bit1 u.resultOverrun ∧ (gapstat u).extractLsb' 27 5 = 0#5 := by
  simp (disch := decide) only [gapstat, extractLsb'_append_eq_of_le, extractLsb'_append_eq_of_add_le,
    extractLsb'_eq_self, Nat.reduceSub, and_true]

theorem tastat_fields (u : TaUnit) :
    (tastat u).extractLsb' 0 1 = bit1 u.busy ∧ (tastat u).extractLsb' 1 1 = bit1 u.done ∧
      (tastat u).extractLsb' 2 14 = 0#14 ∧ (tastat u).extractLsb' 16 16 = u.anomalies := by
  simp (disch := decide) only [tastat, extractLsb'_append_eq_of_le, extractLsb'_append_eq_of_add_le,
    extractLsb'_eq_self, Nat.reduceSub, and_true]

/-! ## The status registers as the host reads them (spec/10_state.md R27 to R40) -/

theorem cstatReads (r : HostRegs) : CstatReads (cstat r) r := by
  obtain ⟨herr, hfields⟩ := cstat_fields r
  exact ⟨herr ▸ cmdStatus_of_code r.err, hfields⟩

theorem txstatReads (u : TxUnit) : TxstatReads (txstat u) u := by
  obtain ⟨hbusy, hdone, hres, hproto, hfields⟩ := txstat_fields u
  exact ⟨getLsbD_iff_of_field hbusy, getLsbD_of_field hdone, hres, protoReads_of_field hproto, hfields⟩

theorem rxstatReads (u : RxUnit) : RxstatReads (rxstat u) u := by
  obtain ⟨hbusy, hdone, hfailed, hres, hproto, hst, hfail, hindex, hwarn, htop⟩ := rxstat_fields u
  refine ⟨?_, getLsbD_iff_of_field hdone, getLsbD_iff_of_field hfailed, getLsbD_of_field hres,
    protoReads_of_field hproto, hst ▸ decSt_of_code u.dec.st,
    outcomeReads_of_fields hfail hindex (getLsbD_of_field hwarn), htop⟩
  rw [getLsbD_of_field hbusy]
  exact u.dec.st.running_iff

theorem GapUnit.shown_none {u : GapUnit} (h : u.result = none) : u.shown = .absent := by simp [GapUnit.shown, h]

theorem GapUnit.shown_some {u : GapUnit} {r : GapResult} (h : u.result = some r) : u.shown = r := by
  simp [GapUnit.shown, h]

/-- GAPSTAT's result fields read 0 while no result is latched (spec/10_state.md R35). -/
theorem gapstat_absent {u : GapUnit} (h : u.result = none) :
    (gapstat u).extractLsb' 2 2 = 0#2 ∧ (gapstat u).extractLsb' 12 13 = 0#13 := by
  obtain ⟨-, -, hfailed, hovf, -, -, hfail, hindex, hwarn, -⟩ := gapstat_fields u
  rw [GapUnit.shown_none h] at hfailed hovf hfail hindex hwarn
  constructor
  · rw [← extractLsb'_append_extractLsb'_eq_extractLsb' (start₂ := 3) (len₂ := 1) (start₁ := 2) (len₁ := 1) rfl,
      hfailed, hovf]
    rfl
  · rw [← extractLsb'_append_extractLsb'_eq_extractLsb' (start₂ := 24) (len₂ := 1) (start₁ := 12) (len₁ := 12) rfl,
      ← extractLsb'_append_extractLsb'_eq_extractLsb' (start₂ := 16) (len₂ := 8) (start₁ := 12) (len₁ := 4) rfl,
      hfail, hindex, hwarn]
    rfl

theorem gapstatReads (u : GapUnit) : GapstatReads (gapstat u) u := by
  obtain ⟨hen, hpending, hfailed, hovf, hproto, hres, hfail, hindex, hwarn, hedge, hoverrun, htop⟩ := gapstat_fields u
  refine ⟨getLsbD_of_field hen, ?_, protoReads_of_field hproto, hres, getLsbD_of_field hedge,
    getLsbD_of_field hoverrun, htop, gapstat_absent, fun r hr => ?_⟩
  · rw [getLsbD_of_field hpending, Option.isSome_iff_ne_none]
  · rw [GapUnit.shown_some hr] at hfailed hovf hfail hindex hwarn
    exact ⟨getLsbD_of_field hfailed, getLsbD_of_field hovf,
      outcomeReads_of_fields hfail hindex (getLsbD_of_field hwarn)⟩

theorem tastatReads (u : TaUnit) : TastatReads (tastat u) u := by
  obtain ⟨hbusy, hdone, hfields⟩ := tastat_fields u
  exact ⟨getLsbD_of_field hbusy, getLsbD_of_field hdone, hfields⟩

/-! ## Result words -/

/-- RXDATA0 and RXDATA1 of a sound decoder: the result while Done, else 0 (spec/10_state.md R32, R33). -/
theorem RxUnit.Sound.data {u : RxUnit} (h : u.Sound) :
    u.data0 = (if u.dec.st = .done then resultData0 u.proto u.dec else 0#32) ∧
      u.data1 = (if u.dec.st = .done then resultData1 u.proto u.dec else 0#32) := by
  by_cases hd : u.dec.st = .done
  · simpa only [if_pos hd] using h.data_done hd
  · simpa only [if_neg hd] using h.data_zero hd

/-- GAPDATA0 and GAPDATA1 of a sound framer are 0 for a latched failure (spec/10_state.md R36). -/
theorem GapUnit.Sound.failed_data {u : GapUnit} {r : GapResult} (h : u.Sound) (hr : u.result = some r)
    (hf : r.failed = true) : r.data0 = 0#32 ∧ r.data1 = 0#32 := by
  obtain ⟨h0, h1, -⟩ := (h.result_sound r hr).failed_data hf
  exact ⟨h0, h1⟩

/-! ## Every offset -/

/-- The offsets from 0x50 are reserved (spec/10_state.md R22). -/
theorem readReg_reserved {a : BitVec 8} (ha : 0x50 ≤ a.toNat) (s : State) : readReg a s = 0#32 := by
  have hne : ∀ b : BitVec 8, b.toNat < 0x50 → a ≠ b := by rintro b hb rfl; omega
  simp [readReg, hne]

/-- Settles O52: a legal read answers `readReg`; the status registers by their fields, the result words by the soundness
of their unit, each other register by its line of `readReg`. -/
theorem memReadReturnsRegister : Obligations.MemReadReturnsRegister := by
  intro s a ha hr
  refine ⟨readReg a s, act_hostRead_legal ha hr, ?zero, ?arg, ?cres0, ?cres1, ?cstat, ?txstat, ?rxstat, ?rxdata0,
    ?rxdata1, ?gapcfg, ?gapstat, ?gapdata0, ?gapdata1, ?tacfg0, ?tacfg1, ?tacfg2, ?tastat, ?taruns, ?irqen, ?irqstat⟩
  case zero =>
    rintro (rfl | hreserved)
    · rfl
    · exact readReg_reserved hreserved s
  case cstat => rintro rfl; exact cstatReads s.host
  case txstat => rintro rfl; exact txstatReads s.tx
  case rxstat => rintro rfl; exact rxstatReads s.rx
  case rxdata0 => rintro rfl; exact ⟨rfl, fun hs => hs.data.1⟩
  case rxdata1 => rintro rfl; exact ⟨rfl, fun hs => hs.data.2⟩
  case gapstat => rintro rfl; exact gapstatReads s.gap
  case gapdata0 =>
    rintro rfl
    refine ⟨fun hnone => congrArg GapResult.data0 (GapUnit.shown_none hnone), fun r hsome => ?_⟩
    have hv : readReg 0x2C#8 s = r.data0 := congrArg GapResult.data0 (GapUnit.shown_some hsome)
    exact ⟨hv, fun hs hf => hv.trans (hs.failed_data hsome hf).1⟩
  case gapdata1 =>
    rintro rfl
    refine ⟨fun hnone => congrArg GapResult.data1 (GapUnit.shown_none hnone), fun r hsome => ?_⟩
    have hv : readReg 0x30#8 s = r.data1 := congrArg GapResult.data1 (GapUnit.shown_some hsome)
    exact ⟨hv, fun hs hf => hv.trans (hs.failed_data hsome hf).2⟩
  case tastat => rintro rfl; exact tastatReads s.ta
  all_goals rintro rfl; rfl

end Sys2Proof.Machine
end

section
/-! PROOFS. The encodings (spec/30_encoding.md sections 2 and 3): decoding after encoding and encoding after decoding,
format by format, over the field lemmas of Laws/Decode.lean. -/

namespace Sys2Proof

open Machine Claims

/-! ## Command words -/

/-- A command word decodes to what the opcode map gives for its opcode (spec/30_encoding.md R106). -/
theorem decode_cmdWord {op : BitVec 8} {p k : BitVec 4} {i : Instr} (h : decodeOp op p k = .ok i) :
    decode (.cmd (cmdWord op p k)) = .ok i := by
  rw [decode, decodeCmd_cmdWord, h]

/-- An opcode outside the map is rejected (spec/30_encoding.md R107). -/
theorem decodeOp_badOpcode {op : BitVec 8} (h : op ∉ opcodeMap) (p k : BitVec 4) :
    decodeOp op p k = .error .badOpcode := by
  simp only [opcodeMap, List.mem_cons, List.not_mem_nil, or_false, not_or] at h
  simp only [decodeOp, h, if_false]

/-- The encoder's opcodes are those of the decoder's opcode map (spec/30_encoding.md R106). -/
theorem encode_of_decodeOp {op : BitVec 8} {p k : BitVec 4} {i : Instr} (h : decodeOp op p k = .ok i) :
    encode i = .cmd (cmdWord op p k) := by
  by_cases hop : op ∈ opcodeMap
  · simp only [opcodeMap, List.mem_cons, List.not_mem_nil, or_false] at hop
    obtain rfl | rfl | rfl | rfl | rfl | rfl | rfl | rfl | rfl | rfl | rfl | rfl | rfl := hop <;> cases h <;> rfl
  · rw [decodeOp_badOpcode hop] at h; cases h

/-- A command has no reserved bit set and an opcode of the map (spec/30_encoding.md R107). -/
theorem decodeCmd_eq_ok_iff {v : BitVec 32} {i : Instr} :
    decodeCmd v = .ok i ↔
      v.extractLsb' 16 16 = 0#16 ∧ decodeOp (opField v) (protoField v) (kindField v) = .ok i := by
  by_cases h : v.extractLsb' 16 16 = 0#16
  · simp [decodeCmd, h]
  · simp [decodeCmd, h]

theorem decode_cmd_eq_ok_iff {v : BitVec 32} {i : Instr} : decode (.cmd v) = .ok i ↔ decodeCmd v = .ok i := by
  cases h : decodeCmd v with
  | ok j => simp [decode, h]
  | error why => simp [decode, h]

/-! ## The words the units push -/

/-- A DRV word that decodes is the word of a driver op (spec/30_encoding.md R110). -/
theorem driverOp_of_decodeDrv {w : BitVec 32} {i : Instr} (h : decodeDrv w = .ok i) :
    ∃ op : DriverOp, i = op.instr ∧ w = op.word := by
  unfold decodeDrv at h
  split_ifs at h with hdisable henable hdelay
  · cases h; exact ⟨.disable, rfl, hdisable⟩
  · cases h; exact ⟨.enable, rfl, henable⟩
  · cases h
    refine ⟨.delay (w.extractLsb' 0 24), rfl, ?_⟩
    rw [DriverOp.word, delayWord, ← hdelay, BitVec.extractLsb'_append_extractLsb']

/-- Every REC word with its low bits 0 is the word of its fields (spec/30_encoding.md R114). -/
theorem recWord_fields {w : BitVec 64} (h : w.extractLsb' 0 16 = 0#16) :
    recWord (w.extractLsb' 62 2) (Polarity.ofBit (w.getLsbD 61)) (w.extractLsb' 32 29) (w.extractLsb' 16 16) = w := by
  have hpol : (Polarity.ofBit (w.getLsbD 61)).bit = w.extractLsb' 61 1 := by
    rw [ofBit_bit_of]
    ext i hi
    obtain rfl : i = 0 := by omega
    simp
  rw [recWord, hpol, ← h]
  simp (disch := decide) only [BitVec.extractLsb'_append_extractLsb'_eq_extractLsb']
  exact BitVec.extractLsb'_eq_self

/-- A REC word that decodes is the word of a record (spec/30_encoding.md R114). -/
theorem record_of_decodeRec {w : BitVec 64} {i : Instr} (h : decodeRec w = .ok i) :
    ∃ r : Record, i = r.instr ∧ w = r.word := by
  unfold decodeRec at h
  split_ifs at h with hend hlow hrecon hanomaly
  · cases h; exact ⟨.fin, rfl, hend⟩
  · cases h
    refine ⟨.recon _ _ _, rfl, ?_⟩
    rw [Record.word, ← hrecon, recWord_fields (not_not.mp hlow)]
  · cases h
    refine ⟨.anomaly _ _ _, rfl, ?_⟩
    rw [Record.word, ← hanomaly, recWord_fields (not_not.mp hlow)]

/-! ## The words of the input ports -/

theorem encode_decodeCap (w : BitVec 34) : encode (decodeCap w) = .cap w := by
  obtain ⟨t, pol, dur, rfl, rfl | rfl⟩ := capWord_surj w
  · rw [decodeCap_pulse]; rfl
  · rw [decodeCap_timeout]; rfl

theorem encode_decodeEdge (w : BitVec 33) : encode (decodeEdge w) = .edge w := by
  obtain ⟨pol, ts, rfl⟩ := edgeWord_surj w
  rw [decodeEdge_word]; rfl

theorem encode_decodeTrc (w : BitVec 9) : encode (decodeTrc w) = .trc w := by
  obtain ⟨e, data, rfl, rfl | rfl⟩ := trcWord_surj w
  · rw [decodeTrc_byte]; rfl
  · rw [decodeTrc_end]; rfl

/-! ## All formats -/

/-- Settles O1, constructor by constructor: the fields of each format read back from its word. -/
theorem decodeOfEncode : Obligations.DecodeOfEncode := by
  intro i
  cases i with
  | nop | nominal | window | matchSym | nearest | symbol => exact decode_cmdWord rfl
  | txStart | rxStart | rxStop | gapStart | gapStop | gapAck | taStart => exact decode_cmdWord rfl
  | drvDisable => exact decodeDrv_word .disable
  | drvEnable => exact decodeDrv_word .enable
  | drvDelay n => exact decodeDrv_word (.delay n)
  | capPulse pol dur => exact congrArg Except.ok (decodeCap_pulse pol dur)
  | capTimeout pol dur => exact congrArg Except.ok (decodeCap_timeout pol dur)
  | edge pol ts => exact congrArg Except.ok (decodeEdge_word pol ts)
  | trcByte data => exact congrArg Except.ok (decodeTrc_byte data)
  | trcEnd data => exact congrArg Except.ok (decodeTrc_end data)
  | recRecon pol m n => exact decodeRec_word (.recon pol m n)
  | recAnomaly pol m n => exact decodeRec_word (.anomaly pol m n)
  | recEnd => exact decodeRec_word .fin

/-- Settles O2, port by port: a word that decodes is a word made of its fields. -/
theorem encodeOfDecode : Obligations.EncodeOfDecode := by
  intro w i h
  cases w with
  | cmd v =>
    obtain ⟨hreserved, hop⟩ := decodeCmd_eq_ok_iff.mp (decode_cmd_eq_ok_iff.mp h)
    rw [encode_of_decodeOp hop, cmdWord_fields hreserved]
  | drv w =>
    obtain ⟨op, rfl, rfl⟩ := driverOp_of_decodeDrv h
    exact encode_driverOp op
  | cap w => cases h; exact encode_decodeCap w
  | edge w => cases h; exact encode_decodeEdge w
  | trc w => cases h; exact encode_decodeTrc w
  | record w =>
    obtain ⟨r, rfl, rfl⟩ := record_of_decodeRec h
    exact encode_record r

/-- Settles O3: an appended word is the disjunction of its shifted parts, and its fields read back. -/
theorem commandWordFromFields : Obligations.CommandWordFromFields := by
  intro op p k
  refine ⟨?_, opField_cmdWord op p k, protoField_cmdWord op p k, kindField_cmdWord op p k, reserved_cmdWord op p k⟩
  calc cmdWord op p k = (0#16 ++ k ++ p ++ op).setWidth 32 := (BitVec.setWidth_eq _).symm
    _ = _ := by
      rw [BitVec.setWidth_append_append_append_eq_shiftLeft_setWidth_or]
      simp

/-- Settles O4: each word is looked up in the tables of its format. -/
theorem specWordsDecode : Obligations.SpecWordsDecode :=
  ⟨rfl, rfl, rfl, rfl, rfl, rfl, rfl, rfl, rfl, rfl, rfl, rfl⟩

end Sys2Proof
end

section
/-! PROOFS. The layout of the frames (spec/30_encoding.md R115, R116). A NEC frame and an R05D sub-frame are both a
header pair, one pair per bit and a stop; they are read off that common form. -/

namespace Sys2Proof.Machine

open Sys2Proof.Claims

/-! ## A header, one pair per bit, a stop -/

/-- The symbols of a frame that carries these bits, first bit first. -/
def pairedSymbols (bits : List Bool) (stop : List FrameSymbol) : List FrameSymbol :=
  headerSymbols ++ bits.flatMap bitSymbols ++ stop

/-- The Mark of one bit (spec/30_encoding.md R115, R116). -/
def bitMark (b : Bool) : FrameSymbol := (.mark, if b then .bit1Mark else .bit0Mark)

/-- The Space of one bit (spec/30_encoding.md R115, R116). -/
def bitSpace (b : Bool) : FrameSymbol := (.space, if b then .bit1Space else .bit0Space)

theorem bitSymbols_eq (b : Bool) : bitSymbols b = [bitMark b, bitSpace b] := by
  cases b with
  | false | true => rfl

theorem bitPairs_getElem? (bits : List Bool) (i : Nat) :
    (bits.flatMap bitSymbols)[2 * i]? = bits[i]?.map bitMark ∧
      (bits.flatMap bitSymbols)[2 * i + 1]? = bits[i]?.map bitSpace := by
  induction bits generalizing i with
  | nil => simp
  | cons b bs ih =>
    rw [List.flatMap_cons, bitSymbols_eq]
    cases i with
    | zero => exact ⟨rfl, rfl⟩
    | succ i => exact ih i

theorem bitPairs_length (bits : List Bool) : (bits.flatMap bitSymbols).length = 2 * bits.length := by
  simp [List.length_flatMap, bitSymbols_length, Nat.mul_comm]

theorem pairedSymbols_length (bits : List Bool) (stop : List FrameSymbol) :
    (pairedSymbols bits stop).length = 2 + 2 * bits.length + stop.length := by
  simp only [pairedSymbols, List.length_append, bitPairs_length]
  rfl

theorem pairedSymbols_bit {bits : List Bool} {i : Nat} {b : Bool} (h : bits[i]? = some b) (stop : List FrameSymbol) :
    (pairedSymbols bits stop)[2 + 2 * i]? = some (bitMark b) ∧
      (pairedSymbols bits stop)[3 + 2 * i]? = some (bitSpace b) := by
  have hi : i < bits.length := (List.getElem?_eq_some_iff.mp h).1
  have hlen := bitPairs_length bits
  have hpair (j : Nat) (hj : j < 2) :
      (pairedSymbols bits stop)[2 * i + j + 2]? = (bits.flatMap bitSymbols)[2 * i + j]? :=
    List.getElem?_append_left (l₁ := bits.flatMap bitSymbols) (by omega)
  obtain ⟨hmark, hspace⟩ := bitPairs_getElem? bits i
  rw [h] at hmark hspace
  constructor
  · rw [Nat.add_comm 2]; exact (hpair 0 (by decide)).trans hmark
  · rw [Nat.add_comm 3]; exact (hpair 1 (by decide)).trans hspace

theorem pairedSymbols_stop {bits : List Bool} {n : Nat} (h : bits.length = n) (stop : List FrameSymbol) (j : Nat) :
    (pairedSymbols bits stop)[2 + 2 * n + j]? = stop[j]? := by
  have hlen : (headerSymbols ++ bits.flatMap bitSymbols).length = 2 + 2 * n := by
    rw [List.length_append, bitPairs_length, h]; rfl
  rw [pairedSymbols, List.getElem?_append_right (by omega), hlen, Nat.add_sub_cancel_left]

/-! ## NEC -/

/-- The bits of a NEC frame, least significant bit first (spec/30_encoding.md R115). -/
def necBits (v : Word) : List Bool := (List.range 32).map v.getLsbD

theorem necBits_length (v : Word) : (necBits v).length = 32 := rfl

theorem necBits_getElem? (v : Word) {i : Nat} (hi : i < 32) : (necBits v)[i]? = some (v.getLsbD i) := by
  simp [necBits, hi]

theorem necSymbols_eq (v : Word) : necSymbols v = pairedSymbols (necBits v) [(.mark, .stopMark)] := by
  rw [necSymbols, pairedSymbols, necBits, List.flatMap_map]

theorem necSymbols_bit (v : Word) {i : Nat} (hi : i < 32) :
    (necSymbols v)[2 + 2 * i]? = some (bitMark (v.getLsbD i)) ∧
      (necSymbols v)[3 + 2 * i]? = some (bitSpace (v.getLsbD i)) := by
  rw [necSymbols_eq]
  exact pairedSymbols_bit (necBits_getElem? v hi) _

theorem necSymbols_stop (v : Word) : (necSymbols v)[66]? = some (.mark, .stopMark) := by
  rw [necSymbols_eq]
  exact pairedSymbols_stop (necBits_length v) _ 0

theorem encodeNEC_getElem? {v : Word} {i : Nat} {x : FrameSymbol} (h : (necSymbols v)[i]? = some x) :
    (encodeNEC v)[i]? = some (symbolEvent .nec x) := by
  rw [encodeNEC, List.getElem?_map, h, Option.map_some]

theorem symbolEvent_nec_bitMark (b : Bool) : symbolEvent .nec (bitMark b) = ⟨.mark, 560#32⟩ := by
  cases b with
  | false | true => rfl

theorem symbolEvent_nec_bitSpace (b : Bool) :
    symbolEvent .nec (bitSpace b) = ⟨.space, if b then 1690#32 else 560#32⟩ := by
  cases b with
  | false | true => rfl

/-- Settles O17: the symbols by the common form, each event by its symbol's nominal. -/
theorem necFrameLayout : Obligations.NecFrameLayout := by
  intro v
  refine ⟨frame_length .nec v, rfl, rfl, fun i hi => ?_, encodeNEC_getElem? (necSymbols_stop v), rfl, rfl, rfl,
    fun i hi => necSymbols_bit v hi, necSymbols_stop v⟩
  obtain ⟨hmark, hspace⟩ := necSymbols_bit v hi
  rw [encodeNEC_getElem? hmark, encodeNEC_getElem? hspace, symbolEvent_nec_bitMark, symbolEvent_nec_bitSpace]
  exact ⟨rfl, rfl⟩

/-! ## R05D -/

/-- The bits of one byte, most significant bit first (spec/30_encoding.md R116). -/
def byteBits (b : Byte) : List Bool := [7, 6, 5, 4, 3, 2, 1, 0].map b.getLsbD

theorem byteBits_length (b : Byte) : (byteBits b).length = 8 := rfl

theorem byteBits_getElem? (b : Byte) {i : Nat} (hi : i < 8) : (byteBits b)[i]? = some (b.getLsbD (7 - i)) := by
  have h : ∀ j < 8, [7, 6, 5, 4, 3, 2, 1, 0][j]? = some (7 - j) := by decide
  rw [byteBits, List.getElem?_map, h i hi]
  rfl

theorem bytesBits_getElem? {bytes : List Byte} {k : Nat} {byte : Byte} (h : bytes[k / 8]? = some byte) :
    (bytes.flatMap byteBits)[k]? = some (byte.getLsbD (7 - k % 8)) := by
  induction bytes generalizing k with
  | nil => simp at h
  | cons b bs ih =>
    rw [List.flatMap_cons]
    by_cases hk : k < 8
    · rw [Nat.div_eq_of_lt hk, List.getElem?_cons_zero] at h
      cases h
      rw [List.getElem?_append_left hk, byteBits_getElem? _ hk, Nat.mod_eq_of_lt hk]
    · obtain ⟨k, rfl⟩ := Nat.exists_eq_add_of_le' (Nat.not_lt.mp hk)
      rw [Nat.add_div_right k (by decide), List.getElem?_cons_succ] at h
      rw [List.getElem?_append_right (by simp [byteBits_length]), byteBits_length, Nat.add_sub_cancel, ih h,
        Nat.add_mod_right]

theorem subFrameSymbols_eq (a b c : Byte) :
    subFrameSymbols a b c =
      pairedSymbols ((subFrameBytes a b c).flatMap byteBits) [(.mark, .stopMark), (.space, .stopSpace)] := by
  rw [subFrameSymbols, pairedSymbols, List.flatMap_assoc]
  simp only [byteBits, List.flatMap_map]
  rfl

theorem subFrameBits_length (a b c : Byte) : ((subFrameBytes a b c).flatMap byteBits).length = 48 := rfl

theorem subFrameSymbols_bit (a b c : Byte) {k : Nat} {byte : Byte} (h : (subFrameBytes a b c)[k / 8]? = some byte) :
    (subFrameSymbols a b c)[2 + 2 * k]? = some (bitMark (byte.getLsbD (7 - k % 8))) ∧
      (subFrameSymbols a b c)[3 + 2 * k]? = some (bitSpace (byte.getLsbD (7 - k % 8))) := by
  rw [subFrameSymbols_eq]
  exact pairedSymbols_bit (bytesBits_getElem? h) _

theorem subFrameSymbols_stop (a b c : Byte) :
    (subFrameSymbols a b c)[98]? = some (.mark, .stopMark) ∧
      (subFrameSymbols a b c)[99]? = some (.space, .stopSpace) := by
  rw [subFrameSymbols_eq]
  exact ⟨pairedSymbols_stop (subFrameBits_length a b c) _ 0, pairedSymbols_stop (subFrameBits_length a b c) _ 1⟩

theorem subFrame_getElem? {a b c : Byte} {i : Nat} {x : FrameSymbol} (h : (subFrameSymbols a b c)[i]? = some x) :
    (subFrame a b c)[i]? = some (symbolEvent .r05d x) := by
  rw [subFrame, List.getElem?_map, h, Option.map_some]

theorem subFrame_length (a b c : Byte) : (subFrame a b c).length = 100 := by
  rw [subFrame, List.length_map, subFrameSymbols_eq, pairedSymbols_length, subFrameBits_length]
  rfl

theorem symbolEvent_r05d_bitMark (b : Bool) : symbolEvent .r05d (bitMark b) = ⟨.mark, 540#32⟩ := by
  cases b with
  | false | true => rfl

theorem symbolEvent_r05d_bitSpace (b : Bool) :
    symbolEvent .r05d (bitSpace b) = ⟨.space, if b then 1620#32 else 540#32⟩ := by
  cases b with
  | false | true => rfl

/-- Settles O18: the symbols by the common form, each event by its symbol's nominal. -/
theorem r05dFrameLayout : Obligations.R05dFrameLayout := by
  intro a b c
  obtain ⟨hstopMark, hstopSpace⟩ := subFrameSymbols_stop a b c
  refine ⟨rfl, subFrame_length a b c, rfl, rfl, fun k byte _ hbyte => ?_, subFrame_getElem? hstopMark,
    subFrame_getElem? hstopSpace, rfl, rfl, fun k byte _ hbyte => subFrameSymbols_bit a b c hbyte, hstopMark,
    hstopSpace⟩
  obtain ⟨hmark, hspace⟩ := subFrameSymbols_bit a b c hbyte
  rw [subFrame_getElem? hmark, subFrame_getElem? hspace, symbolEvent_r05d_bitMark, symbolEvent_r05d_bitSpace]
  exact ⟨rfl, rfl⟩

end Sys2Proof.Machine
end

section
/-! PROOFS. A step runs the instruction its word decodes to (spec/60_exceptions.md R348): what a step takes from the
script, the word of each agent's action, the words that `placeWord` puts first (log 6). -/

namespace Sys2Proof.Machine

/-! ## The action a step takes (log 2) -/

theorem step_scripted {s : State} {a : Action} {rest : List Action} (h : s.env.pending = a :: rest) :
    step s = act exec a { s with env := { s.env with pending := rest } } := by
  simp only [step, h, dropPending, List.tail_cons]

theorem step_unscripted {s : State} (h : s.env.pending = []) :
    step s = act exec (Config.freeAction s.env.picks) (countPick s) := by
  simp only [step, h]

/-! ## The word an action is about -/

theorem executeCommand_decoded {v : Word} {i : Instr} (h : decode (.cmd v) = .ok i) (s : State) :
    executeCommand exec v s = exec i s := by
  rw [executeCommand, decode_cmd_eq_ok_iff.mp h]

theorem act_hostWrite_cmd_decoded {s : State} {v : Word} {i : Instr} (hr : s.env.rst = false)
    (h : decode (.cmd v) = .ok i) : act exec (.hostWrite 4 0x00#8 v) s = exec i (respond .accepted s) := by
  rw [act_hostWrite_cmd hr, executeCommand_decoded h]

theorem act_rx_decoded {s : State} {w : BitVec 34} {ws : List (BitVec 34)} {i : Instr} (hw : s.env.capIn = w :: ws)
    (h : decode (.cap w) = .ok i) : act exec .rx s = exec i s := by
  cases h
  simp only [act, rxAgent, hw]

theorem act_edgeIntake_decoded {s : State} {w : BitVec 33} {ws : List (BitVec 33)} {i : Instr}
    (hw : s.env.edgeIn = w :: ws) (h : decode (.edge w) = .ok i) : act exec .edgeIntake s = exec i s := by
  cases h
  simp only [act, intakeAgent, hw]

theorem act_taToken_decoded {s : State} {w : BitVec 9} {ws : List (BitVec 9)} {i : Instr}
    (hw : s.env.trcIn = w :: ws) (h : decode (.trc w) = .ok i) : act exec .taToken s = exec i s := by
  cases h
  simp only [act, tokenAgent, hw]

theorem act_tx_decoded {s : State} {op : DriverOp} {i : Instr} (hop : s.tx.offered = some op)
    (h : decode (.drv op.word) = .ok i) : act exec .tx s = exec i s := by
  cases (decodeDrv_word op).symm.trans h
  simp only [act, txAgent, hop]

theorem act_taEmit_decoded {s : State} {r : Record} {rs : List Record} {i : Instr} (hr : s.ta.out = r :: rs)
    (h : decode (.record r.word) = .ok i) : act exec .taEmit s = exec i s := by
  cases (decodeRec_word r).symm.trans h
  simp only [act, emitAgent, hr]

/-! ## Placed words (log 6) -/

theorem opOfWord_word (op : DriverOp) : opOfWord op.word = some op := by
  rw [opOfWord, decodeDrv_word]
  cases op with
  | disable | enable | delay => rfl

theorem recordOfWord_word (r : Record) : recordOfWord r.word = some r := by
  rw [recordOfWord, decodeRec_word]
  cases r with
  | recon | anomaly | fin => rfl

/-- A word of the table that decodes is the word of a port. -/
theorem decodeTableWord_eq_some {nbits w : Nat} {i : Instr} (h : decodeTableWord nbits w = some i) :
    ∃ pw, tablePortWord nbits w = some pw ∧ decode pw = .ok i := by
  unfold decodeTableWord at h
  split at h
  · rename_i pw hpw
    split at h
    · rename_i j hj
      cases h
      exact ⟨pw, hpw, hj⟩
    · cases h
  · cases h

theorem step_scheduleFirst (a : Action) (s : State) :
    step (scheduleFirst a s) = act exec a (dropPending (scheduleFirst a s)) := rfl

/-- The next step after a word is placed runs the instruction it decodes to; a command word is a host write, which the
bus has accepted (log 13). -/
theorem step_placeWord {pw : PortWord} {i : Instr} (h : decode pw = .ok i) (s : State) :
    ∃ bus ∈ [s.env.bus, .accepted],
      step (placeWord pw s) = exec i (respond bus (dropPending (placeWord pw s))) := by
  cases pw with
  | cmd v =>
    refine ⟨.accepted, by simp, ?_⟩
    rw [placeWord, step_scheduleFirst]
    exact act_hostWrite_cmd_decoded rfl h
  | drv w =>
    obtain ⟨op, -, rfl⟩ := driverOp_of_decodeDrv h
    refine ⟨s.env.bus, by simp, ?_⟩
    simp only [placeWord, opOfWord_word]
    rw [step_scheduleFirst]
    exact act_tx_decoded rfl h
  | cap w =>
    refine ⟨s.env.bus, by simp, ?_⟩
    rw [placeWord, step_scheduleFirst]
    exact act_rx_decoded rfl h
  | edge w =>
    refine ⟨s.env.bus, by simp, ?_⟩
    rw [placeWord, step_scheduleFirst]
    exact act_edgeIntake_decoded rfl h
  | trc w =>
    refine ⟨s.env.bus, by simp, ?_⟩
    rw [placeWord, step_scheduleFirst]
    exact act_taToken_decoded rfl h
  | record w =>
    obtain ⟨r, -, rfl⟩ := record_of_decodeRec h
    refine ⟨s.env.bus, by simp, ?_⟩
    simp only [placeWord, recordOfWord_word]
    rw [step_scheduleFirst]
    exact act_taEmit_decoded rfl h

/-- Settles O5: the step takes its action off the script, and the action's word is decoded and executed. -/
theorem stepRunsDecodedInstruction : Obligations.StepRunsDecodedInstruction := by
  refine ⟨?cmd, ?cap, ?edge, ?trc, ?drv, ?record, ?placed, fun s a rest => step_scripted, fun s => step_unscripted⟩
  case cmd => intro s rest v i hp hr hd; rw [step_scripted hp]; exact act_hostWrite_cmd_decoded hr hd
  case cap => intro s rest w ws i hp hw hd; rw [step_scripted hp]; exact act_rx_decoded hw hd
  case edge => intro s rest w ws i hp hw hd; rw [step_scripted hp]; exact act_edgeIntake_decoded hw hd
  case trc => intro s rest w ws i hp hw hd; rw [step_scripted hp]; exact act_taToken_decoded hw hd
  case drv => intro s rest op i hp hop hd; rw [step_scripted hp]; exact act_tx_decoded hop hd
  case record => intro s rest r rs i hp hr hd; rw [step_scripted hp]; exact act_taEmit_decoded hr hd
  case placed =>
    intro s nbits w i hd
    obtain ⟨pw, hpw, hi⟩ := decodeTableWord_eq_some hd
    have hplaced : s.withFetchWord nbits w = placeWord pw s := by rw [State.withFetchWord, hpw]
    rw [hplaced]
    exact step_placeWord hi s

end Sys2Proof.Machine
end

section
/-! PROOFS. The classifier commands (spec/40_classifier.md): the words that run them, the operation that NOMINAL, WINDOW
and MATCH share, the first closest candidate, and what they leave unchanged. -/

namespace Sys2Proof.Machine

open Sys2Proof.Claims

/-! ## The words that run a command -/

theorem executeCommand_reserved {v : Word} (h : v.extractLsb' 16 16 ≠ 0#16) {s : State} (hr : s.env.rst = false) :
    executeCommand exec v s = .next (statusError .reservedBits (opField v) s) := by
  rw [executeCommand, decodeCmd, if_pos h]
  exact runCommand_error hr _ _

/-- The opcode map names the instruction (spec/30_encoding.md R106). -/
theorem commandIs_of_decodeOp {op : BitVec 8} {i : BitVec 4 → BitVec 4 → Instr}
    (hop : ∀ p k, decodeOp op p k = .ok (i p k)) {s : State} (hr : s.env.rst = false) : CommandIs op i s := by
  rintro v rfl
  split
  · rename_i hreserved
    exact executeCommand_decoded (decode_cmd_eq_ok_iff.mpr (decodeCmd_eq_ok_iff.mpr ⟨hreserved, hop _ _⟩)) s
  · rename_i hreserved
    exact executeCommand_reserved hreserved hr

/-! ## Commands with PROTO -/

section
variable {op : BitVec 8} {body : Proto → Except CmdStatus State} {s : State} (hr : s.env.rst = false)
include hr

theorem protoCommand_badProto {p : BitVec 4} (hp : 1 < p.toNat) :
    runCommand op (withProto p body) s = .next (statusError .badProto op s) := by
  rw [withProto_bad hp]
  exact runCommand_error hr _ _

theorem protoCommand_of_error {proto : Proto} {code : CmdStatus} (h : body proto = .error code) :
    runCommand op (withProto proto.code body) s = .next (statusError code op s) := by
  rw [withProto_code, h]
  exact runCommand_error hr _ _

theorem protoCommand_of_ok {proto : Proto} {t : State} (h : body proto = .ok t) :
    runCommand op (withProto proto.code body) s = .next (statusOk op t) := by
  rw [withProto_code, h]
  exact runCommand_ok hr _ _

end

/-! ## NOMINAL, WINDOW and MATCH -/

theorem nominal_of_timing {p : Proto} {k : SymbolKind} {n : BitVec 16} (h : timing p k = some n) :
    nominal p k = some n.toNat := by
  rw [nominal, h, Option.map_some]

theorem lower_eq (n : Nat) : lower n = n * 80 / 100 := rfl

theorem upper_eq (n : Nat) : upper n = n * 120 / 100 := rfl

/-- MATCH compares with the window's bounds, both included (spec/40_classifier.md R144, R145). -/
theorem matchesSym_iff {p : Proto} {k : SymbolKind} {n : BitVec 16} (h : timing p k = some n) (d : Word) :
    matchesSym d p k = true ↔ n.toNat * 80 / 100 ≤ d.toNat ∧ d.toNat ≤ n.toNat * 120 / 100 := by
  simp only [matchesSym, nominal_of_timing h, inWindow, Bool.and_eq_true, decide_eq_true_eq]
  rw [lower_eq, upper_eq]

section
variable {s : State} (op : BitVec 8) (p k : BitVec 4) (body : Proto → SymbolKind → Nat → Word × Word)

/-- The errors of a command over one symbol, in order (spec/40_classifier.md R150, spec/60_exceptions.md R332). -/
theorem symbolCommand_errors (hr : s.env.rst = false) :
    (1 < p.toNat → runCommand op (symbolCommand p k body s) s = .next (statusError .badProto op s)) ∧
    (p.toNat ≤ 1 → 7 < k.toNat →
      runCommand op (symbolCommand p k body s) s = .next (statusError .badKind op s)) ∧
    (p = 0#4 → k = 7#4 →
      runCommand op (symbolCommand p k body s) s = .next (statusError .undefSymbol op s)) := by
  refine ⟨fun hp => protoCommand_badProto hr hp, fun hp hk => ?_, ?_⟩
  · obtain ⟨proto, -, rfl⟩ := ofField_isSome hp
    exact protoCommand_of_error hr (withKind_bad hk _)
  · rintro rfl rfl
    exact runCommand_error hr _ _

/-- The result of a command over one symbol: its body at the symbol's nominal (spec/40_classifier.md R150). -/
theorem symbolCommand_result (hr : s.env.rst = false) {proto : Proto} {kind : SymbolKind} {n : BitVec 16}
    (h : timing proto kind = some n) :
    runCommand op (symbolCommand proto.code kind.code body s) s =
      .next (statusOk op (setResult (body proto kind n.toNat).1 (body proto kind n.toNat).2 s)) := by
  refine protoCommand_of_ok hr ?_
  simp only [withKind_code, nominal_of_timing h]

end

/-! ## The first closest candidate -/

/-- `nearest` is the library's `List.argmin`: the first element at which the distance is least (spec/40_classifier.md
R147). -/
theorem nearest_eq_argmin (d : Nat) (l : List Nat) : nearest d l = l.argmin (absDiff d) := by
  have hfold (cs : List Nat) (best : Nat) :
      some (cs.foldl (closer d) best) =
        cs.foldl (List.argAux fun b c => absDiff d b < absDiff d c) (some best) := by
    induction cs generalizing best with
    | nil => rfl
    | cons c cs ih =>
      rw [List.foldl_cons, ih, List.foldl_cons]
      congr 1
      exact apply_ite some _ _ _
  cases l with
  | nil => rfl
  | cons c cs => exact hfold cs c

/-- What `nearest` answers is a candidate at least distance from `d`, and every earlier candidate is farther. -/
theorem nearest_firstClosest {d n : Nat} {l : List Nat} (h : nearest d l = some n) :
    ∃ j, l[j]? = some n ∧ (∀ j' m : Nat, l[j']? = some m → absDiff d n ≤ absDiff d m) ∧
      ∀ j' m : Nat, j' < j → l[j']? = some m → absDiff d n < absDiff d m := by
  rw [nearest_eq_argmin, List.argmin_eq_some_iff] at h
  obtain ⟨hmem, hleast, hfirst⟩ := h
  refine ⟨l.idxOf n, List.getElem?_idxOf hmem, fun j' m hm => hleast m (List.mem_of_getElem? hm),
    fun j' m hj hm => ?_⟩
  by_contra hge
  have hidx : l.idxOf n ≤ l.idxOf m := hfirst m (List.mem_of_getElem? hm) (Nat.not_lt.mp hge)
  obtain ⟨hlen, rfl⟩ := List.getElem?_eq_some_iff.mp hm
  exact Bool.eq_false_iff.mp (List.not_of_lt_findIdx (Nat.lt_of_lt_of_le hj hidx)) (beq_self_eq_true _)

theorem nearest_symbols (d : Nat) (p : Proto) : nearest d (symbols p) = some (nearestSymbol d p) :=
  (Option.some_get _).symm

/-! ## What the classifier commands leave unchanged -/

theorem CommandEffect.setResult_of_classifier {op : BitVec 8} {s u : State} (h : CommandEffect s op u)
    (hop : op ≤ 0x05#8) : ∃ r0 r1, u = setResult r0 r1 s := by
  cases h with
  | nop => exact ⟨s.host.cres0, s.host.cres1, rfl⟩
  | result _ r0 r1 => exact ⟨r0, r1, rfl⟩
  | txStart | rxStart | rxStop | gapStart | gapStop | gapAck | taStart => exact absurd hop (by decide)

/-- Everything a classifier command can do: nothing while `rst` = 1, else a CmdError, else its two results with CSTAT
written. -/
theorem exec_classifier_next {op : BitVec 8} {p k : BitVec 4} {i : Instr} {s t : State} (hop : op ≤ 0x05#8)
    (hi : decodeOp op p k = .ok i) (h : exec i s = .next t) :
    t = s ∨ (∃ code, t = raiseCmdError code op s) ∨ ∃ r0 r1, t = completeCommand op (setResult r0 r1 s) := by
  have hd : decodeCmd (cmdWord op p k) = .ok i := (decodeCmd_cmdWord op p k).trans hi
  cases hr : s.env.rst with
  | true =>
    obtain ⟨body, hbody⟩ := exec_command_eq hd s
    rw [hbody, runCommand_held hr] at h
    cases h
    exact .inl rfl
  | false =>
    have hnext : CommandNext op s t := opField_cmdWord op p k ▸ exec_command_next hr hd h
    obtain ⟨code, -, rfl⟩ | ⟨u, hu, rfl⟩ := hnext
    · exact .inr (.inl ⟨code, rfl⟩)
    · obtain ⟨r0, r1, rfl⟩ := hu.setResult_of_classifier hop
      exact .inr (.inr ⟨r0, r1, rfl⟩)

/-- CRES0, CRES1, CSTAT and IRQSTAT show in their own bytes only (spec/20_memory.md R73). -/
theorem readByte_resultRegs {a : BitVec 8} (ha : a &&& 0xFC#8 ∉ [0x08#8, 0x0C#8, 0x10#8, 0x4C#8]) (s : State)
    (r0 r1 : Word) (code : CmdStatus) (op : BitVec 8) (irq : Word) :
    readByte a { s with host :=
      { s.host with cres0 := r0, cres1 := r1, err := code, lastOp := op, irqstat := irq } } = readByte a s := by
  simp only [List.mem_cons, List.not_mem_nil, or_false, not_or] at ha
  obtain ⟨hcres0, hcres1, hcstat, hirqstat⟩ := ha
  simp only [readByte, readReg, hcres0, hcres1, hcstat, hirqstat, if_false]

/-- The opcodes 0x00 to 0x05 are those of the classifier (spec/30_encoding.md R106). -/
theorem classifier_opcode {p k : BitVec 4} {i : Instr}
    (hi : i ∈ [Instr.nop p k, .nominal p k, .window p k, .matchSym p k, .nearest p k, .symbol p k]) :
    ∃ op ≤ 0x05#8, decodeOp op p k = .ok i := by
  simp only [List.mem_cons, List.not_mem_nil, or_false] at hi
  obtain rfl | rfl | rfl | rfl | rfl | rfl := hi
  · exact ⟨0x00#8, by decide, rfl⟩
  · exact ⟨0x01#8, by decide, rfl⟩
  · exact ⟨0x02#8, by decide, rfl⟩
  · exact ⟨0x03#8, by decide, rfl⟩
  · exact ⟨0x04#8, by decide, rfl⟩
  · exact ⟨0x05#8, by decide, rfl⟩

/-! ## The statements -/

/-- Settles O14: the answer is `nearest` of the candidates, which is the first closest. -/
theorem nearestIsFirstClosest : Obligations.NearestIsFirstClosest := by
  refine fun p k s hr =>
    ⟨commandIs_of_decodeOp (fun _ _ => rfl) hr, fun hp => protoCommand_badProto hr hp, ?_⟩
  rintro proto rfl
  obtain ⟨j, hj, hleast, hfirst⟩ := nearest_firstClosest (nearest_symbols s.host.arg.toNat proto)
  exact ⟨j, _, hj, hleast, hfirst, protoCommand_of_ok hr rfl⟩

/-- Settles O16: each of the three things a classifier command can do keeps what the statement names. -/
theorem classifierFrame : Obligations.ClassifierFrame := by
  intro i p k s t hi h
  obtain ⟨op, hop, hdecode⟩ := classifier_opcode hi
  obtain rfl | ⟨code, rfl⟩ | ⟨r0, r1, rfl⟩ := exec_classifier_next hop hdecode h
  case inl => exact ⟨rfl, rfl, rfl, rfl, rfl, .inl rfl, fun _ => ⟨rfl, rfl⟩, fun _ _ => rfl⟩
  case inr.inl =>
    exact ⟨rfl, rfl, rfl, rfl, rfl, .inr rfl, fun _ => ⟨rfl, rfl⟩, fun _ ha => readByte_resultRegs ha s _ _ _ _ _⟩
  case inr.inr =>
    exact ⟨rfl, rfl, rfl, rfl, rfl, .inl rfl, fun herr => absurd rfl herr, fun _ ha =>
      readByte_resultRegs ha s _ _ _ _ _⟩

/-- Settles O9: the six tables, computed. -/
theorem candidatesAndWindows : Obligations.CandidatesAndWindows := ⟨rfl, rfl, rfl, rfl, rfl, rfl⟩

/-- Settles O10: NOP has no check and no result. -/
theorem nopCompletes : Obligations.NopCompletes := fun _ _ _ hr =>
  ⟨commandIs_of_decodeOp (fun _ _ => rfl) hr, runCommand_ok hr _ _⟩

/-- Settles O11: a command over one symbol whose first result is the nominal. -/
theorem nominalResult : Obligations.NominalResult := by
  intro p k s hr
  obtain ⟨hproto, hkind, hundef⟩ := symbolCommand_errors 0x01#8 p k (fun _ _ n => (BitVec.ofNat 32 n, 0#32)) hr
  refine ⟨commandIs_of_decodeOp (fun _ _ => rfl) hr, hproto, hkind, hundef, ?_⟩
  rintro proto kind n rfl rfl hn
  rw [← BitVec.ofNat_toNat]
  exact symbolCommand_result _ _ hr hn

/-- Settles O12: a command over one symbol whose results are the bounds of the nominal's window. -/
theorem windowResult : Obligations.WindowResult := by
  intro p k s hr
  obtain ⟨hproto, hkind, hundef⟩ :=
    symbolCommand_errors 0x02#8 p k (fun _ _ n => (BitVec.ofNat 32 (lower n), BitVec.ofNat 32 (upper n))) hr
  refine ⟨commandIs_of_decodeOp (fun _ _ => rfl) hr, hproto, hkind, hundef, ?_⟩
  rintro proto kind n rfl rfl hn
  rw [← lower_eq, ← upper_eq]
  exact symbolCommand_result _ _ hr hn

/-- Settles O13: a command over one symbol whose first result says whether ARG lies in the nominal's window. -/
theorem matchResult : Obligations.MatchResult := by
  intro p k s hr
  obtain ⟨hproto, hkind, hundef⟩ := symbolCommand_errors 0x03#8 p k
    (fun proto kind _ => (if matchesSym s.host.arg proto kind then 1#32 else 0#32, 0#32)) hr
  refine ⟨commandIs_of_decodeOp (fun _ _ => rfl) hr, hproto, hkind, hundef, ?_⟩
  rintro proto kind n rfl rfl hn
  simp only [← matchesSym_iff hn]
  exact symbolCommand_result _ _ hr hn

/-- Settles O15: the candidate list is read at ARG. -/
theorem symbolResult : Obligations.SymbolResult := by
  refine fun p k s hr =>
    ⟨commandIs_of_decodeOp (fun _ _ => rfl) hr, fun hp => protoCommand_badProto hr hp, ?_, ?_⟩
  · rintro proto rfl hlen
    refine protoCommand_of_error hr ?_
    simp only [List.getElem?_eq_none hlen]
  · rintro proto n rfl hn
    refine protoCommand_of_ok hr ?_
    simp only [hn]
    rfl

end Sys2Proof.Machine
end

section
/-! PROOFS. The ops of a frame (spec/41_encoder.md R184, R189, R190): the polarities of a frame alternate, so its ops
alternate; a sub-frame holds each byte with its complement, so its one- and zero-bits balance. -/

namespace Sys2Proof.Machine

open Sys2Proof.Claims

/-! ## Polarities of a frame -/

/-- The polarities toggle the carrier one by one, which stands at `on` before the first. -/
def togglesCarrier : Bool → List Polarity → Prop
  | _, [] => True
  | on, pol :: rest => pol = (if on then .space else .mark) ∧ togglesCarrier (!on) rest

theorem bitPairs_toggle (bits : List Bool) {rest : List Polarity} (h : togglesCarrier false rest) :
    togglesCarrier false ((bits.flatMap bitSymbols).map Prod.fst ++ rest) := by
  induction bits with
  | nil => exact h
  | cons b bs ih =>
    rw [List.flatMap_cons, bitSymbols_eq]
    exact ⟨rfl, rfl, ih⟩

theorem pairedSymbols_toggle (bits : List Bool) {stop : List FrameSymbol} {rest : List Polarity}
    (h : togglesCarrier false (stop.map Prod.fst ++ rest)) :
    togglesCarrier false ((pairedSymbols bits stop).map Prod.fst ++ rest) := by
  rw [pairedSymbols, List.append_assoc, List.map_append, List.map_append, List.append_assoc, List.append_assoc]
  exact ⟨rfl, rfl, bitPairs_toggle bits h⟩

theorem pairedSymbols_toggle_last (bits : List Bool) {stop : List FrameSymbol}
    (h : togglesCarrier false (stop.map Prod.fst)) : togglesCarrier false ((pairedSymbols bits stop).map Prod.fst) := by
  rw [← List.append_nil (List.map _ _)] at h ⊢
  exact pairedSymbols_toggle bits h

theorem symbolEvents_pol (p : Proto) (l : List FrameSymbol) :
    (l.map (symbolEvent p)).map PulseEvent.pol = l.map Prod.fst := List.map_map

/-- A frame starts with a Mark and alternates Mark and Space (spec/30_encoding.md R115, R116). -/
theorem frame_toggles (p : Proto) (x : Word) : togglesCarrier false ((frame p x).map PulseEvent.pol) := by
  cases p with
  | nec =>
    rw [frame, encodeNEC, symbolEvents_pol, necSymbols_eq]
    exact pairedSymbols_toggle_last _ ⟨rfl, trivial⟩
  | r05d =>
    rw [frame, encodeR05D, List.map_append, symbolEvents_pol, subFrameSymbols_eq]
    refine pairedSymbols_toggle _ ⟨rfl, rfl, ?_⟩
    exact pairedSymbols_toggle_last _ ⟨rfl, rfl, trivial⟩

/-! ## The ops of a list of events -/

theorem driverOps_singleton (e : PulseEvent) :
    driverOps [e] = eventOps e ++ if e.pol = .mark then [.disable] else [] := rfl

theorem driverOps_cons_cons (e e' : PulseEvent) (es : List PulseEvent) :
    driverOps (e :: e' :: es) = eventOps e ++ driverOps (e' :: es) := by
  rw [driverOps, List.flatMap_cons, List.append_assoc, driverOps, finalOps, List.getLast?_cons_cons, finalOps]

theorem driverOps_of_getLast? {f : List PulseEvent} {e : PulseEvent} (h : f.getLast? = some e) :
    driverOps f = f.dropLast.flatMap eventOps ++ driverOps [e] := by
  obtain ⟨init, rfl⟩ := List.getLast?_eq_some_iff.mp h
  rw [driverOps, finalOps, h, List.flatMap_append, List.append_assoc, List.dropLast_concat]
  rfl

theorem eventsOps_length (f : List PulseEvent) : (f.flatMap eventOps).length = 2 * f.length := by
  simp [List.length_flatMap, eventOps, Nat.mul_comm]

/-- Events that toggle the carrier give alternating ops (spec/41_encoder.md R184, R189). -/
theorem alternates_driverOps {on : Bool} {e : PulseEvent} {es : List PulseEvent}
    (h : togglesCarrier on ((e :: es).map PulseEvent.pol)) : alternates on (driverOps (e :: es)) := by
  induction es generalizing on e with
  | nil =>
    obtain ⟨hpol, -⟩ := h
    rw [driverOps_singleton, eventOps, hpol]
    cases on with
    | false => exact .inl ⟨rfl, rfl, rfl, rfl⟩
    | true => exact .inr ⟨rfl, rfl, rfl⟩
  | cons e' es ih =>
    obtain ⟨hpol, hrest⟩ := h
    rw [driverOps_cons_cons, eventOps, hpol]
    cases on with
    | false => exact .inl ⟨rfl, rfl, ih hrest⟩
    | true => exact .inr ⟨rfl, rfl, ih hrest⟩

/-! ## The ops of a frame -/

/-- A frame is never empty, so its ops alternate from the carrier off (spec/41_encoder.md R189). -/
theorem alternates_frame (p : Proto) (x : Word) : alternates false (driverOps (frame p x)) := by
  have htoggles := frame_toggles p x
  have hlen := frame_length p x
  cases hf : frame p x with
  | nil =>
    rw [hf] at hlen
    cases p with
    | nec | r05d => cases hlen
  | cons e es => exact alternates_driverOps (hf ▸ htoggles)

theorem necFrame_getLast? (x : Word) : (frame .nec x).getLast? = some ⟨.mark, 560#32⟩ := by
  rw [List.getLast?_eq_getElem?, frame_length]
  exact encodeNEC_getElem? (necSymbols_stop x)

theorem r05dFrame_getLast? (x : Word) : (frame .r05d x).getLast? = some ⟨.space, 5220#32⟩ := by
  have hsub (a b c : Byte) : (subFrame a b c).getLast? = some ⟨.space, 5220#32⟩ := by
    rw [List.getLast?_eq_getElem?, subFrame_length]
    exact subFrame_getElem? (subFrameSymbols_stop a b c).2
  rw [frame, encodeR05D, List.getLast?_append, ← subFrame, hsub]
  rfl

/-- The ops before those of the last event (spec/41_encoder.md R184). -/
theorem frameInit_length (p : Proto) (x : Word) :
    ((frame p x).dropLast.flatMap eventOps).length = match p with | .nec => 132 | .r05d => 398 := by
  rw [eventsOps_length, List.length_dropLast, frame_length]
  cases p with
  | nec | r05d => rfl

/-- Settles O19: the polarities alternate, and the last event gives the ops at the end. -/
theorem driverOpsAlternate : Obligations.DriverOpsAlternate := by
  intro x
  have hnec := driverOps_of_getLast? (necFrame_getLast? x)
  have hr05d := driverOps_of_getLast? (r05dFrame_getLast? x)
  refine ⟨alternates_frame .nec x, alternates_frame .r05d x, ?_, ?_, ?_, ?_⟩
  · rw [hnec, List.length_append, frameInit_length]; rfl
  · rw [hr05d, List.length_append, frameInit_length]; rfl
  · rw [hnec, List.getLast?_append]; rfl
  · rw [hr05d, List.drop_left' (frameInit_length .r05d x)]; rfl

/-! ## The balance of a sub-frame -/

theorem bitSpace_inj : ∀ {b b' : Bool}, bitSpace b = bitSpace b' ↔ b = b' := by decide

theorem bitMark_ne_bitSpace : ∀ b b' : Bool, bitMark b ≠ bitSpace b' := by decide

/-- One Space per bit, and it is the bit's (spec/30_encoding.md R116). -/
theorem bitPairs_countP_space (bits : List Bool) (b : Bool) :
    (bits.flatMap bitSymbols).countP (fun x => decide (x = bitSpace b)) = bits.count b := by
  induction bits with
  | nil => rfl
  | cons b' bs ih =>
    rw [List.flatMap_cons, bitSymbols_eq, List.countP_append, ih, List.count_cons]
    simp [bitSpace_inj, bitMark_ne_bitSpace, Nat.add_comm]

/-- A byte and its complement hold eight bits of each value. -/
theorem byteBits_compl_count (x : Byte) (b : Bool) : (byteBits x).count b + (byteBits (~~~x)).count b = 8 := by
  have hcompl : byteBits (~~~x) = (byteBits x).map not := by simp [byteBits]
  have hcount : ((byteBits x).map not).count b = (byteBits x).count (!b) := by
    rw [← List.count_map_of_injective (byteBits x) not Bool.not_injective, Bool.not_not]
  rw [hcompl, hcount, Nat.add_comm, List.count_not_add_count, byteBits_length]

/-- The bytes of a sub-frame come in complementary pairs (spec/30_encoding.md R116). -/
theorem subFrameBits_count (a b c : Byte) (v : Bool) : ((subFrameBytes a b c).flatMap byteBits).count v = 24 := by
  have ha := byteBits_compl_count a v
  have hb := byteBits_compl_count b v
  have hc := byteBits_compl_count c v
  simp only [subFrameBytes, List.flatMap_cons, List.flatMap_nil, List.count_append, List.count_nil]
  omega

theorem subFrame_countP_space (a b c : Byte) (v : Bool) :
    (subFrameSymbols a b c).countP (fun x => decide (x = bitSpace v)) = 24 := by
  rw [subFrameSymbols_eq, pairedSymbols, List.countP_append, List.countP_append, bitPairs_countP_space,
    subFrameBits_count]
  cases v with
  | false | true => rfl

/-- Settles O21: the bits of a sub-frame balance, and each has its own Space. -/
theorem r05dBalance : Obligations.R05dBalance := fun a b c =>
  ⟨subFrame_countP_space a b c true, subFrame_countP_space a b c false⟩

end Sys2Proof.Machine
end

section
/-! PROOFS. The TX sequencer (spec/41_encoder.md R185 to R187): TX_START, the step that pushes one op, and the steps
that push a frame whole. -/

namespace Sys2Proof.Machine

open Sys2Proof.Claims

/-! ## TX_START -/

/-- Settles O22: PROTO is checked first, then the sequencer; an idle one takes the frame. -/
theorem txStartArmsFrame : Obligations.TxStartArmsFrame := by
  refine fun p k s hr =>
    ⟨commandIs_of_decodeOp (fun _ _ => rfl) hr, fun hp => protoCommand_badProto hr hp, fun hp hemitting => ?_, ?_⟩
  · obtain ⟨proto, -, rfl⟩ := ofField_isSome hp
    exact protoCommand_of_error hr (if_pos hemitting)
  · rintro proto rfl hidle
    have hnot : s.tx.st ≠ .emitting := by rw [hidle]; decide
    exact protoCommand_of_ok hr (if_neg hnot)

/-! ## One op -/

theorem txPush_accepted {s : State} {op : DriverOp} (hop : s.tx.offered = some op) (hready : s.env.drvReady = true)
    (hr : s.env.rst = false) : txPush op s = .next (txAccepted op s) := by
  rw [txPush, hop, hready, decide_eq_true rfl]
  exact unitStep_true hr _

/-- The last op completes the frame (spec/41_encoder.md R187). -/
theorem txAccepted_last {op : DriverOp} {s : State} (h : s.tx.opi + 1 = s.tx.ops.length) :
    txAccepted op s =
      { s with
        host := s.host.raiseIrq .txDone
        tx := { s.tx.advance op with st := .idle, done := true }
        env := { s.env with drvOut := s.env.drvOut ++ [op.word] } } :=
  if_pos (decide_eq_true h)

theorem txAccepted_not_last {op : DriverOp} {s : State} (h : s.tx.opi + 1 ≠ s.tx.ops.length) :
    txAccepted op s =
      { s with tx := s.tx.advance op, env := { s.env with drvOut := s.env.drvOut ++ [op.word] } } :=
  if_neg (mt of_decide_eq_true h)

theorem satInc16_of_lt {a : BitVec 16} (h : a.toNat < 0xFFFF) : satInc16 a = a + 1#16 := by
  apply BitVec.eq_of_toNat_eq
  rw [satInc16_toNat, BitVec.toNat_add, BitVec.toNat_ofNat]
  omega

/-- EVENTS of a sound sequencer is far from saturation (spec/41_encoder.md R185; log 10). -/
theorem TxUnit.Sound.satInc16_events {u : TxUnit} (h : u.Sound) : satInc16 u.events = u.events + 1#16 := by
  have hle : (u.ops.take u.opi).countP DriverOp.isDelay ≤ 200 :=
    ((List.take_sublist _ _).countP_le).trans h.events_bound
  have hcount := h.events_count
  exact satInc16_of_lt (by omega)

/-- The DELAY word in numbers (spec/30_encoding.md R110). -/
theorem delayWord_eq (n : BitVec 24) : delayWord n = 0x80000000#32 ||| n.setWidth 32 := by
  rw [delayWord, ← BitVec.setWidth_eq (0x80#8 ++ n), BitVec.setWidth_append_eq_shiftLeft_setWidth_or]
  rfl

/-- Settles O23: the op is pushed, and whether it was the last decides the completion. -/
theorem txStepPushesOp : Obligations.TxStepPushesOp := by
  intro s op hsound hop hready hr pushed
  have hpushed : txAccepted op s = pushed op.word (s.tx.advance op).events := by
    by_cases hlast : s.tx.opi + 1 = s.tx.ops.length
    · exact (txAccepted_last hlast).trans (if_pos hlast).symm
    · exact (txAccepted_not_last hlast).trans (if_neg hlast).symm
  have hexec : exec op.instr s = .next (pushed op.word (s.tx.advance op).events) := by
    rw [exec_driverOp, txPush_accepted hop hready hr, hpushed]
  refine ⟨?_, ?_, fun n => ?_⟩
  · rintro rfl; exact hexec
  · rintro rfl; exact hexec
  · rintro rfl
    rw [← delayWord_eq, ← hsound.satInc16_events]
    exact hexec

/-! ## A whole frame -/

/-- The sequencer amid a frame: the ops `pre` are pushed, the ops `rest` are to come (spec/41_encoder.md R185). -/
def TxUnit.amid (p : Proto) (pre rest : List DriverOp) : TxUnit where
  st := .emitting
  proto := p
  ops := pre ++ rest
  opi := pre.length
  events := BitVec.ofNat 16 (pre.countP DriverOp.isDelay)
  done := false

/-- The sequencer that has pushed all ops of its frame (spec/41_encoder.md R187). -/
def TxUnit.emitted (p : Proto) (ops : List DriverOp) : TxUnit where
  st := .idle
  proto := p
  ops := ops
  opi := ops.length
  events := BitVec.ofNat 16 (ops.countP DriverOp.isDelay)
  done := true

theorem TxUnit.amid_nil_complete (p : Proto) (ops : List DriverOp) :
    { TxUnit.amid p ops [] with st := .idle, done := true } = TxUnit.emitted p ops := by
  simp only [TxUnit.amid, TxUnit.emitted, List.append_nil]

theorem TxUnit.start_eq_amid (p : Proto) (x : Word) : TxUnit.start p x = .amid p [] (driverOps (frame p x)) := rfl

section
variable (p : Proto) (pre rest : List DriverOp) (op : DriverOp)

theorem TxUnit.amid_offered : (TxUnit.amid p pre (op :: rest)).offered = some op := by
  simp [TxUnit.offered, TxUnit.amid]

theorem TxUnit.amid_last_iff :
    (TxUnit.amid p pre (op :: rest)).opi + 1 = (TxUnit.amid p pre (op :: rest)).ops.length ↔ rest = [] := by
  simp [TxUnit.amid]

/-- One more op is pushed, and counted if it is a DELAY (spec/41_encoder.md R185). -/
theorem TxUnit.amid_advance (h : (pre ++ op :: rest).countP DriverOp.isDelay ≤ 200) :
    (TxUnit.amid p pre (op :: rest)).advance op = .amid p (pre ++ [op]) rest := by
  have hpre : pre.countP DriverOp.isDelay ≤ 200 := (List.sublist_append_left pre _).countP_le.trans h
  have hevents : (if op.isDelay then satInc16 (BitVec.ofNat 16 (pre.countP DriverOp.isDelay))
      else BitVec.ofNat 16 (pre.countP DriverOp.isDelay)) =
        BitVec.ofNat 16 ((pre ++ [op]).countP DriverOp.isDelay) := by
    rw [List.countP_append, List.countP_singleton]
    split
    · rw [BitVec.ofNat_add, satInc16_of_lt (by rw [BitVec.toNat_ofNat]; omega)]
    · rfl
  simp only [TxUnit.amid, TxUnit.advance, hevents, List.length_append, List.length_singleton, List.append_assoc,
    List.singleton_append]

end

theorem run_of_step {M : Host.Core} {s t : M.State} (h : M.step s = .next t) (n : Nat) :
    M.run (n + 1) s = M.run n t := by
  rw [Host.Core.run, h]

theorem step_tx_accepted {s : State} {op : DriverOp} {more : List Action} (hp : s.env.pending = .tx :: more)
    (hop : s.tx.offered = some op) (hready : s.env.drvReady = true) (hr : s.env.rst = false) :
    step s = .next (txAccepted op { s with env := { s.env with pending := more } }) :=
  calc step s = act exec .tx { s with env := { s.env with pending := more } } := step_scripted hp
    _ = exec op.instr _ := act_tx_decoded hop (decodeDrv_word op)
    _ = txPush op _ := exec_driverOp op _
    _ = _ := txPush_accepted hop hready hr

section
variable {p : Proto} {pre rest : List DriverOp} {op : DriverOp} {s : State} {more : List Action}
  (hready : s.env.drvReady = true) (hr : s.env.rst = false)
include hready hr

theorem step_amid (hp : s.env.pending = .tx :: more) {op' : DriverOp} (htx : s.tx = .amid p pre (op :: op' :: rest))
    (hbound : (pre ++ op :: op' :: rest).countP DriverOp.isDelay ≤ 200) :
    step s = .next
      { s with
        tx := .amid p (pre ++ [op]) (op' :: rest)
        env := { s.env with drvOut := s.env.drvOut ++ [op.word], pending := more } } := by
  have hnot := mt (TxUnit.amid_last_iff p pre (op' :: rest) op).mp (List.cons_ne_nil _ _)
  rw [step_tx_accepted hp (htx ▸ TxUnit.amid_offered p pre (op' :: rest) op) hready hr,
    txAccepted_not_last (htx ▸ hnot)]
  simp only [htx, TxUnit.amid_advance p pre (op' :: rest) op hbound]

theorem step_amid_last (hp : s.env.pending = .tx :: more) (htx : s.tx = .amid p pre [op])
    (hbound : (pre ++ [op]).countP DriverOp.isDelay ≤ 200) :
    step s = .next
      { s with
        host := s.host.raiseIrq .txDone
        tx := .emitted p (pre ++ [op])
        env := { s.env with drvOut := s.env.drvOut ++ [op.word], pending := more } } := by
  have hlast := (TxUnit.amid_last_iff p pre [] op).mpr rfl
  rw [step_tx_accepted hp (htx ▸ TxUnit.amid_offered p pre [] op) hready hr, txAccepted_last (htx ▸ hlast)]
  simp only [htx, TxUnit.amid_advance p pre [] op hbound, ← TxUnit.amid_nil_complete]

/-- As many TX steps as ops are to come push them in order and complete the frame: induction on those ops. -/
theorem run_amid (hp : s.env.pending = List.replicate (rest.length + 1) .tx ++ more)
    (htx : s.tx = .amid p pre (op :: rest)) (hbound : (pre ++ op :: rest).countP DriverOp.isDelay ≤ 200) :
    Host.Core.run core (rest.length + 1) s = .next
      { s with
        host := s.host.raiseIrq .txDone
        tx := .emitted p (pre ++ op :: rest)
        env := { s.env with drvOut := s.env.drvOut ++ (op :: rest).map DriverOp.word, pending := more } } := by
  induction rest generalizing pre op s with
  | nil => exact run_of_step (M := core) (step_amid_last hready hr hp htx hbound) 0
  | cons op' rest ih =>
    have happend : pre ++ op :: op' :: rest = pre ++ [op] ++ op' :: rest := by simp
    have hwords : s.env.drvOut ++ (op :: op' :: rest).map DriverOp.word =
        s.env.drvOut ++ [op.word] ++ (op' :: rest).map DriverOp.word := by simp
    rw [happend, hwords]
    exact (run_of_step (M := core) (step_amid hready hr hp htx hbound) _).trans
      (ih hready hr rfl rfl (happend ▸ hbound))

end

theorem TxUnit.emitted_frame (p : Proto) (x : Word) :
    TxUnit.emitted p (driverOps (frame p x)) =
      { st := .idle, proto := p, ops := driverOps (frame p x), opi := (driverOps (frame p x)).length,
        events := (match p with | .nec => 67#16 | .r05d => 200#16), done := true } := by
  rw [TxUnit.emitted, driverOps_countP, frame_length]
  cases p with
  | nec | r05d => rfl

theorem frame_delays_le (p : Proto) (x : Word) : (driverOps (frame p x)).countP DriverOp.isDelay ≤ 200 :=
  (txStart_sound p x).events_bound

theorem driverOps_frame_ne_nil (p : Proto) (x : Word) : driverOps (frame p x) ≠ [] :=
  List.ne_nil_of_length_pos ((txStart_sound p x).emitting_in_frame rfl)

/-- Settles O24: the started sequencer has all its ops to come, one DELAY of them per event. -/
theorem wholeFrameEmitted : Obligations.WholeFrameEmitted := by
  intro s proto x more htx hready hr hp
  have hbound := frame_delays_le proto x
  have hemitted := TxUnit.emitted_frame proto x
  rw [TxUnit.start_eq_amid] at htx
  obtain ⟨op, rest, hops⟩ := List.exists_cons_of_ne_nil (driverOps_frame_ne_nil proto x)
  rw [hops] at htx hp hbound hemitted ⊢
  have hrun := run_amid hready hr hp htx hbound
  rw [List.nil_append, hemitted] at hrun
  exact hrun

end Sys2Proof.Machine
end

section
/-! PROOFS. What the port words leave unchanged (spec/41_encoder.md R185, spec/42_decoder.md R214,
spec/43_gap_framer.md R255, spec/44_trace_analyzer.md R291, R299, R305). A port word's next state is written as an
update of the state before; the window is then read component by component. -/

namespace Sys2Proof.Machine

/-! ## Which registers show a component of the state (spec/20_memory.md R71) -/

section
variable {r : BitVec 8}

theorem readReg_irqstat (h : r ≠ 0x4C#8) (s : State) (irq : Word) :
    readReg r { s with host := { s.host with irqstat := irq } } = readReg r s := by
  simp only [readReg, h, if_false]
  rfl

theorem readReg_tx (h : r ∉ [0x14#8]) (s : State) (u : TxUnit) : readReg r { s with tx := u } = readReg r s := by
  rw [List.mem_singleton] at h
  simp only [readReg, h, if_false]

theorem readReg_rx (h : r ∉ [0x18#8, 0x1C#8, 0x20#8]) (s : State) (u : RxUnit) :
    readReg r { s with rx := u } = readReg r s := by
  simp only [List.mem_cons, List.not_mem_nil, or_false, not_or] at h
  simp only [readReg, h, if_false]

/-- GAPDATA0 and GAPDATA1 show the latched result only. -/
theorem readReg_gap (h : r ∉ [0x28#8]) (s : State) {u : GapUnit} (hshown : u.shown = s.gap.shown) :
    readReg r { s with gap := u } = readReg r s := by
  rw [List.mem_singleton] at h
  simp only [readReg, h, if_false, hshown]

theorem readReg_ta (h : r ∉ [0x40#8, 0x44#8]) (s : State) (u : TaUnit) :
    readReg r { s with ta := u } = readReg r s := by
  simp only [List.mem_cons, List.not_mem_nil, or_false, not_or] at h
  simp only [readReg, h, if_false]

/-- TASTAT and TARUNS show the four fields no token touches. -/
theorem readReg_ta_kept (s : State) {u : TaUnit} (h : TaKept u s.ta) : readReg r { s with ta := u } = readReg r s := by
  obtain ⟨hbusy, hdone, hanomalies, hruns⟩ := h
  simp only [readReg, tastat, hbusy, hdone, hanomalies, hruns]

end

theorem readByte_of_readReg {a : BitVec 8} {s t : State} (h : readReg (a &&& 0xFC#8) t = readReg (a &&& 0xFC#8) s) :
    readByte a t = readByte a s := by
  rw [readByte, h, readByte]

/-- A change that shows in the registers `own` only, and one of IRQSTAT, leave the bytes of all others. -/
theorem readByte_of_own {own : List (BitVec 8)} {a : BitVec 8} (ha : a &&& 0xFC#8 ∉ own ++ [0x4C#8]) {s u : State}
    (hown : ∀ r, r ∉ own → readReg r u = readReg r s) (irq : Word) :
    readByte a { u with host := { u.host with irqstat := irq } } = readByte a s := by
  rw [List.mem_append, List.mem_singleton, not_or] at ha
  obtain ⟨hunit, hirq⟩ := ha
  exact readByte_of_readReg ((readReg_irqstat hirq u irq).trans (hown _ hunit))

/-! ## The next state of a port word -/

theorem txPush_next {op : DriverOp} {s t : State} (h : txPush op s = .next t) :
    ∃ irq u out, t =
      { s with host := { s.host with irqstat := irq }, tx := u, env := { s.env with drvOut := out } } := by
  obtain rfl | ⟨-, -, rfl⟩ := unitStep_next h
  · exact ⟨_, _, _, rfl⟩
  · by_cases hlast : s.tx.opi + 1 = s.tx.ops.length
    · exact ⟨_, _, _, txAccepted_last hlast⟩
    · exact ⟨s.host.irqstat, _, _, txAccepted_not_last hlast⟩

theorem rxPop_next {w : BitVec 34} {ev : DecEvent} {s t : State} (h : rxPop w ev s = .next t) :
    ∃ irq u rest, t =
      { s with host := { s.host with irqstat := irq }, rx := u, env := { s.env with capIn := rest } } := by
  obtain rfl | ⟨-, -, rfl⟩ := unitStep_next h
  · exact ⟨_, _, _, rfl⟩
  · simp only [rxConsumed]
    split
    · exact ⟨_, _, _, rfl⟩
    · exact ⟨s.host.irqstat, _, _, rfl⟩

theorem execEdge_next {pol : Polarity} {ts : Word} {s t : State} (h : execEdge pol ts s = .next t) :
    ∃ irq q ovf rest, t =
      { s with
        host := { s.host with irqstat := irq }
        gap := { s.gap with q := q, edgeOvf := ovf }
        env := { s.env with edgeIn := rest } } := by
  obtain rfl | ⟨-, -, rfl⟩ := unitStep_next h
  · exact ⟨_, _, _, _, rfl⟩
  · simp only [intakeEdge]
    split
    · exact ⟨s.host.irqstat, s.gap.q, s.gap.edgeOvf, _, rfl⟩
    · split
      · exact ⟨s.host.irqstat, _, s.gap.edgeOvf, _, rfl⟩
      · exact ⟨_, s.gap.q, _, _, rfl⟩

theorem trcPop_next {w : BitVec 9} {after : TaUnit} {s t : State} (h : trcPop w after s = .next t)
    (hkept : TaKept after s.ta) :
    ∃ u rest, TaKept u s.ta ∧ t = { s with ta := u, env := { s.env with trcIn := rest } } := by
  obtain rfl | ⟨-, -, rfl⟩ := unitStep_next h
  · exact ⟨_, _, ⟨rfl, rfl, rfl, rfl⟩, rfl⟩
  · exact ⟨_, _, hkept, rfl⟩

theorem recPush_next {r : Record} {s t : State} (h : recPush r s = .next t) :
    ∃ irq u out, t =
      { s with host := { s.host with irqstat := irq }, ta := u, env := { s.env with recOut := out } } := by
  obtain rfl | ⟨-, -, rfl⟩ := unitStep_next h
  · exact ⟨_, _, _, rfl⟩
  · cases r with
    | recon | anomaly => exact ⟨s.host.irqstat, _, _, rfl⟩
    | fin => exact ⟨_, _, _, rfl⟩

/-! ## What a token leaves of the TA unit (spec/44_trace_analyzer.md R291 to R298) -/

theorem finishRaw_kept (rp : Polarity) (rc : Word) (u : TaUnit) : TaKept (u.finishRaw rp rc) u := by
  unfold TaUnit.finishRaw
  split
  · split <;> exact ⟨rfl, rfl, rfl, rfl⟩
  · split <;> exact ⟨rfl, rfl, rfl, rfl⟩

theorem byteIn_kept (data : Byte) (u : TaUnit) : TaKept (u.byteIn data) u := by
  unfold TaUnit.byteIn TaUnit.sampleIn
  split
  · exact ⟨rfl, rfl, rfl, rfl⟩
  · split
    · exact ⟨rfl, rfl, rfl, rfl⟩
    · split
      · exact ⟨rfl, rfl, rfl, rfl⟩
      · exact finishRaw_kept ..

theorem flushRaw_kept (u : TaUnit) : TaKept u.flushRaw u := by
  unfold TaUnit.flushRaw
  split
  · exact finishRaw_kept ..
  · exact ⟨rfl, rfl, rfl, rfl⟩

theorem flushCur_kept (u : TaUnit) : TaKept u.flushCur u := by
  unfold TaUnit.flushCur
  split <;> exact ⟨rfl, rfl, rfl, rfl⟩

theorem endOfTrace_kept (u : TaUnit) : TaKept u.endOfTrace u := by
  obtain ⟨hbusy, hdone, hanomalies, hruns⟩ := flushRaw_kept u
  obtain ⟨hbusy', hdone', hanomalies', hruns'⟩ := flushCur_kept u.flushRaw
  exact ⟨hbusy'.trans hbusy, hdone'.trans hdone, hanomalies'.trans hanomalies, hruns'.trans hruns⟩

/-! ## The statement -/

/-- Settles O51: each port word's next state is an update of IRQSTAT, its unit and its port. -/
theorem portWordFrame : Obligations.PortWordFrame := by
  refine fun s t => ⟨?drv, ?cap, ?edge, ?trc, ?rec⟩
  case drv =>
    rintro ⟨op, h⟩
    obtain ⟨irq, u, out, rfl⟩ := txPush_next ((exec_driverOp op s).symm.trans h)
    exact ⟨rfl, rfl, rfl, rfl, rfl, fun a ha =>
      readByte_of_own (own := [0x14#8]) (u := { s with tx := u }) ha (fun _ hr => readReg_tx hr s u) irq⟩
  case cap =>
    rintro ⟨pol, dur, h⟩
    obtain ⟨irq, u, rest, rfl⟩ := h.elim rxPop_next rxPop_next
    exact ⟨rfl, rfl, rfl, rfl, rfl, fun a ha =>
      readByte_of_own (own := [0x18#8, 0x1C#8, 0x20#8]) (u := { s with rx := u }) ha (fun _ hr => readReg_rx hr s u)
        irq⟩
  case edge =>
    rintro ⟨pol, ts, h⟩
    obtain ⟨irq, q, ovf, rest, rfl⟩ := execEdge_next h
    exact ⟨rfl, rfl, rfl, rfl, rfl, rfl, fun a ha =>
      readByte_of_own (own := [0x28#8]) (u := { s with gap := { s.gap with q := q, edgeOvf := ovf } }) ha
        (fun _ hr => readReg_gap hr s rfl) irq⟩
  case trc =>
    rintro ⟨data, h⟩
    obtain ⟨u, rest, hkept, rfl⟩ :=
      h.elim (trcPop_next · (byteIn_kept data s.ta)) (trcPop_next · (endOfTrace_kept s.ta))
    have hread (a : BitVec 8) : readByte a { s with ta := u } = readByte a s :=
      readByte_of_readReg (readReg_ta_kept s hkept)
    obtain ⟨hbusy, hdone, hanomalies, hruns⟩ := hkept
    exact ⟨rfl, rfl, rfl, rfl, rfl, hbusy, hdone, hruns, hanomalies, hread⟩
  case rec =>
    rintro ⟨r, h⟩
    obtain ⟨irq, u, out, rfl⟩ := recPush_next ((exec_record r s).symm.trans h)
    exact ⟨rfl, rfl, rfl, rfl, rfl, fun a ha =>
      readByte_of_own (own := [0x40#8, 0x44#8]) (u := { s with ta := u }) ha (fun _ hr => readReg_ta hr s u) irq⟩

end Sys2Proof.Machine
end

section
/-! PROOFS. The frame decoder (spec/42_decoder.md R215 to R222): one equation of `rxStep` per running state, what one
more bit does to the accumulator, and the fields of the result words. -/

namespace Sys2Proof.Machine

open Sys2Proof.Claims BitVec

/-! ## The state machine -/

section
variable {d : DecState}

theorem rxStep_awaitHeaderMark (h : d.st = .awaitHeaderMark) (p : Proto) (ev : DecEvent) :
    rxStep p d ev = stepHeaderMark p d ev := by rw [rxStep, h]

theorem rxStep_awaitHeaderSpace (h : d.st = .awaitHeaderSpace) (p : Proto) (ev : DecEvent) :
    rxStep p d ev = stepHeaderSpace p d ev := by rw [rxStep, h]

theorem rxStep_awaitBitMark (h : d.st = .awaitBitMark) (p : Proto) (ev : DecEvent) :
    rxStep p d ev = stepBitMark p d ev := by rw [rxStep, h]

theorem rxStep_awaitBitSpace (h : d.st = .awaitBitSpace) (p : Proto) (ev : DecEvent) :
    rxStep p d ev = stepBitSpace p d ev := by rw [rxStep, h]

theorem rxStep_awaitStop (h : d.st = .awaitStop) (p : Proto) (ev : DecEvent) :
    rxStep p d ev = stepStop p d ev := by rw [rxStep, h]

end

/-- NEC sets bit i (spec/42_decoder.md R220). -/
theorem accumulate_nec (acc : BitVec 48) (i : Nat) (b : Bool) :
    accumulate .nec acc i b = acc ||| if b then 1#48 <<< i else 0#48 := by
  cases b with
  | false => simp [accumulate, bit1]
  | true => rfl

/-- R05D shifts the bit in from the right (spec/42_decoder.md R220). -/
theorem accumulate_r05d (acc : BitVec 48) (i : Nat) (b : Bool) : accumulate .r05d acc i b = acc.shiftConcat b := by
  have hbit : (bit1 b).setWidth 48 = (0#47).concat b := by
    cases b with
    | false | true => rfl
  rw [accumulate, hbit]
  ext i hi
  cases i with
  | zero => simp
  | succ i => simp

theorem shiftConcat_eq_ofNat (acc : BitVec 48) (b : Bool) :
    acc.shiftConcat b = BitVec.ofNat 48 ((2 * acc.toNat + b.toNat) % 2 ^ 48) := by
  apply eq_of_toNat_eq
  rw [toNat_shiftConcat, toNat_ofNat, Nat.mod_mod, Nat.shiftLeft_eq, Nat.pow_one, Nat.mul_comm]

/-- Settles O25: each running state by its own equation. -/
theorem decoderTransitions : Obligations.DecoderTransitions := by
  intro p d dur failed finished accept
  have haccept (b : Bool) : acceptBit p d b = accept b := by
    cases p with
    | nec => simp only [acceptBit, accumulate_nec, accept]
    | r05d => simp only [acceptBit, accumulate_r05d, shiftConcat_eq_ofNat, accept]
  refine ⟨fun h => ?headerMark, fun h => ?headerSpace, fun h => ?bitMark, fun h => ?bitSpace, fun h => ?stop⟩
  case headerMark => simp only [rxStep_awaitHeaderMark h]; exact ⟨rfl, rfl, rfl, rfl⟩
  case headerSpace => simp only [rxStep_awaitHeaderSpace h]; exact ⟨rfl, rfl, rfl, rfl⟩
  case bitMark => simp only [rxStep_awaitBitMark h, ← Bool.or_eq_true]; exact ⟨rfl, rfl, rfl, rfl⟩
  case bitSpace => simp only [rxStep_awaitBitSpace h, ← haccept]; exact ⟨rfl, rfl, rfl, rfl⟩
  case stop => simp only [rxStep_awaitStop h]; exact ⟨rfl, rfl, rfl, rfl⟩

/-! ## Result words -/

theorem resultData0_nec (d : DecState) : resultData0 .nec d = d.acc.setWidth 32 :=
  (setWidth_eq_extractLsb' (by decide)).symm

theorem resultData1_nec (d : DecState) :
    resultData1 .nec d = if d.warn then 0x00000000#32 else 0x10000000#32 := by
  rw [resultData1]
  cases d.warn with
  | false | true => rfl

section
variable {d : DecState} {r0 r1 r2 r3 r4 r5 : Byte} (h : d.acc = r0 ++ r1 ++ r2 ++ r3 ++ r4 ++ r5)
include h

/-- The six bytes of the accumulator, first received first (spec/42_decoder.md R222). -/
theorem rxByte_eq :
    rxByte d.acc 0 = r0 ∧ rxByte d.acc 1 = r1 ∧ rxByte d.acc 2 = r2 ∧ rxByte d.acc 3 = r3 ∧ rxByte d.acc 4 = r4 ∧
      rxByte d.acc 5 = r5 := by
  rw [h]
  simp (disch := decide) only [rxByte, extractLsb'_append_eq_of_le, extractLsb'_append_eq_of_add_le,
    extractLsb'_eq_self, Nat.reduceSub, Nat.reduceMul, and_true]

theorem resultData0_r05d : resultData0 .r05d d = 0#8 ++ r0 ++ r2 ++ r4 := by
  obtain ⟨h0, -, h2, -, h4, -⟩ := rxByte_eq h
  rw [resultData0, h0, h2, h4]

theorem resultData1_r05d :
    resultData1 .r05d d = 0#3 ++ bit1 (!d.warn) ++ 0#1 ++ bit1 (cmplOk r4 r5) ++ bit1 (cmplOk r2 r3) ++
      bit1 (cmplOk r0 r1) ++ r1 ++ r3 ++ r5 := by
  obtain ⟨h0, h1, h2, h3, h4, h5⟩ := rxByte_eq h
  rw [resultData1, h0, h1, h2, h3, h4, h5]

theorem resultData1_r05d_fields :
    (resultData1 .r05d d).extractLsb' 0 8 = r5 ∧ (resultData1 .r05d d).extractLsb' 8 8 = r3 ∧
      (resultData1 .r05d d).extractLsb' 16 8 = r1 ∧
      (resultData1 .r05d d).extractLsb' 24 1 = bit1 (cmplOk r0 r1) ∧
      (resultData1 .r05d d).extractLsb' 25 1 = bit1 (cmplOk r2 r3) ∧
      (resultData1 .r05d d).extractLsb' 26 1 = bit1 (cmplOk r4 r5) ∧
      (resultData1 .r05d d).extractLsb' 27 1 = bit1 false ∧
      (resultData1 .r05d d).extractLsb' 28 1 = bit1 (!d.warn) ∧
      (resultData1 .r05d d).extractLsb' 29 3 = 0#3 := by
  rw [resultData1_r05d h]
  simp (disch := decide) only [extractLsb'_append_eq_of_le, extractLsb'_append_eq_of_add_le,
    extractLsb'_eq_self, Nat.reduceSub, and_true, true_and]
  rfl

theorem resultData1_r05d_complements : (resultData1 .r05d d).extractLsb' 0 24 = r1 ++ r3 ++ r5 := by
  obtain ⟨h5, h3, h1, -⟩ := resultData1_r05d_fields h
  rw [← extractLsb'_append_extractLsb'_eq_extractLsb' (start₂ := 8) (len₂ := 16) (start₁ := 0) (len₁ := 8) rfl,
    ← extractLsb'_append_extractLsb'_eq_extractLsb' (start₂ := 16) (len₂ := 8) (start₁ := 8) (len₁ := 8) rfl, h1, h3,
    h5]

end

/-- Settles O26: the words are their fields appended, so each field reads back. -/
theorem resultWordFields : Obligations.ResultWordFields := by
  refine fun d => ⟨resultData0_nec d, resultData1_nec d, fun r0 r1 r2 r3 r4 r5 h => ?_⟩
  obtain ⟨-, -, -, h24, h25, h26, h27, h28, htop⟩ := resultData1_r05d_fields h
  exact ⟨resultData0_r05d h, resultData1_r05d_complements h, getLsbD_iff_of_field h24, getLsbD_iff_of_field h25,
    getLsbD_iff_of_field h26, getLsbD_of_field h27, getLsbD_of_field h28, htop⟩

end Sys2Proof.Machine
end

section
/-! PROOFS. The RX unit (spec/42_decoder.md R212 to R214, R225): RX_START, RX_STOP, the step that pops one CAP word, and
what can leave a terminal state. -/

namespace Sys2Proof.Machine

open Sys2Proof.Claims

/-! ## RX_START and RX_STOP -/

/-- The states that do not run, by name (spec/00_scope.md R19). -/
theorem DecSt.not_running_iff (st : DecSt) : st.running = false ↔ st ∈ [DecSt.idle, .done, .failed] := by
  cases st with
  | idle | awaitHeaderMark | awaitHeaderSpace | awaitBitMark | awaitBitSpace | awaitStop | done | failed => decide

/-- Settles O27: PROTO is checked first, then the decoder; one that does not run is armed. -/
theorem rxStartArms : Obligations.RxStartArms := by
  refine fun p k s hr =>
    ⟨commandIs_of_decodeOp (fun _ _ => rfl) hr, fun hp => protoCommand_badProto hr hp, fun hp hrunning => ?_, ?_⟩
  · obtain ⟨proto, -, rfl⟩ := ofField_isSome hp
    exact protoCommand_of_error hr (if_pos (s.rx.dec.st.running_iff.mpr hrunning))
  · rintro proto rfl hstopped
    have hnot : ¬ s.rx.dec.st.running = true := Bool.eq_false_iff.mp (s.rx.dec.st.not_running_iff.mpr hstopped)
    exact protoCommand_of_ok hr (if_neg hnot)

/-- Settles O28: RX_STOP has no check. -/
theorem rxStopIdles : Obligations.RxStopIdles := fun _ _ _ hr =>
  ⟨commandIs_of_decodeOp (fun _ _ => rfl) hr, runCommand_ok hr _ _⟩

/-! ## One CAP word -/

section
variable {s : State} {pol : Polarity} {dur : Word} {rest : List (BitVec 34)} (hrunning : s.rx.dec.st.running = true)
  (hr : s.env.rst = false)
include hrunning hr

theorem rxPop_taken {w : BitVec 34} (hcap : s.env.capIn = w :: rest) (ev : DecEvent) :
    rxPop w ev s = .next (rxConsumed ev s) := by
  rw [rxPop, hrunning, hcap, List.head?_cons, decide_eq_true rfl]
  exact unitStep_true hr _

theorem exec_capPulse_taken (hcap : s.env.capIn = capWord 0#1 pol dur :: rest) :
    exec (.capPulse pol dur) s = .next (rxConsumed (.pulse pol dur) s) :=
  rxPop_taken hrunning hr hcap _

theorem exec_capTimeout_taken (hcap : s.env.capIn = capWord 1#1 pol dur :: rest) :
    exec (.capTimeout pol dur) s = .next (rxConsumed .timeout s) :=
  rxPop_taken hrunning hr hcap _

end

section
variable {ev : DecEvent} {s : State} {w : BitVec 34} {rest : List (BitVec 34)} (hcap : s.env.capIn = w :: rest)
include hcap

/-- The move to Done writes the result words and sets IRQSTAT.RX_TERM (spec/42_decoder.md R214). -/
theorem rxConsumed_done (h : (rxStep s.rx.proto s.rx.dec ev).st = .done) :
    rxConsumed ev s =
      { s with
        host := s.host.raiseIrq .rxTerm
        rx :=
          { proto := s.rx.proto
            dec := rxStep s.rx.proto s.rx.dec ev
            data0 := resultData0 s.rx.proto (rxStep s.rx.proto s.rx.dec ev)
            data1 := resultData1 s.rx.proto (rxStep s.rx.proto s.rx.dec ev) }
        env := { s.env with capIn := rest } } := by
  simp [rxConsumed, RxUnit.consume, h, hcap, DecSt.terminal, raiseIrq]

/-- The move to Failed sets IRQSTAT.RX_TERM and writes no result word (spec/42_decoder.md R214, R216). -/
theorem rxConsumed_failed (h : (rxStep s.rx.proto s.rx.dec ev).st = .failed) :
    rxConsumed ev s =
      { s with
        host := s.host.raiseIrq .rxTerm
        rx := { s.rx with dec := rxStep s.rx.proto s.rx.dec ev }
        env := { s.env with capIn := rest } } := by
  simp [rxConsumed, RxUnit.consume, h, hcap, DecSt.terminal, raiseIrq]

theorem rxConsumed_not_terminal (h : (rxStep s.rx.proto s.rx.dec ev).st.terminal = false) :
    rxConsumed ev s =
      { s with rx := { s.rx with dec := rxStep s.rx.proto s.rx.dec ev }, env := { s.env with capIn := rest } } := by
  have hnot : (rxStep s.rx.proto s.rx.dec ev).st ≠ .done := fun hd => by rw [hd] at h; cases h
  simp [rxConsumed, RxUnit.consume, h, hcap, hnot]

end

/-- The terminal states by name (spec/00_scope.md R19). -/
theorem DecSt.not_terminal_iff (st : DecSt) : st.terminal = false ↔ st ≠ .done ∧ st ≠ .failed := by
  cases st with
  | idle | awaitHeaderMark | awaitHeaderSpace | awaitBitMark | awaitBitSpace | awaitStop | done | failed => decide

/-- Settles O29: the word is popped, and the state it leads to decides what else is written. -/
theorem rxStepPopsCapWord : Obligations.RxStepPopsCapWord := by
  intro s pol dur rest hr after hrunning
  have hafter {ev : DecEvent} {w : BitVec 34} (hcap : s.env.capIn = w :: rest) : rxConsumed ev s = after ev := by
    by_cases hdone : (rxStep s.rx.proto s.rx.dec ev).st = .done
    · rw [rxConsumed_done hcap hdone]
      simp [after, hdone, HostRegs.raiseIrq, IrqSource.mask]
    · by_cases hfailed : (rxStep s.rx.proto s.rx.dec ev).st = .failed
      · rw [rxConsumed_failed hcap hfailed]
        simp [after, hfailed, HostRegs.raiseIrq, IrqSource.mask]
      · rw [rxConsumed_not_terminal hcap ((DecSt.not_terminal_iff _).mpr ⟨hdone, hfailed⟩)]
        simp [after, hdone, hfailed]
  exact ⟨fun hcap => by rw [exec_capPulse_taken hrunning hr hcap, hafter hcap],
    fun hcap => by rw [exec_capTimeout_taken hrunning hr hcap, hafter hcap]⟩

/-! ## Terminal states -/

theorem CommandEffect.rx_eq {op : BitVec 8} {s u : State} (h : CommandEffect s op u) :
    u.rx = s.rx ∨ op = 0x20#8 ∨ op = 0x21#8 := by
  cases h with
  | rxStart => exact .inr (.inl rfl)
  | rxStop => exact .inr (.inr rfl)
  | nop | result | txStart | gapStart | gapStop | gapAck | taStart => exact .inl rfl

/-- Of the CMD words only RX_START and RX_STOP touch the RX unit (spec/20_memory.md R95). -/
theorem CommandNext.rx_eq {op : BitVec 8} {s t : State} (h : CommandNext op s t) :
    t.rx = s.rx ∨ op = 0x20#8 ∨ op = 0x21#8 := by
  obtain ⟨code, -, rfl⟩ | ⟨u, hu, rfl⟩ := h
  · exact .inl rfl
  · exact hu.rx_eq

theorem act_hostWrite_rx {size : Nat} {off : BitVec 8} {v : Word} {s t : State}
    (h : act exec (.hostWrite size off v) s = .next t) :
    t.rx = s.rx ∨ (size = 4 ∧ off = 0x00#8 ∧ (opField v = 0x20#8 ∨ opField v = 0x21#8)) := by
  obtain ⟨-, rfl⟩ | ⟨hlegal, ⟨hcmd, hnext⟩ | ⟨-, rfl⟩⟩ := act_hostWrite_next h
  · exact .inl rfl
  · obtain ⟨hsize, -, -⟩ := (accessOk_iff size off s).mp hlegal
    exact hnext.rx_eq.imp id fun hop => ⟨hsize, hcmd, hop⟩
  · exact .inl rfl

/-- Settles O30: no other agent touches the RX unit, its own step is held, and a host write is an RX command. -/
theorem terminalDecoderHolds : Obligations.TerminalDecoderHolds := by
  intro a s t hterminal h
  cases a with
  | hostWrite size off v =>
    obtain hrx | ⟨rfl, rfl, hop⟩ := act_hostWrite_rx h
    · exact .inl hrx
    · exact .inr (.inr ⟨v, rfl, hop⟩)
  | hostRead size off =>
    obtain ⟨-, rfl⟩ | ⟨-, rfl⟩ := act_hostRead_next h
    · exact .inl rfl
    · exact .inl rfl
  | rx =>
    have hstopped : s.rx.dec.st.running = false :=
      s.rx.dec.st.not_running_iff.mpr (List.mem_cons_of_mem _ (by simpa using hterminal))
    cases h.symm.trans (act_rx_held (.inl hstopped))
    exact .inl rfl
  | tx => exact .inl (act_tx_frame h).1
  | edgeIntake => exact .inl (act_gap_frame (by simp) h).2.1
  | gapEdge => exact .inl (act_gap_frame (by simp) h).2.1
  | gapSilence => exact .inl (act_gap_frame (by simp) h).2.1
  | taToken => exact .inl (act_ta_frame (by simp) h).2.1
  | taEmit => exact .inl (act_ta_frame (by simp) h).2.1
  | rst b =>
    cases h
    cases b with
    | false => exact .inl rfl
    | true => exact .inr (.inl rfl)
  | capOffer | edgeOffer | trcOffer | drvReady | recReady | tick => cases h; exact .inl rfl

end Sys2Proof.Machine
end

section
/-! PROOFS. The decoder over a frame of the encoder (spec/42_decoder.md R217 to R221). A NEC frame and an R05D sub-frame
up to its StopMark are a header pair, one pair per bit and a StopMark; the decoder is followed bit by bit over that
common form. -/

namespace Sys2Proof.Machine

open Sys2Proof.Claims

/-! ## The bits of a value in the order they are sent -/

/-- Bit `k` to be sent of a value: NEC sends the least significant bit first, R05D the most significant
(spec/30_encoding.md R115, R116). -/
def sentBit : Proto → BitVec 48 → Nat → Bool
  | .nec, x, k => x.getLsbD k
  | .r05d, x, k => x.getMsbD k

/-- What the accumulator holds after `k` of these bits (spec/42_decoder.md R220). -/
def received : Proto → BitVec 48 → Nat → BitVec 48
  | .nec, x, k => (x.setWidth k).setWidth 48
  | .r05d, x, k => x >>> (48 - k)

theorem received_zero (p : Proto) (x : BitVec 48) : received p x 0 = 0#48 := by
  cases p with
  | nec => rw [received, BitVec.of_length_zero (x := x.setWidth 0)]; rfl
  | r05d => exact BitVec.ushiftRight_eq_zero (Nat.le_refl 48)

theorem accumulate_received (p : Proto) (x : BitVec 48) {k : Nat} (hk : k < 48) :
    accumulate p (received p x k) k (sentBit p x k) = received p x (k + 1) := by
  cases p with
  | nec =>
    rw [accumulate_nec]
    cases hb : x.getLsbD k with
    | false =>
      simp only [received, sentBit, hb, BitVec.setWidth_setWidth_succ_eq_setWidth_setWidth_of_getLsbD_false hb,
        Bool.false_eq_true, if_false, BitVec.or_zero]
    | true =>
      simp only [received, sentBit, hb, BitVec.setWidth_setWidth_succ_eq_setWidth_setWidth_or_twoPow_of_getLsbD_true hb,
        BitVec.twoPow_eq, if_true]
  | r05d =>
    have hbit : x.getMsbD k = x.getLsbD (48 - k - 1) := by
      rw [BitVec.getMsbD, decide_eq_true hk, Bool.true_and, Nat.sub_right_comm]
    rw [accumulate_r05d, received, sentBit, hbit, ← BitVec.shiftRight_sub_one_eq_shiftConcat x (Nat.sub_pos_of_lt hk)]
    rfl

/-! ## The decoder over a header, one pair per bit, a stop -/

/-- The decoder amid a frame that carries `x`: `k` bits are received (spec/42_decoder.md R218, R220). -/
def DecState.receiving (p : Proto) (x : BitVec 48) (k : Nat) : DecState where
  st := if k = nbits p then .awaitStop else .awaitBitMark
  i := k
  acc := received p x k
  fail := .none
  warn := false

/-- The decoder at the end of that frame (spec/42_decoder.md R221). -/
def DecState.decoded (p : Proto) (x : BitVec 48) : DecState where
  st := .done
  i := nbits p
  acc := received p x (nbits p)
  fail := .none
  warn := false

theorem nbits_le (p : Proto) : nbits p ≤ 48 := by
  cases p with
  | nec | r05d => decide

theorem feedFrame_header (p : Proto) (x : BitVec 48) :
    feedFrame p .armed (headerSymbols.map (symbolEvent p)) = .receiving p x 0 := by
  rw [DecState.receiving, received_zero]
  cases p with
  | nec | r05d => rfl

/-- The pair of one bit is accepted as that bit (spec/42_decoder.md R219, R220): the two pairs of either protocol, their
nominals looked up in the windows. -/
theorem feedFrame_bit {p : Proto} {d : DecState} (h : d.st = .awaitBitMark) (b : Bool) :
    feedFrame p d ((bitSymbols b).map (symbolEvent p)) = acceptBit p d b := by
  obtain ⟨st, i, acc, fail, warn⟩ := d
  cases h
  cases p with
  | nec | r05d =>
    cases b with
    | false | true => rfl

theorem DecState.receiving_accept (p : Proto) (x : BitVec 48) {k : Nat} (hk : k < nbits p) :
    acceptBit p (.receiving p x k) (sentBit p x k) = .receiving p x (k + 1) := by
  have hacc := accumulate_received p x (Nat.lt_of_lt_of_le hk (nbits_le p))
  exact congrArg
    (fun acc => DecState.mk (if k + 1 = nbits p then .awaitStop else .awaitBitMark) (k + 1) acc .none false) hacc

/-- The pairs of the first `k` bits: induction on the bits received. -/
theorem feedFrame_bits (p : Proto) (x : BitVec 48) {k : Nat} (hk : k ≤ nbits p) :
    feedFrame p (.receiving p x 0) ((((List.range k).map (sentBit p x)).flatMap bitSymbols).map (symbolEvent p)) =
      .receiving p x k := by
  induction k with
  | zero => rfl
  | succ k ih =>
    have hst : (DecState.receiving p x k).st = .awaitBitMark := if_neg (Nat.ne_of_lt hk)
    rw [List.range_succ, List.map_append, List.flatMap_append, List.map_append, feedFrame_append,
      ih (Nat.le_of_succ_le hk), List.map_singleton, List.flatMap_singleton, feedFrame_bit hst,
      DecState.receiving_accept p x hk]

/-- The events of a frame that carries `x`, up to its stop (spec/30_encoding.md R115, R116). -/
def valueEvents (p : Proto) (x : BitVec 48) : List PulseEvent :=
  (pairedSymbols ((List.range (nbits p)).map (sentBit p x)) []).map (symbolEvent p)

theorem valueEvents_length (p : Proto) (x : BitVec 48) : (valueEvents p x).length = 2 * nbits p + 2 := by
  rw [valueEvents, List.length_map, pairedSymbols_length, List.length_map, List.length_range, List.length_nil,
    Nat.add_zero, Nat.add_comm]

theorem feedFrame_valueEvents (p : Proto) (x : BitVec 48) :
    feedFrame p .armed (valueEvents p x) = .receiving p x (nbits p) := by
  rw [valueEvents, pairedSymbols, List.append_nil, List.map_append, feedFrame_append, feedFrame_header p x,
    feedFrame_bits p x (Nat.le_refl _)]

theorem rxStep_stopMark (p : Proto) (x : BitVec 48) :
    rxStep p (.receiving p x (nbits p)) (.pulse .mark (symbolDuration p .stopMark)) = .decoded p x := by
  cases p with
  | nec | r05d => rfl

/-- An armed decoder ignores Spaces (spec/42_decoder.md R217, R228). -/
theorem feedFrame_spaces (p : Proto) {lead : List PulseEvent} (h : ∀ e ∈ lead, e.pol = .space) :
    feedFrame p .armed lead = .armed := by
  induction lead with
  | nil => rfl
  | cons e es ih =>
    obtain ⟨he, hes⟩ := List.forall_mem_cons.mp h
    rw [feedFrame_cons rfl, he]
    exact ih hes

/-! ## The frames in this form -/

theorem pairedSymbols_append_stop (bits : List Bool) (stop : List FrameSymbol) :
    pairedSymbols bits stop = pairedSymbols bits [] ++ stop := by
  rw [pairedSymbols, pairedSymbols, List.append_nil]

theorem encodeNEC_eq (v : Word) :
    encodeNEC v = valueEvents .nec (v.setWidth 48) ++ [symbolEvent .nec (.mark, .stopMark)] := by
  have hbits : necBits v = (List.range 32).map (sentBit .nec (v.setWidth 48)) := by
    refine List.map_congr_left fun k hk => ?_
    have hk : k < 48 := Nat.lt_trans (List.mem_range.mp hk) (by decide)
    rw [sentBit, BitVec.getLsbD_setWidth, decide_eq_true hk, Bool.true_and]
  rw [encodeNEC, necSymbols_eq, pairedSymbols_append_stop, List.map_append, hbits]
  rfl

/-- The bits of a value, most significant bit first. -/
def msbBits {n : Nat} (x : BitVec n) : List Bool := (List.range n).map x.getMsbD

theorem msbBits_append {m n : Nat} (x : BitVec m) (y : BitVec n) : msbBits (x ++ y) = msbBits x ++ msbBits y := by
  rw [msbBits, List.range_add, List.map_append, List.map_map]
  congr 1
  · refine List.map_congr_left fun k hk => ?_
    rw [BitVec.getMsbD_append, if_neg (Nat.not_le.mpr (List.mem_range.mp hk))]
  · refine List.map_congr_left fun k _ => ?_
    rw [Function.comp_apply, BitVec.getMsbD_append, if_pos (Nat.le_add_right m k), Nat.add_sub_cancel_left]

theorem byteBits_eq_msbBits (b : Byte) : byteBits b = msbBits b := rfl

/-- The six bytes of a sub-frame in the order they are sent (spec/30_encoding.md R116). -/
def subFrameWord (a b c : Byte) : BitVec 48 := a ++ ~~~a ++ b ++ ~~~b ++ c ++ ~~~c

theorem subFrameBits_eq (a b c : Byte) :
    (subFrameBytes a b c).flatMap byteBits = (List.range 48).map (sentBit .r05d (subFrameWord a b c)) := by
  have hword : (List.range 48).map (sentBit .r05d (subFrameWord a b c)) = msbBits (subFrameWord a b c) := rfl
  rw [hword, subFrameWord]
  simp only [msbBits_append, ← byteBits_eq_msbBits, subFrameBytes, List.flatMap_cons, List.flatMap_nil,
    List.append_nil, List.append_assoc]

theorem subFrame_eq (a b c : Byte) :
    subFrame a b c = valueEvents .r05d (subFrameWord a b c) ++
      [symbolEvent .r05d (.mark, .stopMark), symbolEvent .r05d (.space, .stopSpace)] := by
  rw [subFrame, subFrameSymbols_eq, pairedSymbols_append_stop, List.map_append, subFrameBits_eq]
  rfl

end Sys2Proof.Machine
end

section
/-! PROOFS. The round trips (spec/42_decoder.md R227, R228): RX steps that pop the words of a frame one by one feed the
decoder its events. -/

namespace Sys2Proof.Machine

open Sys2Proof.Claims

/-! ## Running decoders -/

theorem rxStep_not_running {d : DecState} (h : d.st.running = false) (p : Proto) (ev : DecEvent) :
    rxStep p d ev = d := by
  obtain ⟨st, i, acc, fail, warn⟩ := d
  cases st with
  | idle | done | failed => rfl
  | awaitHeaderMark | awaitHeaderSpace | awaitBitMark | awaitBitSpace | awaitStop => cases h

theorem running_of_rxStep {p : Proto} {d : DecState} {ev : DecEvent} (h : (rxStep p d ev).st.running = true) :
    d.st.running = true := by
  cases hst : d.st.running with
  | true => rfl
  | false => rw [rxStep_not_running hst, hst] at h; cases h

/-- A decoder that runs after a list of events has run all along. -/
theorem running_of_feedFrame {p : Proto} {d : DecState} {f : List PulseEvent}
    (h : (feedFrame p d f).st.running = true) : d.st.running = true := by
  induction f generalizing d with
  | nil => exact h
  | cons e f ih =>
    rw [feedFrame] at h
    split at h
    · exact h
    · exact running_of_rxStep (ih h)

theorem DecSt.not_terminal_of_running {st : DecSt} (h : st.running = true) : st.terminal = false := by
  cases st with
  | idle | done | failed => cases h
  | awaitHeaderMark | awaitHeaderSpace | awaitBitMark | awaitBitSpace | awaitStop => rfl

/-! ## The RX steps, scripted one after the other (log 2) -/

section
variable {s : State} {rest : List (BitVec 34)} {more : List Action} (hr : s.env.rst = false)
  (hp : s.env.pending = .rx :: more)
include hr hp

theorem step_rx_consumed {e : PulseEvent} (hcap : s.env.capIn = capWords [e] ++ rest)
    (hrunning : s.rx.dec.st.running = true) :
    step s = .next (rxConsumed (.pulse e.pol e.dur) { s with env := { s.env with pending := more } }) :=
  calc step s = act exec .rx { s with env := { s.env with pending := more } } := step_scripted hp
    _ = exec (.capPulse e.pol e.dur) _ := act_rx_decoded hcap (congrArg Except.ok (decodeCap_pulse e.pol e.dur))
    _ = _ := exec_capPulse_taken hrunning hr hcap

theorem step_rx_running {e : PulseEvent} (hcap : s.env.capIn = capWords [e] ++ rest)
    (hrunning : (rxStep s.rx.proto s.rx.dec (.pulse e.pol e.dur)).st.running = true) :
    step s = .next
      { s with
        rx := { s.rx with dec := rxStep s.rx.proto s.rx.dec (.pulse e.pol e.dur) }
        env := { s.env with capIn := rest, pending := more } } :=
  (step_rx_consumed hr hp hcap (running_of_rxStep hrunning)).trans
    (congrArg Host.Outcome.next (rxConsumed_not_terminal hcap (DecSt.not_terminal_of_running hrunning)))

theorem step_rx_done {e : PulseEvent} {d : DecState} (hcap : s.env.capIn = capWords [e] ++ rest)
    (hrunning : s.rx.dec.st.running = true) (hd : rxStep s.rx.proto s.rx.dec (.pulse e.pol e.dur) = d)
    (hdone : d.st = .done) :
    step s = .next
      { s with
        host := s.host.raiseIrq .rxTerm
        rx := { proto := s.rx.proto, dec := d, data0 := resultData0 s.rx.proto d, data1 := resultData1 s.rx.proto d }
        env := { s.env with capIn := rest, pending := more } } := by
  subst hd
  exact (step_rx_consumed hr hp hcap hrunning).trans (congrArg Host.Outcome.next (rxConsumed_done hcap hdone))

end

/-- As many RX steps as events pop them all; the decoder, running up to the last, ends in Done: induction on the events
before the last. -/
theorem run_rx_done {s : State} {f : List PulseEvent} {e : PulseEvent} {d d' : DecState} {rest : List (BitVec 34)}
    {more : List Action} (hr : s.env.rst = false) (hcap : s.env.capIn = capWords (f ++ [e]) ++ rest)
    (hp : s.env.pending = List.replicate (f.length + 1) .rx ++ more)
    (hfeed : feedFrame s.rx.proto s.rx.dec f = d) (hrunning : d.st.running = true)
    (hlast : rxStep s.rx.proto d (.pulse e.pol e.dur) = d') (hdone : d'.st = .done) :
    Host.Core.run core (f.length + 1) s = .next
      { s with
        host := s.host.raiseIrq .rxTerm
        rx := { proto := s.rx.proto, dec := d', data0 := resultData0 s.rx.proto d', data1 := resultData1 s.rx.proto d' }
        env := { s.env with capIn := rest, pending := more } } := by
  induction f generalizing s with
  | nil =>
    cases hfeed
    exact run_of_step (M := core) (step_rx_done hr hp hcap hrunning hlast hdone) 0
  | cons e' f ih =>
    have hbefore : s.rx.dec.st.running = true := running_of_feedFrame (hfeed ▸ hrunning)
    rw [feedFrame_cons (DecSt.not_terminal_of_running hbefore)] at hfeed
    have hnext := running_of_feedFrame (hfeed ▸ hrunning)
    exact (run_of_step (M := core) (step_rx_running hr hp hcap hnext) _).trans (ih hr rfl rfl hfeed hlast)

/-- The RX unit that has decoded a frame carrying `x` (spec/42_decoder.md R222). -/
def RxUnit.decoded (p : Proto) (x : BitVec 48) : RxUnit where
  proto := p
  dec := .decoded p x
  data0 := resultData0 p (.decoded p x)
  data1 := resultData1 p (.decoded p x)

/-- The armed decoder fed Spaces, then a frame that carries `x` up to its StopMark. -/
theorem run_rx_value {s : State} {p : Proto} {x : BitVec 48} {lead : List PulseEvent} {rest : List (BitVec 34)}
    {more : List Action} (hproto : s.rx.proto = p) (harmed : s.rx.dec = .armed) (hr : s.env.rst = false)
    (hlead : ∀ e ∈ lead, e.pol = .space)
    (hcap : s.env.capIn = capWords (lead ++ valueEvents p x ++ [symbolEvent p (.mark, .stopMark)]) ++ rest)
    (hp : s.env.pending = List.replicate (lead.length + (2 * nbits p + 3)) .rx ++ more) :
    Host.Core.run core (lead.length + (2 * nbits p + 3)) s = .next
      { s with
        host := s.host.raiseIrq .rxTerm
        rx := .decoded p x
        env := { s.env with capIn := rest, pending := more } } := by
  subst hproto
  have hlength : lead.length + (2 * nbits s.rx.proto + 3) = (lead ++ valueEvents s.rx.proto x).length + 1 := by
    rw [List.length_append, valueEvents_length]; rfl
  have hfeed : feedFrame s.rx.proto s.rx.dec (lead ++ valueEvents s.rx.proto x) =
      .receiving s.rx.proto x (nbits s.rx.proto) := by
    rw [harmed, feedFrame_append, feedFrame_spaces _ hlead, feedFrame_valueEvents]
  have hrunning : (DecState.receiving s.rx.proto x (nbits s.rx.proto)).st.running = true := by
    rw [DecState.receiving, if_pos rfl]; rfl
  rw [hlength] at hp ⊢
  exact run_rx_done hr hcap hp hfeed hrunning (rxStep_stopMark _ x) rfl

/-! ## The statements -/

theorem resultData0_nec_decoded (v : Word) : resultData0 .nec (.decoded .nec (v.setWidth 48)) = v := by
  rw [resultData0_nec]
  simp [DecState.decoded, received, nbits]

/-- Settles O31: a NEC frame carries its value, and nothing stands before it. -/
theorem necRoundTrip : Obligations.NecRoundTrip := by
  intro s v rest more hproto harmed hr hcap hp
  rw [encodeNEC_eq] at hcap
  exact ⟨_, run_rx_value (lead := []) hproto harmed hr (by simp) hcap hp, rfl, rfl, resultData0_nec_decoded v,
    resultData1_nec _, rfl, rfl, rfl, rfl, rfl⟩

theorem received_subFrameWord (a b c : Byte) :
    (DecState.decoded .r05d (subFrameWord a b c)).acc = a ++ ~~~a ++ b ++ ~~~b ++ c ++ ~~~c :=
  BitVec.ushiftRight_zero _

theorem cmplOk_compl (b : Byte) : cmplOk b (~~~b) = true := by
  rw [cmplOk, BitVec.not_not, decide_eq_true rfl]

theorem resultData1_r05d_decoded (a b c : Byte) :
    resultData1 .r05d (.decoded .r05d (subFrameWord a b c)) = 0x17#8 ++ ~~~a ++ ~~~b ++ ~~~c := by
  have hflags : 0#3 ++ bit1 (!false) ++ 0#1 ++ bit1 true ++ bit1 true ++ bit1 true = 0x17#8 := rfl
  rw [resultData1_r05d (received_subFrameWord a b c), cmplOk_compl, cmplOk_compl, cmplOk_compl]
  exact congrArg (fun flags : BitVec 8 => flags ++ ~~~a ++ ~~~b ++ ~~~c) hflags

/-- Settles O32: a sub-frame carries its six bytes; the other sub-frame's StopSpace before it is ignored, and its own is
not popped. -/
theorem r05dRoundTrip : Obligations.R05dRoundTrip := by
  intro s a b c before rest more hbefore hproto harmed hr hcap hp
  obtain ⟨lead, rfl, hlead⟩ : ∃ lead, before = capWords lead ∧ ∀ e ∈ lead, e.pol = .space := by
    obtain rfl | rfl := hbefore
    · exact ⟨[], rfl, by simp⟩
    · exact ⟨[⟨.space, 5220#32⟩], rfl, by simp⟩
  have hcap' : s.env.capIn =
      capWords (lead ++ valueEvents .r05d (subFrameWord a b c) ++ [symbolEvent .r05d (.mark, .stopMark)]) ++
        capWord 0#1 .space 5220#32 :: rest := by
    rw [hcap, subFrame_eq]
    simp only [capWords, List.map_append, List.append_assoc]
    rfl
  have hlength : (capWords lead).length = lead.length := List.length_map _
  rw [hlength] at hp ⊢
  exact ⟨_, run_rx_value hproto harmed hr hlead hcap' hp, rfl, rfl, resultData0_r05d (received_subFrameWord a b c),
    resultData1_r05d_decoded a b c, rfl, rfl, rfl, rfl, rfl⟩

end Sys2Proof.Machine
end

section
/-! PROOFS. The GAP framer's commands and steps (spec/43_gap_framer.md R251 to R259): GAP_START, GAP_STOP, GAP_ACK, the
intake, closing a frame, the edge step and the silence step. -/

namespace Sys2Proof.Machine

open Sys2Proof.Claims

/-! ## Commands -/

/-- Settles O33: PROTO is checked first, then the framer; one that is disabled starts afresh. -/
theorem gapStartEnables : Obligations.GapStartEnables := by
  refine fun p k s hr =>
    ⟨commandIs_of_decodeOp (fun _ _ => rfl) hr, fun hp => protoCommand_badProto hr hp, fun hp hen => ?_, ?_⟩
  · obtain ⟨proto, -, rfl⟩ := ofField_isSome hp
    exact protoCommand_of_error hr (if_pos hen)
  · rintro proto rfl hdisabled
    have hnot : ¬ s.gap.en = true := Bool.eq_false_iff.mp hdisabled
    exact protoCommand_of_ok hr (if_neg hnot)

/-- Settles O34: neither command has a check. -/
theorem gapStopAndAck : Obligations.GapStopAndAck := fun _ _ _ hr =>
  ⟨commandIs_of_decodeOp (fun _ _ => rfl) hr, commandIs_of_decodeOp (fun _ _ => rfl) hr, runCommand_ok hr _ _,
    runCommand_ok hr _ _⟩

/-! ## Edge intake -/

section
variable {depth : Nat} {e : EdgeEvent} {s : State}

theorem intakeEdge_disabled (hen : s.gap.en = false) : intakeEdge depth e s = s := by
  rw [intakeEdge, hen]; rfl

theorem intakeEdge_full (hen : s.gap.en = true) (hfull : depth ≤ s.gap.q.length) :
    intakeEdge depth e s =
      { s with host := s.host.raiseIrq .gapOvf, gap := { s.gap with edgeOvf := true } } := by
  rw [intakeEdge, hen, (hasRoom_eq_false _ _).mpr hfull]; rfl

theorem intakeEdge_queued (hen : s.gap.en = true) (hroom : s.gap.q.length < depth) :
    intakeEdge depth e s = { s with gap := { s.gap with q := s.gap.q ++ [e] } } := by
  rw [intakeEdge, hen, (hasRoom_iff _ _).mpr hroom]; rfl

end

theorem exec_edge_taken {s : State} {pol : Polarity} {ts : Word} {rest : List (BitVec 33)} (hr : s.env.rst = false)
    (hedge : s.env.edgeIn = edgeWord pol ts :: rest) :
    exec (.edge pol ts) s = .next (popEdge (intakeEdge Config.edgeQDepth ⟨pol, ts⟩ s)) := by
  have hoffered : decide (s.env.edgeIn.head? = some (edgeWord pol ts)) = true := by
    rw [hedge]; exact decide_eq_true rfl
  calc exec (.edge pol ts) s = unitStep (decide (s.env.edgeIn.head? = some (edgeWord pol ts))) _ s := rfl
    _ = _ := by rw [hoffered]; exact unitStep_true hr _

/-- Settles O35: the word leaves the port in every case; the framer and its queue decide what becomes of it. -/
theorem edgeIntakeTakesEdge : Obligations.EdgeIntakeTakesEdge := by
  intro s pol ts rest hr hedge
  obtain rfl : s.env.edgeIn.tail = rest := by rw [hedge]; rfl
  rw [exec_edge_taken hr hedge]
  refine ⟨fun hen => ?disabled, fun hen hfull => ?full, fun hen hroom => ?queued⟩
  case disabled => rw [intakeEdge_disabled hen]; rfl
  case full => rw [intakeEdge_full hen hfull]; rfl
  case queued => rw [intakeEdge_queued hen hroom]; rfl

/-! ## Closing a frame -/

section
variable {s : State}

/-- A frame with no interval gives no result (spec/43_gap_framer.md R259). -/
theorem closeFrame_empty (hbuf : s.gap.buf = []) :
    closeFrame s = { s with gap := { s.gap with buf := [], bufOvf := false } } := by
  simp only [closeFrame, hbuf]

/-- A latched result stays; the new one is dropped (spec/43_gap_framer.md R261). -/
theorem closeFrame_overrun (hbuf : s.gap.buf ≠ []) (hresult : s.gap.result ≠ none) :
    closeFrame s =
      { s with
        host := s.host.raiseIrq .gapOvf
        gap := { s.gap with buf := [], bufOvf := false, resultOverrun := true } } := by
  obtain ⟨e, es, hbuf⟩ := List.exists_cons_of_ne_nil hbuf
  obtain ⟨r, hresult⟩ := Option.ne_none_iff_exists'.mp hresult
  simp only [closeFrame, hbuf, publish, hresult, raiseIrq]

theorem closeFrame_latches (hbuf : s.gap.buf ≠ []) (hresult : s.gap.result = none) :
    closeFrame s =
      { s with
        host := s.host.raiseIrq .gapResult
        gap := { s.gap with
          buf := []
          bufOvf := false
          result := some (gapResultOf s.gap.proto (decodeFrame s.gap.proto s.gap.buf) s.gap.bufOvf) } } := by
  obtain ⟨e, es, hbuf⟩ := List.exists_cons_of_ne_nil hbuf
  simp only [closeFrame, hbuf, publish, hresult, raiseIrq]

/-- Closing a frame does not look at the queue. -/
theorem closeFrame_queue (q : List EdgeEvent) :
    closeFrame { s with gap := { s.gap with q := q } } =
      { closeFrame s with gap := { (closeFrame s).gap with q := q } } := by
  by_cases hbuf : s.gap.buf = []
  · rw [closeFrame_empty hbuf]; exact closeFrame_empty hbuf
  · by_cases hresult : s.gap.result = none
    · rw [closeFrame_latches hbuf hresult]; exact closeFrame_latches hbuf hresult
    · rw [closeFrame_overrun hbuf hresult]; exact closeFrame_overrun hbuf hresult

end

/-- Settles O38: one lemma per case. -/
theorem closeFramePublishes : Obligations.CloseFramePublishes := fun _ =>
  ⟨closeFrame_empty, closeFrame_overrun, closeFrame_latches⟩

/-! ## The edge step -/

theorem isGap_iff (dt thr : Word) : isGap dt thr = true ↔ thr.toNat < dt.toNat := decide_eq_true_iff

theorem isGap_eq_false_iff (dt thr : Word) : isGap dt thr = false ↔ dt.toNat ≤ thr.toNat := by
  rw [isGap, decide_eq_false_iff_not, Nat.not_lt]

section
variable {depth : Nat} {e : EdgeEvent} {s : State}

/-- The first edge opens a frame (spec/43_gap_framer.md R256). -/
theorem edgeTaken_opens (hlast : s.gap.haveLast = false) :
    edgeTaken depth e s =
      { s with gap :=
        { s.gap with q := s.gap.q.tail, haveLast := true, lastTs := e.ts, lastPol := e.pol } } := by
  simp only [edgeTaken, frameEdge, hlast, Bool.not_false, if_true]

section
variable (hlast : s.gap.haveLast = true) (hshort : (e.ts - s.gap.lastTs).toNat ≤ s.gap.thr.toNat)
include hlast hshort

/-- An interval no longer than the threshold belongs to the frame (spec/43_gap_framer.md R256). -/
theorem edgeTaken_buffers (hroom : s.gap.buf.length < depth) :
    edgeTaken depth e s =
      { s with gap :=
        { s.gap with
          q := s.gap.q.tail
          buf := s.gap.buf ++ [⟨s.gap.lastPol, e.ts - s.gap.lastTs⟩]
          lastTs := e.ts
          lastPol := e.pol } } := by
  simp only [edgeTaken, frameEdge, appendInterval, hlast, (isGap_eq_false_iff _ _).mpr hshort,
    (hasRoom_iff _ _).mpr hroom, Bool.not_true, Bool.false_eq_true, if_false, if_true]

theorem edgeTaken_drops (hfull : depth ≤ s.gap.buf.length) :
    edgeTaken depth e s =
      { s with gap :=
        { s.gap with q := s.gap.q.tail, bufOvf := true, lastTs := e.ts, lastPol := e.pol } } := by
  simp only [edgeTaken, frameEdge, appendInterval, hlast, (isGap_eq_false_iff _ _).mpr hshort,
    (hasRoom_eq_false _ _).mpr hfull, Bool.not_true, Bool.false_eq_true, if_false]

end

/-- A gap closes the frame, and its interval belongs to none (spec/43_gap_framer.md R257). -/
theorem edgeTaken_closes (hlast : s.gap.haveLast = true) (hgap : s.gap.thr.toNat < (e.ts - s.gap.lastTs).toNat) :
    edgeTaken depth e s =
      { closeFrame s with gap :=
        { (closeFrame s).gap with q := s.gap.q.tail, lastTs := e.ts, lastPol := e.pol } } := by
  have hframe : frameEdge depth e { s with gap := { s.gap with q := s.gap.q.tail } } =
      closeFrame { s with gap := { s.gap with q := s.gap.q.tail } } := by
    simp only [frameEdge, hlast, (isGap_iff _ _).mpr hgap, Bool.not_true, Bool.false_eq_true, if_false, if_true]
  rw [edgeTaken, hframe, closeFrame_queue]

end

theorem act_gapEdge_taken {s : State} {e : EdgeEvent} {rest : List EdgeEvent} (hr : s.env.rst = false)
    (hen : s.gap.en = true) (hq : s.gap.q = e :: rest) :
    act exec .gapEdge s = .next (edgeTaken Config.frameBufDepth e s) := by
  simp only [act, gapEdgeStep, hq, hen]
  exact unitStep_true hr _

/-- Settles O36: the step takes the oldest edge, and what it does to the frame is one of four cases. -/
theorem GapUnit.gapEdgeStep : Obligations.GapEdgeStep := by
  intro s e rest hr hen hq dt
  obtain rfl : s.gap.q.tail = rest := by rw [hq]; rfl
  rw [act_gapEdge_taken hr hen hq]
  exact ⟨fun hlast => congrArg _ (edgeTaken_opens hlast),
    fun hlast hshort hroom => congrArg _ (edgeTaken_buffers hlast hshort hroom),
    fun hlast hshort hfull => congrArg _ (edgeTaken_drops hlast hshort hfull),
    fun hlast hgap => congrArg _ (edgeTaken_closes hlast hgap)⟩

/-! ## The silence step -/

/-- Settles O37: the step is enabled, and its effect is `silenceClosed`. -/
theorem GapUnit.gapSilenceStep : Obligations.GapSilenceStep := by
  intro s hr hen hq hlast hlong
  have hsilent : silent s = true := (silent_iff s).mpr ⟨hen, hq, hlast, hlong⟩
  calc act exec .gapSilence s = unitStep (silent s) (silenceClosed s) s := rfl
    _ = .next (silenceClosed s) := by rw [hsilent]; exact unitStep_true hr _

end Sys2Proof.Machine
end

section
/-! PROOFS. The decode of a frame buffer (spec/43_gap_framer.md R260): it ends in Done or Failed, and the intervals after
that are not looked at. -/

namespace Sys2Proof.Machine

/-- The terminal states by name (spec/00_scope.md R19). -/
theorem DecSt.terminal_iff (st : DecSt) : st.terminal = true ↔ st = .done ∨ st = .failed := by
  cases st with
  | idle | awaitHeaderMark | awaitHeaderSpace | awaitBitMark | awaitBitSpace | awaitStop | done | failed => decide

/-- No rule leads back to Idle (spec/42_decoder.md R216 to R221). -/
theorem rxStep_ne_idle {d : DecState} (h : d.st ≠ .idle) (p : Proto) (ev : DecEvent) : (rxStep p d ev).st ≠ .idle := by
  obtain ⟨st, i, acc, fail, warn⟩ := d
  cases st with
  | idle => exact absurd rfl h
  | done | failed => exact h
  | awaitHeaderMark | awaitHeaderSpace | awaitBitMark | awaitBitSpace | awaitStop =>
    simp only [rxStep, stepHeaderMark, stepHeaderSpace, stepBitMark, stepBitSpace, stepStop, acceptBit]
    (repeat' split) <;> simp

theorem feedFrame_ne_idle {d : DecState} (h : d.st ≠ .idle) (p : Proto) (b : List PulseEvent) :
    (feedFrame p d b).st ≠ .idle := by
  induction b generalizing d with
  | nil => exact h
  | cons e es ih =>
    rw [feedFrame]
    split
    · exact h
    · exact ih (rxStep_ne_idle h p _)

/-- The end of the input ends every decode (spec/42_decoder.md R224). -/
theorem rxStep_endOfInput_terminal {d : DecState} (h : d.st ≠ .idle) (p : Proto) :
    (rxStep p d .endOfInput).st.terminal = true := by
  obtain ⟨st, i, acc, fail, warn⟩ := d
  cases st with
  | idle => exact absurd rfl h
  | awaitHeaderMark | awaitHeaderSpace | awaitBitMark | awaitBitSpace | awaitStop | done | failed => rfl

theorem decodeFrame_terminal (p : Proto) (b : List PulseEvent) : (decodeFrame p b).st.terminal = true := by
  simp only [decodeFrame]
  split
  · assumption
  · exact rxStep_endOfInput_terminal (feedFrame_ne_idle (by decide) p b) p

/-- The intervals after the first terminal state are discarded. -/
theorem decodeFrame_append {p : Proto} {b : List PulseEvent} (h : (feedFrame p .armed b).st.terminal = true)
    (c : List PulseEvent) : decodeFrame p (b ++ c) = feedFrame p .armed b := by
  simp only [decodeFrame, feedFrame_append, feedFrame_terminal h, h, if_true]

/-- Settles O39: the end of the input ends a decode that no interval has ended, and a terminal decoder takes no more. -/
theorem decodeFrameEnds : Obligations.DecodeFrameEnds :=
  ⟨fun p b => (DecSt.terminal_iff _).mp (decodeFrame_terminal p b),
    fun _ _ c h => decodeFrame_append ((DecSt.terminal_iff _).mpr h) c⟩

end Sys2Proof.Machine
end

section
/-! PROOFS. Whole transmissions seen by the framer (spec/43_gap_framer.md R264, R265): edges no further apart than the
threshold leave their intervals in the buffer, and the silence close decodes them. -/

namespace Sys2Proof.Machine

open Sys2Proof.Claims

/-! ## Edges of a list of events -/

theorem edgesOf_length (ts : Word) (f : List PulseEvent) : (edgesOf ts f).1.length = f.length := by
  induction f generalizing ts with
  | nil => rfl
  | cons e f ih => exact congrArg (· + 1) (ih (ts + e.dur))

/-- The last event starts when the events before it end. -/
theorem edgesOf_concat_edges (ts : Word) (f : List PulseEvent) (e : PulseEvent) :
    (edgesOf ts (f ++ [e])).1 = (edgesOf ts f).1 ++ [⟨e.pol, (edgesOf ts f).2⟩] := by
  induction f generalizing ts with
  | nil => rfl
  | cons e' f ih => exact congrArg (_ :: ·) (ih (ts + e'.dur))

theorem edgesOf_concat_end (ts : Word) (f : List PulseEvent) (e : PulseEvent) :
    (edgesOf ts (f ++ [e])).2 = (edgesOf ts f).2 + e.dur := by
  induction f generalizing ts with
  | nil => rfl
  | cons e' f ih => exact ih (ts + e'.dur)

theorem takeEdges_concat (es : List EdgeEvent) (e : EdgeEvent) (s : State) :
    takeEdges (es ++ [e]) s = edgeTaken Config.frameBufDepth e (takeEdges es s) :=
  List.foldl_concat ..

/-! ## A transmission from a closed frame to the silence after it -/

/-- The edges at the start of each event of `f` and of the event after it leave the events of `f` in the buffer:
induction on `f` from its end. -/
theorem takeEdges_edgesOf {s : State} {f : List PulseEvent} (hlast : s.gap.haveLast = false) (hbuf : s.gap.buf = [])
    (hshort : ∀ e ∈ f, e.dur.toNat ≤ s.gap.thr.toNat) (hfit : f.length ≤ Config.frameBufDepth) (ts : Word)
    (after : PulseEvent) :
    takeEdges (edgesOf ts (f ++ [after])).1 s =
      { s with gap :=
        { s.gap with
          q := s.gap.q.drop (f.length + 1)
          haveLast := true
          lastTs := (edgesOf ts f).2
          lastPol := after.pol
          buf := f } } := by
  induction f using List.reverseRecOn generalizing after with
  | nil =>
    exact (edgeTaken_opens hlast).trans (by simp only [hbuf, List.length_nil, Nat.zero_add, List.drop_one, edgesOf])
  | append_singleton f e ih =>
    obtain ⟨hshort, hlong⟩ := List.forall_mem_append.mp hshort
    rw [List.length_append, List.length_singleton] at hfit
    have hdt : (edgesOf ts (f ++ [e])).2 - (edgesOf ts f).2 = e.dur := by
      rw [edgesOf_concat_end, add_sub_cancel_left]
    rw [edgesOf_concat_edges, takeEdges_concat, ih hshort (Nat.le_of_succ_le hfit), edgeTaken_buffers rfl]
    · simp only [hdt, List.tail_drop, List.length_append, List.length_singleton]
    · exact Eq.trans_le (congrArg BitVec.toNat hdt) (hlong e (List.mem_singleton_self e))
    · exact hfit

theorem silenceClosed_latches {s : State} (hbuf : s.gap.buf ≠ []) (hresult : s.gap.result = none) :
    silenceClosed s =
      { s with
        host := s.host.raiseIrq .gapResult
        gap := { s.gap with
          haveLast := false
          buf := []
          bufOvf := false
          result := some (gapResultOf s.gap.proto (decodeFrame s.gap.proto s.gap.buf) s.gap.bufOvf) } } := by
  rw [silenceClosed, closeFrame_latches hbuf hresult]

/-- A frame that carries `x` up to its StopMark decodes to `x`, whatever follows. -/
theorem decodeFrame_value (p : Proto) (x : BitVec 48) (rest : List PulseEvent) :
    decodeFrame p (valueEvents p x ++ symbolEvent p (.mark, .stopMark) :: rest) = .decoded p x := by
  have hfeed : feedFrame p .armed (valueEvents p x ++ [symbolEvent p (.mark, .stopMark)]) = .decoded p x := by
    have hawaits : (DecState.receiving p x (nbits p)).st.terminal = false := by
      rw [DecState.receiving, if_pos rfl]; rfl
    rw [feedFrame_append, feedFrame_valueEvents, feedFrame_cons hawaits, feedFrame_nil]
    exact rxStep_stopMark p x
  rw [List.append_cons, decodeFrame_append (by rw [hfeed]; rfl), hfeed]

/-- The result that a frame carrying `x` latches (spec/43_gap_framer.md R261). -/
def GapResult.decoded (p : Proto) (x : BitVec 48) : GapResult where
  failed := false
  frameOvf := false
  fail := .none
  index := nbits p
  stopWarn := false
  data0 := resultData0 p (.decoded p x)
  data1 := resultData1 p (.decoded p x)

/-- Silence after a frame that carries `x` latches `x` (spec/43_gap_framer.md R258, R261). -/
theorem silenceClosed_value {s : State} {p : Proto} {x : BitVec 48} {rest : List PulseEvent}
    (hbuf : s.gap.buf = valueEvents p x ++ symbolEvent p (.mark, .stopMark) :: rest) (hproto : s.gap.proto = p)
    (hovf : s.gap.bufOvf = false) (hresult : s.gap.result = none) :
    (silenceClosed s).gap.result = some (.decoded p x) ∧
      (silenceClosed s).host = s.host.raiseIrq .gapResult ∧ (silenceClosed s).gap.haveLast = false := by
  have hne : s.gap.buf ≠ [] := by rw [hbuf]; exact List.append_ne_nil_of_right_ne_nil _ (List.cons_ne_nil _ _)
  rw [silenceClosed_latches hne hresult, hproto, hovf, hbuf, decodeFrame_value]
  exact ⟨rfl, rfl, rfl⟩

/-- A transmission that carries `x`, and the silence after it. -/
theorem silenceClosed_takeEdges {s : State} {f rest : List PulseEvent} {p : Proto} {x : BitVec 48}
    (hf : f = valueEvents p x ++ symbolEvent p (.mark, .stopMark) :: rest) (hproto : s.gap.proto = p)
    (hlast : s.gap.haveLast = false) (hbuf : s.gap.buf = []) (hovf : s.gap.bufOvf = false)
    (hresult : s.gap.result = none) (hshort : ∀ e ∈ f, e.dur.toNat ≤ s.gap.thr.toNat)
    (hfit : f.length ≤ Config.frameBufDepth) (ts : Word) (after : PulseEvent) :
    (takeEdges (edgesOf ts (f ++ [after])).1 s).gap.buf = f ∧
      (silenceClosed (takeEdges (edgesOf ts (f ++ [after])).1 s)).gap.result = some (.decoded p x) ∧
      (silenceClosed (takeEdges (edgesOf ts (f ++ [after])).1 s)).host = s.host.raiseIrq .gapResult ∧
      (silenceClosed (takeEdges (edgesOf ts (f ++ [after])).1 s)).gap.haveLast = false := by
  rw [takeEdges_edgesOf hlast hbuf hshort hfit]
  exact ⟨rfl, silenceClosed_value hf hproto hovf hresult⟩

/-! ## NEC -/

/-- Settles O40: the edge that ends the trailing Mark is the edge of one event more. -/
theorem gapFramerDecodesNec : Obligations.GapFramerDecodesNec := by
  intro s v ts hproto hlast hbuf hovf hresult hthr edges
  have hedges : edges = (edgesOf ts (encodeNEC v ++ [⟨.space, 0#32⟩])).1 :=
    (edgesOf_concat_edges ts (encodeNEC v) ⟨.space, 0#32⟩).symm
  have hlength : (encodeNEC v).length = 67 := frame_length .nec v
  have hshort : ∀ e ∈ encodeNEC v, e.dur.toNat ≤ s.gap.thr.toNat := fun e he =>
    Nat.le_trans (frame_dur .nec v e he) hthr
  have hfit : (encodeNEC v).length ≤ Config.frameBufDepth := hlength ▸ Nat.le_add_left_of_le (by decide)
  obtain ⟨hframe, hlatched, hhost, hclosed⟩ :=
    silenceClosed_takeEdges (encodeNEC_eq v) hproto hlast hbuf hovf hresult hshort hfit ts ⟨.space, 0#32⟩
  rw [hedges]
  refine ⟨?_, hframe, hlatched.trans ?_, hhost, hclosed⟩
  · rw [edgesOf_length, List.length_append, hlength]; rfl
  · rw [GapResult.decoded, resultData0_nec_decoded, resultData1_nec]; rfl

/-! ## R05D -/

theorem symbolDuration_r05d_le (k : SymbolKind) : (symbolDuration .r05d k).toNat ≤ 5220 := by
  cases k with
  | headerMark | headerSpace | bit0Mark | bit0Space | bit1Mark | bit1Space | stopMark | stopSpace => decide

theorem subFrame_dur (a b c : Byte) : ∀ e ∈ subFrame a b c, e.dur.toNat ≤ 5220 :=
  List.forall_mem_map.mpr fun x _ => symbolDuration_r05d_le x.2

theorem encodeR05D_eq (a b c : Byte) : encodeR05D a b c = subFrame a b c ++ subFrame a b c := rfl

/-- The events of an R05D transmission before the final StopSpace, which ends with no edge
(spec/43_gap_framer.md R265). -/
def edgedR05D (a b c : Byte) : List PulseEvent :=
  valueEvents .r05d (subFrameWord a b c) ++ symbolEvent .r05d (.mark, .stopMark) ::
    symbolEvent .r05d (.space, .stopSpace) ::
      (valueEvents .r05d (subFrameWord a b c) ++ [symbolEvent .r05d (.mark, .stopMark)])

theorem edgedR05D_append (a b c : Byte) :
    edgedR05D a b c ++ [symbolEvent .r05d (.space, .stopSpace)] = encodeR05D a b c := by
  rw [encodeR05D_eq, subFrame_eq, edgedR05D]
  simp only [List.append_assoc, List.cons_append, List.nil_append]

theorem edgedR05D_length (a b c : Byte) : (edgedR05D a b c).length = 199 := by
  have h := congrArg List.length (edgedR05D_append a b c)
  rw [encodeR05D_eq, List.length_append, List.length_append, subFrame_length] at h
  exact Nat.succ.inj h

theorem edgedR05D_dur (a b c : Byte) : ∀ e ∈ edgedR05D a b c, e.dur.toNat ≤ 5220 := by
  have h : ∀ e ∈ encodeR05D a b c, e.dur.toNat ≤ 5220 :=
    List.forall_mem_append.mpr ⟨subFrame_dur a b c, subFrame_dur a b c⟩
  rw [← edgedR05D_append] at h
  exact (List.forall_mem_append.mp h).1

/-- Settles O41: the first sub-frame ends the decode, and the other 100 intervals are discarded. -/
theorem gapFramerDecodesR05d : Obligations.GapFramerDecodesR05d := by
  intro s a b c ts hproto hlast hbuf hovf hresult hthr edges
  have hedges : edges = (edgesOf ts (edgedR05D a b c ++ [symbolEvent .r05d (.space, .stopSpace)])).1 := by
    rw [edgedR05D_append]
  have hlength := edgedR05D_length a b c
  have hshort : ∀ e ∈ edgedR05D a b c, e.dur.toNat ≤ s.gap.thr.toNat := fun e he =>
    Nat.le_trans (edgedR05D_dur a b c e he) hthr
  have hfit : (edgedR05D a b c).length ≤ Config.frameBufDepth := hlength ▸ Nat.le_add_left ..
  obtain ⟨hframe, hlatched, hhost, -⟩ :=
    silenceClosed_takeEdges rfl hproto hlast hbuf hovf hresult hshort hfit ts (symbolEvent .r05d (.space, .stopSpace))
  rw [hedges, ← edgedR05D_append, List.take_left' hlength]
  refine ⟨?_, hframe, hlatched.trans ?_, hhost⟩
  · rw [edgesOf_length, List.length_append, hlength]; rfl
  · rw [GapResult.decoded, resultData0_r05d (received_subFrameWord a b c), resultData1_r05d_decoded]; rfl

end Sys2Proof.Machine
end

section
/-! PROOFS. The TA unit's operations (spec/44_trace_analyzer.md R294 to R300, R306), one equation per case: TA_START,
where a finished raw run goes, a sample, a trace byte, the end of a trace, and the step that pushes a record. -/

namespace Sys2Proof.Machine

/-! ## TA_START -/

/-- Settles O42: TPROTO is checked first, then the unit; one that is idle starts with its configuration copied. -/
theorem taStartCopiesConfiguration : Obligations.TaStartCopiesConfiguration := by
  intro p k s hr
  have hexec : exec (.taStart p k) s =
      runCommand 0x40#8
        (withProto (tproto s.host) fun proto =>
          if s.ta.busy then .error .busy else .ok { s with ta := .start proto s.host }) s := rfl
  rw [hexec]
  refine ⟨commandIs_of_decodeOp (fun _ _ => rfl) hr, fun hp => protoCommand_badProto hr hp, fun hp hbusy => ?_,
    fun proto hproto hidle => ?_⟩
  · obtain ⟨proto, -, hproto⟩ := ofField_isSome hp
    rw [hproto]
    exact protoCommand_of_error hr (if_pos hbusy)
  · rw [← hproto]
    exact protoCommand_of_ok hr (if_neg (Bool.eq_false_iff.mp hidle))

/-! ## A finished raw run -/

section
variable {t : TaUnit} {rp : Polarity} {rc : Word}

theorem isGlitch_iff : isGlitch t rc = true ↔ rc.toNat < t.cMin.toNat := decide_eq_true_iff

theorem isGlitch_eq_false_iff : isGlitch t rc = false ↔ t.cMin.toNat ≤ rc.toNat :=
  decide_eq_false_iff_not.trans Nat.not_lt

theorem TaUnit.finishRaw_leadingGlitch (hcur : t.curValid = false) (hshort : rc.toNat < t.cMin.toNat) :
    t.finishRaw rp rc = { t with preCnt := satAdd t.preCnt rc } := by
  rw [TaUnit.finishRaw, hcur, isGlitch_iff.mpr hshort]; rfl

theorem TaUnit.finishRaw_firstRun (hcur : t.curValid = false) (hlong : t.cMin.toNat ≤ rc.toNat) :
    t.finishRaw rp rc =
      { t with curValid := true, curPol := rp, curCnt := satAdd rc t.preCnt, preCnt := 0#32 } := by
  rw [TaUnit.finishRaw, hcur, isGlitch_eq_false_iff.mpr hlong]; rfl

theorem TaUnit.finishRaw_merged (hcur : t.curValid = true) (h : rc.toNat < t.cMin.toNat ∨ rp = t.curPol) :
    t.finishRaw rp rc = { t with curCnt := satAdd t.curCnt rc } := by
  have hmerged : (isGlitch t rc || decide (rp = t.curPol)) = true := by
    rw [Bool.or_eq_true, isGlitch_iff, decide_eq_true_iff]; exact h
  rw [TaUnit.finishRaw, hcur, hmerged]; rfl

theorem TaUnit.finishRaw_nextRun (hcur : t.curValid = true) (hlong : t.cMin.toNat ≤ rc.toNat)
    (hpol : rp ≠ t.curPol) :
    t.finishRaw rp rc = { t.formRecord t.curPol t.curCnt with curPol := rp, curCnt := rc } := by
  rw [TaUnit.finishRaw, hcur, isGlitch_eq_false_iff.mpr hlong, decide_eq_false hpol]; rfl

end

/-- Settles O44: one equation of `finishRaw` per case. -/
theorem glitchMerge : Obligations.GlitchMerge := fun _ _ _ =>
  ⟨TaUnit.finishRaw_leadingGlitch, TaUnit.finishRaw_firstRun, TaUnit.finishRaw_merged, TaUnit.finishRaw_nextRun⟩

/-! ## A sample -/

theorem samplePol_eq (mark : Bool) (data : Byte) :
    samplePol mark data = if data.getLsbD 0 = mark then .mark else .space := by
  simp only [samplePol, Polarity.ofBit, decide_eq_true_eq]

section
variable {t : TaUnit} {p : Polarity} {data : Byte}

theorem TaUnit.sampleIn_first (hraw : t.rawValid = false) :
    t.sampleIn p = { t with rawValid := true, rawPol := p, rawCnt := 1#32 } := by
  rw [TaUnit.sampleIn, hraw]; rfl

theorem TaUnit.sampleIn_same (hraw : t.rawValid = true) (hpol : p = t.rawPol) :
    t.sampleIn p = { t with rawCnt := satAdd t.rawCnt 1#32 } := by
  rw [TaUnit.sampleIn, hraw, if_pos hpol]; rfl

theorem TaUnit.sampleIn_other (hraw : t.rawValid = true) (hpol : p ≠ t.rawPol) :
    t.sampleIn p = { t.finishRaw t.rawPol t.rawCnt with rawPol := p, rawCnt := 1#32 } := by
  rw [TaUnit.sampleIn, hraw, if_neg hpol]; rfl

theorem TaUnit.byteIn_seek (hskip : 0 < t.skip.toNat) : t.byteIn data = { t with skip := t.skip - 1#16 } :=
  if_pos (BitVec.toNat_ne_iff_ne.mp hskip.ne')

theorem TaUnit.byteIn_sample (hskip : t.skip.toNat = 0) : t.byteIn data = t.sampleIn (samplePol t.cMark data) :=
  if_neg (not_not.mpr (BitVec.eq_of_toNat_eq hskip))

end

/-! ## A token -/

theorem trcPop_taken {s : State} {w : BitVec 9} {rest : List (BitVec 9)} (hr : s.env.rst = false)
    (hbusy : s.ta.busy = true) (hout : s.ta.out = []) (htrc : s.env.trcIn = w :: rest) (after : TaUnit) :
    trcPop w after s = .next { s with ta := after, env := { s.env with trcIn := rest } } := by
  rw [trcPop, TaUnit.reading, hbusy, hout, htrc, List.head?_cons, decide_eq_true rfl]
  exact unitStep_true hr _

/-- Settles O43: the token is popped, and the unit is what `byteIn` makes of it. -/
theorem traceByteStep : Obligations.TraceByteStep := by
  intro s data rest hr popped pol hbusy hout htrc
  have hexec {t : TaUnit} (h : s.ta.byteIn data = t) : exec (.trcByte data) s = .next (popped t) :=
    h ▸ trcPop_taken hr hbusy hout htrc _
  have hsample (hskip : s.ta.skip.toNat = 0) : s.ta.byteIn data = s.ta.sampleIn pol :=
    (TaUnit.byteIn_sample hskip).trans (congrArg s.ta.sampleIn (samplePol_eq ..))
  refine ⟨fun hskip => ?seek, fun hskip hraw => ?first, fun hskip hraw hsame => ?same,
    fun hskip hraw hother => ?other⟩
  case seek => exact hexec (TaUnit.byteIn_seek hskip)
  case first => exact hexec ((hsample hskip).trans (TaUnit.sampleIn_first hraw))
  case same => exact hexec ((hsample hskip).trans (TaUnit.sampleIn_same hraw hsame))
  case other => exact hexec ((hsample hskip).trans (TaUnit.sampleIn_other hraw hother))

/-! ## The end of a trace -/

/-- The merged run in progress forms its record (spec/44_trace_analyzer.md R298). -/
theorem TaUnit.flushCur_eq (t : TaUnit) :
    t.flushCur =
      { t with out := t.out ++ (if t.curValid then [recordOf t t.curPol t.curCnt] else []), curValid := false } := by
  unfold TaUnit.flushCur
  cases hcur : t.curValid with
  | true => rfl
  | false => rw [if_neg Bool.false_ne_true, if_neg Bool.false_ne_true, List.append_nil, ← hcur]

theorem TaUnit.endOfTrace_eq (t : TaUnit) :
    t.endOfTrace =
      { t.flushRaw with
        out := t.flushRaw.out ++
          (if t.flushRaw.curValid then [recordOf t.flushRaw t.flushRaw.curPol t.flushRaw.curCnt] else []) ++ [.fin]
        curValid := false
        preCnt := 0#32 } := by
  rw [TaUnit.endOfTrace, TaUnit.flushCur_eq]

/-- Settles O45: the token is popped, and the unit is what `endOfTrace` makes of it. -/
theorem traceEndStep : Obligations.TraceEndStep := by
  intro s data rest hr hbusy hout htrc raw
  calc exec (.trcEnd data) s = trcPop (trcWord 1#1 data) s.ta.endOfTrace s := rfl
    _ = _ := by rw [trcPop_taken hr hbusy hout htrc, TaUnit.endOfTrace_eq]; rfl

/-! ## Pushing a record -/

theorem recPush_taken {s : State} {r : Record} {rest : List Record} (hr : s.env.rst = false)
    (hready : s.env.recReady = true) (hout : s.ta.out = r :: rest) :
    recPush r s = .next (recAccepted r s) := by
  rw [recPush, hready, hout, List.head?_cons, decide_eq_true rfl]
  exact unitStep_true hr _

/-- Settles O48: the oldest record is pushed, and its kind decides what is counted. -/
theorem emitStepPushesRecord : Obligations.EmitStepPushesRecord := by
  intro s r rest hr hready hout runs sent
  have hexec : exec r.instr s = .next (recAccepted r s) :=
    (exec_record r s).trans (recPush_taken hr hready hout)
  obtain rfl : s.ta.out.tail = rest := by rw [hout]; rfl
  refine ⟨?recon, ?anomaly, ?fin⟩
  case recon => rintro pol m n rfl; exact hexec
  case anomaly => rintro pol m n rfl; exact hexec
  case fin => rintro rfl; exact hexec

end Sys2Proof.Machine
end

section
/-! PROOFS. The record of a merged run (spec/44_trace_analyzer.md R296, R297, R308): a distance to the nearest nominal
is within a bound exactly when some nominal lies within it. -/

namespace Sys2Proof.Machine

/-! ## RECON or ANOMALY -/

/-- The duration of a run of `n` samples in µs (spec/44_trace_analyzer.md R296). -/
abbrev TaUnit.runUs (t : TaUnit) (n : Word) : Nat := sampleUs t.cScale.toNat n.toNat

/-- The nominal nearest to a run of `n` samples (spec/44_trace_analyzer.md R296). -/
abbrev TaUnit.runNominal (t : TaUnit) (n : Word) : Nat := nearestSymbol (t.runUs n) t.cProto

section
variable {t : TaUnit} {pol : Polarity} {n : Word}

theorem recordOf_of_exceeds (h : t.cMax.toNat < absDiff (t.runUs n) (t.runNominal n)) :
    recordOf t pol n = .anomaly pol (measuredField (t.runUs n)) (BitVec.ofNat 16 (t.runNominal n)) :=
  if_pos h

theorem recordOf_of_within (h : absDiff (t.runUs n) (t.runNominal n) ≤ t.cMax.toNat) :
    recordOf t pol n = .recon pol (measuredField (t.runUs n)) (BitVec.ofNat 16 (t.runNominal n)) :=
  if_neg (Nat.not_lt.mpr h)

/-- The type field of a record is 1 for ANOMALY and 0 for RECON (spec/30_encoding.md R114). -/
theorem recordOf_word :
    (recordOf t pol n).word =
      recWord (if t.cMax.toNat < absDiff (t.runUs n) (t.runNominal n) then 1#2 else 0#2) pol
        (measuredField (t.runUs n)) (BitVec.ofNat 16 (t.runNominal n)) := by
  by_cases h : t.cMax.toNat < absDiff (t.runUs n) (t.runNominal n)
  · rw [recordOf_of_exceeds h, if_pos h]; rfl
  · rw [recordOf_of_within (Nat.not_lt.mp h), if_neg h]; rfl

theorem recordOf_recon_iff :
    (∃ m k, recordOf t pol n = .recon pol m k) ↔ absDiff (t.runUs n) (t.runNominal n) ≤ t.cMax.toNat := by
  refine ⟨fun ⟨m, k, hrecon⟩ => Nat.not_lt.mp fun h => ?_, fun h => ⟨_, _, recordOf_of_within h⟩⟩
  cases (recordOf_of_exceeds h).symm.trans hrecon

theorem recordOf_anomaly_iff :
    (∃ m k, recordOf t pol n = .anomaly pol m k) ↔ t.cMax.toNat < absDiff (t.runUs n) (t.runNominal n) := by
  refine ⟨fun ⟨m, k, hanomaly⟩ => Nat.not_le.mp fun h => ?_, fun h => ⟨_, _, recordOf_of_exceeds h⟩⟩
  cases (recordOf_of_within h).symm.trans hanomaly

end

/-- Settles O46: the word of `recordOf` at the nearest nominal. -/
theorem recordFormation : Obligations.RecordFormation := fun _ _ _ =>
  ⟨rfl, _, nearest_symbols _ _, recordOf_word⟩

/-! ## The ranges of RECON -/

/-- The nearest nominal is within a bound exactly when some nominal is. -/
theorem absDiff_nearestSymbol_le_iff {d bound : Nat} {p : Proto} :
    absDiff d (nearestSymbol d p) ≤ bound ↔ ∃ c ∈ symbols p, absDiff d c ≤ bound := by
  obtain ⟨j, hj, hleast, -⟩ := nearest_firstClosest (nearest_symbols d p)
  refine ⟨fun h => ⟨_, List.mem_of_getElem? hj, h⟩, ?_⟩
  rintro ⟨c, hc, hle⟩
  obtain ⟨i, hi⟩ := List.getElem?_of_mem hc
  exact (hleast i c hi).trans hle

theorem absDiff_le_iff {a b bound : Nat} : absDiff a b ≤ bound ↔ b ≤ a + bound ∧ a ≤ b + bound := by
  unfold absDiff; split <;> omega

/-- Settles O47: each nominal gives the range of half-width 500 around it; those of 4400 and 5220 µs overlap. -/
theorem anomalyRanges : Obligations.AnomalyRanges := by
  intro t pol n hmax u ranges
  have hranges : absDiff u (t.runNominal n) ≤ t.cMax.toNat ↔ ∃ r ∈ ranges, r.1 ≤ u ∧ u ≤ r.2 := by
    have hbound : t.cMax.toNat = 500 := congrArg BitVec.toNat hmax
    rw [hbound]
    refine absDiff_nearestSymbol_le_iff.trans ?_
    simp only [absDiff_le_iff, ranges]
    clear_value u
    cases t.cProto with
    | nec =>
      have hsymbols : symbols .nec = [9000, 4500, 560, 1690] := rfl
      simp only [hsymbols, List.exists_mem_cons_iff, List.not_mem_nil, false_and, exists_false, or_false]
      omega
    | r05d =>
      have hsymbols : symbols .r05d = [4400, 540, 1620, 5220] := rfl
      simp only [hsymbols, List.exists_mem_cons_iff, List.not_mem_nil, false_and, exists_false, or_false]
      omega
  exact ⟨recordOf_recon_iff.trans hranges,
    recordOf_anomaly_iff.trans (Nat.not_le.symm.trans (not_congr hranges))⟩

end Sys2Proof.Machine
end

section
/-! PROOFS. A trace of two genuine runs (spec/44_trace_analyzer.md R309): the seek, a list of samples of one polarity,
and the flushes at the end. -/

namespace Sys2Proof.Machine

/-! ## The bytes of a trace in order -/

/-- The unit after these trace bytes. -/
def TaUnit.bytesIn (bs : List Byte) (t : TaUnit) : TaUnit := bs.foldl (fun u b => u.byteIn b) t

/-- The unit amid a raw run of `n` samples (spec/44_trace_analyzer.md R294). -/
def TaUnit.amidRaw (p : Polarity) (n : Nat) (t : TaUnit) : TaUnit :=
  { t with rawValid := true, rawPol := p, rawCnt := BitVec.ofNat 32 n }

section
variable {t u : TaUnit} {p : Polarity} {bs : List Byte}

theorem TaUnit.bytesIn_cons (b : Byte) : t.bytesIn (b :: bs) = (t.byteIn b).bytesIn bs := rfl

theorem TaUnit.bytesIn_append (cs : List Byte) : t.bytesIn (bs ++ cs) = (t.bytesIn bs).bytesIn cs :=
  List.foldl_append

/-- The seek bytes are skipped, whatever they are (spec/44_trace_analyzer.md R293). -/
theorem TaUnit.bytesIn_seek (h : bs.length = t.skip.toNat) : t.bytesIn bs = { t with skip := 0#16 } := by
  induction bs generalizing t with
  | nil =>
    have hskip : t.skip = 0#16 := BitVec.eq_of_toNat_eq h.symm
    rw [← hskip]; rfl
  | cons b bs ih =>
    rw [List.length_cons] at h
    have hlength : bs.length = (t.skip - 1#16).toNat := by bv_omega
    rw [TaUnit.bytesIn_cons, TaUnit.byteIn_seek (by omega), ih hlength]

theorem TaUnit.sampleIn_amidRaw_same {n : Nat} (hfit : n + 1 < 2 ^ 32) :
    (t.amidRaw p n).sampleIn p = t.amidRaw p (n + 1) := by
  have hsum : satAdd (BitVec.ofNat 32 n) 1#32 = BitVec.ofNat 32 (n + 1) := by
    rw [satAdd_of_lt (by bv_omega), BitVec.ofNat_add]
  calc (t.amidRaw p n).sampleIn p = { t.amidRaw p n with rawCnt := satAdd (BitVec.ofNat 32 n) 1#32 } :=
        TaUnit.sampleIn_same rfl rfl
    _ = t.amidRaw p (n + 1) := by rw [hsum]; rfl

/-- Samples of the raw run's polarity lengthen it (spec/44_trace_analyzer.md R294). -/
theorem TaUnit.bytesIn_amidRaw {n : Nat} (hskip : t.skip = 0#16) (hpol : ∀ b ∈ bs, samplePol t.cMark b = p)
    (hfit : n + bs.length < 2 ^ 32) : (t.amidRaw p n).bytesIn bs = t.amidRaw p (n + bs.length) := by
  induction bs generalizing n with
  | nil => rfl
  | cons b bs ih =>
    obtain ⟨hb, hbs⟩ := List.forall_mem_cons.mp hpol
    rw [List.length_cons, Nat.add_comm bs.length, ← Nat.add_assoc] at hfit ⊢
    have hbyte : (t.amidRaw p n).byteIn b = t.amidRaw p (n + 1) := by
      calc (t.amidRaw p n).byteIn b = (t.amidRaw p n).sampleIn (samplePol t.cMark b) :=
            TaUnit.byteIn_sample (congrArg BitVec.toNat hskip)
        _ = t.amidRaw p (n + 1) := by rw [hb, TaUnit.sampleIn_amidRaw_same (by omega)]
    rw [TaUnit.bytesIn_cons, hbyte, ih hbs hfit]

/-- Samples of one polarity, the first of which starts a raw run, in a unit `u` that the start may have changed. -/
theorem TaUnit.bytesIn_run (hfirst : t.sampleIn p = u.amidRaw p 1) (hskip : t.skip = 0#16) (huskip : u.skip = 0#16)
    (hmark : u.cMark = t.cMark) (hpol : ∀ b ∈ bs, samplePol t.cMark b = p) (hne : 0 < bs.length)
    (hfit : bs.length < 2 ^ 32) : t.bytesIn bs = u.amidRaw p bs.length := by
  cases bs with
  | nil => exact absurd hne (Nat.lt_irrefl 0)
  | cons b bs =>
    obtain ⟨hb, hbs⟩ := List.forall_mem_cons.mp hpol
    rw [List.length_cons, Nat.add_comm] at hfit ⊢
    rw [TaUnit.bytesIn_cons, TaUnit.byteIn_sample (congrArg BitVec.toNat hskip), hb, hfirst]
    exact TaUnit.bytesIn_amidRaw huskip (hmark ▸ hbs) hfit

/-! ## Two runs -/

/-- The unit with a genuine merged run of `n` samples (spec/44_trace_analyzer.md R295). -/
def TaUnit.withCur (p : Polarity) (n : Nat) (t : TaUnit) : TaUnit :=
  { t with curValid := true, curPol := p, curCnt := BitVec.ofNat 32 n }

theorem toNat_ofNat_of_lt {n : Nat} (h : n < 2 ^ 32) : (BitVec.ofNat 32 n).toNat = n :=
  (BitVec.toNat_ofNat ..).trans (Nat.mod_eq_of_lt h)

/-- A sample of the other polarity after a first genuine run without leading glitches: that run becomes the merged run.
-/
theorem TaUnit.sampleIn_after_firstRun {q : Polarity} {n : Nat} (hcur : t.curValid = false) (hpre : t.preCnt = 0#32)
    (hlong : t.cMin.toNat ≤ n) (hfit : n < 2 ^ 32) (hpol : p ≠ q) :
    (t.amidRaw q n).sampleIn p = (t.withCur q n).amidRaw p 1 := by
  have hsum : satAdd (BitVec.ofNat 32 n) 0#32 = BitVec.ofNat 32 n := by
    rw [satAdd_of_lt (by rwa [toNat_ofNat_of_lt hfit]), BitVec.add_zero]
  have hfinish : (t.amidRaw q n).finishRaw q (BitVec.ofNat 32 n) = (t.withCur q n).amidRaw q n := by
    rw [TaUnit.finishRaw_firstRun (t := t.amidRaw q n) hcur (by rwa [toNat_ofNat_of_lt hfit])]
    simp only [TaUnit.amidRaw, TaUnit.withCur, hpre, hsum]
  calc (t.amidRaw q n).sampleIn p =
        { (t.amidRaw q n).finishRaw q (BitVec.ofNat 32 n) with rawPol := p, rawCnt := 1#32 } :=
        TaUnit.sampleIn_other rfl hpol
    _ = (t.withCur q n).amidRaw p 1 := by rw [hfinish]; rfl

/-- The end of a trace amid a genuine run after a merged run of the other polarity. -/
theorem TaUnit.endOfTrace_amidRaw_out {q : Polarity} {m n : Nat} (hlong : t.cMin.toNat ≤ n) (hfit : n < 2 ^ 32)
    (hpol : p ≠ q) :
    ((t.withCur q m).amidRaw p n).endOfTrace.out =
      t.out ++ [recordOf t q (BitVec.ofNat 32 m)] ++ [recordOf t p (BitVec.ofNat 32 n)] ++ [.fin] := by
  have hflush : ((t.withCur q m).amidRaw p n).flushRaw =
      { ((t.withCur q m).amidRaw p n).finishRaw p (BitVec.ofNat 32 n) with rawValid := false } := rfl
  rw [TaUnit.finishRaw_nextRun rfl (by rwa [toNat_ofNat_of_lt hfit]) hpol] at hflush
  rw [TaUnit.endOfTrace_eq, hflush]; rfl

end

theorem samplePol_mark {mark : Bool} {b : Byte} (h : b.getLsbD 0 = mark) : samplePol mark b = .mark :=
  (samplePol_eq mark b).trans (if_pos h)

theorem samplePol_space {mark : Bool} {b : Byte} (h : b.getLsbD 0 ≠ mark) : samplePol mark b = .space :=
  (samplePol_eq mark b).trans (if_neg h)

/-- A Mark run and a Space run, both genuine, then the end of the trace: one record for each, and END. -/
theorem TaUnit.endOfTrace_twoRuns_out {t : TaUnit} {marks spaces : List Byte} (hskip : t.skip = 0#16)
    (hraw : t.rawValid = false) (hcur : t.curValid = false) (hpre : t.preCnt = 0#32)
    (hmarks : ∀ b ∈ marks, b.getLsbD 0 = t.cMark) (hspaces : ∀ b ∈ spaces, b.getLsbD 0 ≠ t.cMark)
    (hmarkNe : 0 < marks.length) (hmarkMin : t.cMin.toNat ≤ marks.length) (hmarkFit : marks.length < 2 ^ 32)
    (hspaceNe : 0 < spaces.length) (hspaceMin : t.cMin.toNat ≤ spaces.length) (hspaceFit : spaces.length < 2 ^ 32) :
    (t.bytesIn (marks ++ spaces)).endOfTrace.out =
      t.out ++ [recordOf t .mark (BitVec.ofNat 32 marks.length)] ++
        [recordOf t .space (BitVec.ofNat 32 spaces.length)] ++ [.fin] := by
  have hmark : t.bytesIn marks = t.amidRaw .mark marks.length :=
    TaUnit.bytesIn_run (TaUnit.sampleIn_first hraw) hskip hskip rfl (fun b hb => samplePol_mark (hmarks b hb)) hmarkNe
      hmarkFit
  have hspace : (t.amidRaw .mark marks.length).bytesIn spaces =
      (t.withCur .mark marks.length).amidRaw .space spaces.length :=
    TaUnit.bytesIn_run (TaUnit.sampleIn_after_firstRun hcur hpre hmarkMin hmarkFit (by decide)) hskip hskip rfl
      (fun b hb => samplePol_space (hspaces b hb)) hspaceNe hspaceFit
  rw [TaUnit.bytesIn_append, hmark, hspace]
  exact TaUnit.endOfTrace_amidRaw_out hspaceMin hspaceFit (by decide)

/-- The example of R309 at the reset configuration: 105769 samples last 4400 µs. -/
theorem recordOf_reset_105769 (pol : Polarity) :
    recordOf (TaUnit.start .r05d HostRegs.reset) pol 105769#32 = .recon pol 4400#29 4400#16 := by
  have hus : (TaUnit.start .r05d HostRegs.reset).runUs 105769#32 = 4400 := rfl
  have hnominal : (TaUnit.start .r05d HostRegs.reset).runNominal 105769#32 = 4400 := by
    rw [TaUnit.runNominal, hus]; rfl
  rw [recordOf_of_within (by rw [hnominal, hus]; decide), hnominal, hus]
  rfl

/-- Settles O49: the seek bytes leave the started unit as it is but for its count, and the two runs follow. -/
theorem traceOfTwoRuns : Obligations.TraceOfTwoRuns := by
  refine ⟨?_, recordOf_reset_105769⟩
  intro r proto header marks spaces hheader hmarks hspaces hmarkNe hmarkMin hmarkFit hspaceNe hspaceMin hspaceFit
  have hseek : (TaUnit.start proto r).bytesIn header = { TaUnit.start proto r with skip := 0#16 } :=
    TaUnit.bytesIn_seek hheader
  calc ((TaUnit.start proto r).bytesIn (header ++ marks ++ spaces)).endOfTrace.out
      = (({ TaUnit.start proto r with skip := 0#16 } : TaUnit).bytesIn (marks ++ spaces)).endOfTrace.out := by
        rw [List.append_assoc, TaUnit.bytesIn_append, hseek]
    _ = _ := TaUnit.endOfTrace_twoRuns_out rfl rfl rfl rfl hmarks hspaces hmarkNe hmarkMin hmarkFit hspaceNe hspaceMin
        hspaceFit

end Sys2Proof.Machine
end

section
/-! PROOFS. The line `irq` and the bits of IRQSTAT (spec/60_exceptions.md R340 to R342, R349): what each operation does
to IRQSTAT, one lemma per operation, and the same for each agent's step. -/

namespace Sys2Proof.Machine

/-! ## The line -/

/-- The six sources have the bits 0 to 5 (spec/10_state.md R42, R43). -/
theorem irqBits_getLsbD (i : Nat) : irqBits.getLsbD i = decide (i < 6) := by
  have hones : irqBits = (BitVec.allOnes 6).setWidth 32 := rfl
  rw [hones, BitVec.getLsbD_setWidth, BitVec.getLsbD_allOnes, ← Bool.decide_and]
  exact decide_eq_decide.mpr (by omega)

/-- Settles O54: the line is 1 where one bit of the masked AND is 1. -/
theorem irqLineLevel : Obligations.IrqLineLevel := by
  intro s
  calc irqLine s = true
      ↔ s.host.irqstat &&& s.host.irqen &&& irqBits ≠ 0#32 := decide_eq_true_iff
    _ ↔ ∃ i, (s.host.irqstat &&& s.host.irqen &&& irqBits).getLsbD i = true := by
        simp only [ne_eq, BitVec.zero_iff_eq_false, not_forall, Bool.not_eq_false]
    _ ↔ _ := exists_congr fun i => by
        simp only [BitVec.getLsbD_and, irqBits_getLsbD, Bool.and_eq_true, decide_eq_true_eq]
        exact and_comm

/-! ## What an operation does to IRQSTAT -/

/-- IRQSTAT is as before, or has gained the bit of this source (spec/60_exceptions.md R340). -/
abbrev IrqKeptOrRaised (src : IrqSource) (s t : State) : Prop :=
  t.host.irqstat = s.host.irqstat ∨ t.host.irqstat = s.host.irqstat ||| src.mask

theorem CommandEffect.irqstat_eq {op : BitVec 8} {s u : State} (h : CommandEffect s op u) :
    u.host.irqstat = s.host.irqstat := by
  cases h with
  | nop | result | txStart | rxStart | rxStop | gapStart | gapStop | gapAck | taStart => rfl

theorem CommandNext.irqstat {op : BitVec 8} {s t : State} (h : CommandNext op s t) : IrqKeptOrRaised .cmdErr s t := by
  obtain ⟨code, -, rfl⟩ | ⟨u, hu, rfl⟩ := h
  · exact .inr rfl
  · exact .inl hu.irqstat_eq

theorem txAccepted_irqstat (op : DriverOp) (s : State) : IrqKeptOrRaised .txDone s (txAccepted op s) := by
  by_cases hlast : s.tx.opi + 1 = s.tx.ops.length
  · rw [txAccepted_last hlast]; exact .inr rfl
  · rw [txAccepted_not_last hlast]; exact .inl rfl

theorem rxConsumed_irqstat (ev : DecEvent) (s : State) : IrqKeptOrRaised .rxTerm s (rxConsumed ev s) := by
  simp only [rxConsumed]
  split
  · exact .inr rfl
  · exact .inl rfl

theorem intakeEdge_irqstat (depth : Nat) (e : EdgeEvent) (s : State) :
    IrqKeptOrRaised .gapOvf s (intakeEdge depth e s) := by
  simp only [intakeEdge]
  split
  · exact .inl rfl
  · split
    · exact .inl rfl
    · exact .inr rfl

/-- A closed frame latches its result, or is dropped for a result latched before (spec/43_gap_framer.md R261). -/
theorem closeFrame_irqstat (s : State) :
    IrqKeptOrRaised .gapResult s (closeFrame s) ∨ IrqKeptOrRaised .gapOvf s (closeFrame s) := by
  by_cases hbuf : s.gap.buf = []
  · rw [closeFrame_empty hbuf]; exact .inl (.inl rfl)
  · by_cases hresult : s.gap.result = none
    · rw [closeFrame_latches hbuf hresult]; exact .inl (.inr rfl)
    · rw [closeFrame_overrun hbuf hresult]; exact .inr (.inr rfl)

/-- An edge raises what closing the frame raises; where it closes none, nothing (spec/43_gap_framer.md R256). -/
theorem edgeTaken_irqstat (depth : Nat) (e : EdgeEvent) (s : State) :
    IrqKeptOrRaised .gapResult s (edgeTaken depth e s) ∨ IrqKeptOrRaised .gapOvf s (edgeTaken depth e s) := by
  simp only [edgeTaken, frameEdge]
  split
  · exact .inl (.inl rfl)
  · split
    · exact closeFrame_irqstat { s with gap := { s.gap with q := s.gap.q.tail } }
    · unfold appendInterval
      split
      · exact .inl (.inl rfl)
      · exact .inl (.inl rfl)

theorem silenceClosed_irqstat (s : State) :
    IrqKeptOrRaised .gapResult s (silenceClosed s) ∨ IrqKeptOrRaised .gapOvf s (silenceClosed s) :=
  closeFrame_irqstat s

theorem recAccepted_irqstat (r : Record) (s : State) : IrqKeptOrRaised .taDone s (recAccepted r s) := by
  cases r with
  | recon | anomaly => exact .inl rfl
  | fin => exact .inr rfl

/-! ## What a step does to IRQSTAT (spec/60_exceptions.md R340, R341, R349) -/

theorem act_tx_irqstat {s t : State} (h : act exec .tx s = .next t) : IrqKeptOrRaised .txDone s t := by
  obtain rfl | ⟨op, -, -, -, rfl⟩ := act_tx_next h
  · exact .inl rfl
  · exact txAccepted_irqstat op s

theorem act_rx_irqstat {s t : State} (h : act exec .rx s = .next t) : IrqKeptOrRaised .rxTerm s t := by
  obtain rfl | ⟨w, -, -, -, -, rfl⟩ := act_rx_next h
  · exact .inl rfl
  · exact rxConsumed_irqstat (capEvent w) s

theorem act_edgeIntake_irqstat {s t : State} (h : act exec .edgeIntake s = .next t) : IrqKeptOrRaised .gapOvf s t := by
  obtain rfl | ⟨w, -, -, -, rfl⟩ := act_edgeIntake_next h
  · exact .inl rfl
  · exact intakeEdge_irqstat _ (edgeOfWord w) s

/-- The two steps that can close a frame. -/
theorem act_framing_irqstat {a : Action} {s t : State} (ha : a = .gapEdge ∨ a = .gapSilence)
    (h : act exec a s = .next t) : IrqKeptOrRaised .gapResult s t ∨ IrqKeptOrRaised .gapOvf s t := by
  obtain rfl | rfl := ha
  · obtain rfl | ⟨e, -, -, -, -, rfl⟩ := act_gapEdge_next h
    · exact .inl (.inl rfl)
    · exact edgeTaken_irqstat _ e s
  · obtain rfl | ⟨-, -, rfl⟩ := act_gapSilence_next h
    · exact .inl (.inl rfl)
    · exact silenceClosed_irqstat s

theorem act_taToken_irqstat {s t : State} (h : act exec .taToken s = .next t) :
    t.host.irqstat = s.host.irqstat := by
  obtain rfl | ⟨w, -, -, -, -, -, rfl⟩ := act_taToken_next h
  · rfl
  · rfl

theorem act_taEmit_irqstat {s t : State} (h : act exec .taEmit s = .next t) : IrqKeptOrRaised .taDone s t := by
  obtain rfl | ⟨r, -, -, -, -, rfl⟩ := act_taEmit_next h
  · exact .inl rfl
  · exact recAccepted_irqstat r s

theorem act_hostRead_irqstat {size : Nat} {off : BitVec 8} {s t : State}
    (h : act exec (.hostRead size off) s = .next t) : t.host.irqstat = s.host.irqstat := by
  obtain ⟨-, rfl⟩ | ⟨-, rfl⟩ := act_hostRead_next h
  · rfl
  · rfl

/-- A host write leaves IRQSTAT, raises CMD_ERR at CMD, or clears bits at IRQSTAT. -/
theorem act_hostWrite_irqstat {size : Nat} {off : BitVec 8} {v : Word} {s t : State}
    (h : act exec (.hostWrite size off v) s = .next t) :
    t.host.irqstat = s.host.irqstat ∨
      (t.host.irqstat = s.host.irqstat ||| IrqSource.cmdErr.mask ∧ size = 4 ∧ off = 0x00#8) ∨
      (t.host.irqstat = s.host.irqstat &&& ~~~(v &&& irqBits) ∧ size = 4 ∧ off = 0x4C#8) := by
  obtain ⟨-, rfl⟩ | ⟨hlegal, hwrite⟩ := act_hostWrite_next h
  · exact .inl rfl
  obtain ⟨hsize, -, -⟩ := (accessOk_iff size off s).mp hlegal
  obtain ⟨hcmd, hnext⟩ | ⟨-, rfl⟩ := hwrite
  · exact hnext.irqstat.imp id fun hraised => .inl ⟨hraised, hsize, hcmd⟩
  · by_cases hoff : off = 0x4C#8
    · subst hoff; exact .inr (.inr ⟨rfl, hsize, rfl⟩)
    · obtain ⟨-, -, -, -, hkept⟩ := HostRegs.write_kept off v s.host
      exact .inl (hkept hoff)

/-- Settles O55, agent by agent: a unit's step raises what its operation raises, the host's write is
`act_hostWrite_irqstat`, and the environment touches IRQSTAT by reset only. -/
theorem irqBitsOverSteps : Obligations.IrqBitsOverSteps := by
  intro a s t h
  cases a with
  | hostRead size off => exact .inl (act_hostRead_irqstat h)
  | hostWrite size off v =>
    obtain hkept | ⟨hraised, rfl, rfl⟩ | ⟨hcleared, rfl, rfl⟩ := act_hostWrite_irqstat h
    · exact .inl hkept
    · exact .inr (.inl ⟨hraised, v, rfl⟩)
    · exact .inr (.inr (.inr (.inr (.inr (.inr (.inr (.inl ⟨v, hcleared, rfl⟩)))))))
  | tx => exact (act_tx_irqstat h).imp id fun hraised => .inr (.inl ⟨hraised, rfl⟩)
  | rx => exact (act_rx_irqstat h).imp id fun hraised => .inr (.inr (.inl ⟨hraised, rfl⟩))
  | edgeIntake =>
    exact (act_edgeIntake_irqstat h).imp id fun hraised =>
      .inr (.inr (.inr (.inr (.inl ⟨hraised, .inl rfl⟩))))
  | gapEdge | gapSilence =>
    obtain (hkept | hlatched) | (hkept | hovf) := act_framing_irqstat (by simp) h
    · exact .inl hkept
    · exact .inr (.inr (.inr (.inr (.inl ⟨hlatched, by simp⟩))))
    · exact .inl hkept
    · exact .inr (.inr (.inr (.inr (.inr (.inl ⟨hovf, by simp⟩)))))
  | taToken => exact .inl (act_taToken_irqstat h)
  | taEmit =>
    exact (act_taEmit_irqstat h).imp id fun hraised => .inr (.inr (.inr (.inr (.inr (.inl ⟨hraised, rfl⟩)))))
  | rst b =>
    cases h
    cases b with
    | false => exact .inl rfl
    | true => exact .inr (.inr (.inr (.inr (.inr (.inr (.inr (.inr ⟨rfl, rfl⟩)))))))
  | capOffer | edgeOffer | trcOffer | drvReady | recReady | tick => cases h; exact .inl rfl

end Sys2Proof.Machine
end

section
/-! PROOFS. Command errors (spec/60_exceptions.md R331, R332): what a CMD write leaves unchanged, the order of its
checks, and what the commands of the units leave unchanged. -/

namespace Sys2Proof.Machine

open Sys2Proof.Claims

/-! ## What a CMD write writes (spec/60_exceptions.md R331) -/

/-- Settles O7: a CMD write raises an error, which is `statusError`, or has an effect, which leaves IRQSTAT. -/
theorem cmdErrorChangesNothingElse : Obligations.CmdErrorChangesNothingElse := by
  intro v s t hr h
  obtain ⟨code, hcode, rfl⟩ | ⟨u, hu, rfl⟩ := executeCommand_next hr h
  · exact .inl ⟨code, hcode, rfl⟩
  · exact .inr ⟨rfl, rfl, hu.irqstat_eq⟩

/-! ## The checks of a CMD write (spec/60_exceptions.md R332) -/

theorem executeCommand_badOpcode {v : Word} {s : State} (hr : s.env.rst = false) (hv : v.extractLsb' 16 16 = 0#16)
    (hop : opField v ∉ opcodeMap) : executeCommand exec v s = .next (statusError .badOpcode (opField v) s) := by
  have hd : decodeCmd v = .error .badOpcode := by
    rw [decodeCmd, if_neg (not_not.mpr hv), decodeOp_badOpcode hop]
  rw [executeCommand, hd]
  exact runCommand_error hr _ _

/-- A command word without reserved bits runs what the opcode map gives for its opcode. -/
theorem executeCommand_decodeOp {v : Word} {op : BitVec 8} {i : Instr} (hv : v.extractLsb' 16 16 = 0#16)
    (hop : opField v = op) (hi : decodeOp op (protoField v) (kindField v) = .ok i) (s : State) :
    executeCommand exec v s = exec i s :=
  executeCommand_decoded (decode_cmd_eq_ok_iff.mpr (decodeCmd_eq_ok_iff.mpr ⟨hv, hop ▸ hi⟩)) s

/-- An opcode that uses PROTO checks it before all else. -/
theorem executeCommand_proto {v : Word} (hv : v.extractLsb' 16 16 = 0#16) (hop : opField v ∈ protoOps) (s : State) :
    ∃ body, executeCommand exec v s = runCommand (opField v) (withProto (protoField v) body) s := by
  generalize hop' : opField v = op at hop ⊢
  simp only [protoOps, List.mem_cons, List.not_mem_nil, or_false] at hop
  obtain rfl | rfl | rfl | rfl | rfl | rfl | rfl | rfl := hop <;>
    exact ⟨_, executeCommand_decodeOp hv hop' rfl s⟩

/-- An opcode that uses KIND is a command over one symbol. -/
theorem executeCommand_kind {v : Word} (hv : v.extractLsb' 16 16 = 0#16) (hop : opField v ∈ kindOps) (s : State) :
    ∃ body, executeCommand exec v s =
      runCommand (opField v) (symbolCommand (protoField v) (kindField v) body s) s := by
  generalize hop' : opField v = op at hop ⊢
  simp only [kindOps, List.mem_cons, List.not_mem_nil, or_false] at hop
  obtain rfl | rfl | rfl := hop <;> exact ⟨_, executeCommand_decodeOp hv hop' rfl s⟩

theorem symbols_length (p : Proto) : (symbols p).length = 4 := by
  cases p with
  | nec | r05d => rfl

/-- Settles O8: the reserved bits and the opcode by the decoder, PROTO and KIND by the form of the commands that use
them, the last checks by the statement about each command. -/
theorem commandCheckOrder : Obligations.CommandCheckOrder := by
  refine fun v s hr => ⟨(executeCommand_reserved · hr), fun hv => ⟨executeCommand_badOpcode hr hv,
    fun hop hp => ?proto, fun hop hp hk => ?kind, fun hop hp hk => ?undef, fun hop hp harg => ?index,
    fun hop hp hbusy => ?tx, fun hop hp hbusy => ?rx, fun hop hp hbusy => ?gap, fun hop hp => ?tproto,
    fun hop hp hbusy => ?ta⟩⟩
  case proto =>
    obtain ⟨body, hbody⟩ := executeCommand_proto hv hop s
    rw [hbody]; exact protoCommand_badProto hr hp
  case kind =>
    obtain ⟨body, hbody⟩ := executeCommand_kind hv hop s
    obtain ⟨-, hbad, -⟩ := symbolCommand_errors (opField v) (protoField v) (kindField v) body hr
    rw [hbody]; exact hbad hp hk
  case undef =>
    obtain ⟨body, hbody⟩ := executeCommand_kind hv hop s
    obtain ⟨-, -, hundef⟩ := symbolCommand_errors (opField v) (protoField v) (kindField v) body hr
    rw [hbody]; exact hundef hp hk
  case index =>
    obtain ⟨proto, -, hproto⟩ := ofField_isSome hp
    obtain ⟨-, -, hindex, -⟩ := symbolResult (protoField v) (kindField v) s hr
    rw [executeCommand_decodeOp hv hop rfl]
    exact hindex proto hproto.symm (by rwa [symbols_length])
  case tx =>
    obtain ⟨-, -, htx, -⟩ := txStartArmsFrame (protoField v) (kindField v) s hr
    rw [executeCommand_decodeOp hv hop rfl]; exact htx hp hbusy
  case rx =>
    obtain ⟨-, -, hrx, -⟩ := rxStartArms (protoField v) (kindField v) s hr
    rw [executeCommand_decodeOp hv hop rfl]; exact hrx hp (s.rx.dec.st.running_iff.mp hbusy)
  case gap =>
    obtain ⟨-, -, hgap, -⟩ := gapStartEnables (protoField v) (kindField v) s hr
    rw [executeCommand_decodeOp hv hop rfl]; exact hgap hp hbusy
  case tproto =>
    obtain ⟨-, htproto, -, -⟩ := taStartCopiesConfiguration (protoField v) (kindField v) s hr
    rw [executeCommand_decodeOp hv hop rfl]; exact htproto hp
  case ta =>
    obtain ⟨-, -, hta, -⟩ := taStartCopiesConfiguration (protoField v) (kindField v) s hr
    rw [executeCommand_decodeOp hv hop rfl]; exact hta hp hbusy

/-! ## The next state of a unit's command -/

/-- Beyond the classifier's, each opcode's effect is on its own unit only (spec/20_memory.md R95). -/
theorem CommandEffect.ownUnit {op : BitVec 8} {s u : State} (h : CommandEffect s op u) :
    op ≤ 0x05#8 ∨ (op = 0x10#8 ∧ ∃ x, u = { s with tx := x }) ∨
      (op ∈ [0x20#8, 0x21#8] ∧ ∃ x, u = { s with rx := x }) ∨
      (op ∈ [0x30#8, 0x31#8, 0x32#8] ∧ ∃ x, u = { s with gap := x }) ∨
      (op = 0x40#8 ∧ ∃ x, u = { s with ta := x }) := by
  cases h with
  | nop => exact .inl (by decide)
  | result _ _ _ hop =>
    have hle : ∀ op ∈ [0x01#8, 0x02#8, 0x03#8, 0x04#8, 0x05#8], op ≤ 0x05#8 := by decide
    exact .inl (hle op hop)
  | txStart => exact .inr (.inl ⟨rfl, _, rfl⟩)
  | rxStart | rxStop => exact .inr (.inr (.inl ⟨by decide, _, rfl⟩))
  | gapStart | gapStop | gapAck => exact .inr (.inr (.inr (.inl ⟨by decide, _, rfl⟩)))
  | taStart => exact .inr (.inr (.inr (.inr ⟨rfl, _, rfl⟩)))

/-- `t` is `u` with CSTAT written and with CMD_ERR raised at most (spec/60_exceptions.md R331). -/
def StatusWritten (u t : State) : Prop :=
  ∃ err lastOp irq, (irq = u.host.irqstat ∨ irq = u.host.irqstat ||| 0x01#32) ∧
    t = { u with host := { u.host with err := err, lastOp := lastOp, irqstat := irq } }

/-- Everything a command can do, whatever `rst`: an effect or none, then CSTAT and IRQSTAT. -/
theorem exec_command_statusWritten {op : BitVec 8} {p k : BitVec 4} {i : Instr} {s t : State}
    (hi : decodeOp op p k = .ok i) (h : exec i s = .next t) :
    ∃ u, (u = s ∨ CommandEffect s op u) ∧ StatusWritten u t := by
  have hd : decodeCmd (cmdWord op p k) = .ok i := (decodeCmd_cmdWord op p k).trans hi
  cases hr : s.env.rst with
  | true =>
    obtain ⟨body, hbody⟩ := exec_command_eq hd s
    rw [hbody, runCommand_held hr] at h
    cases h
    exact ⟨s, .inl rfl, _, _, _, .inl rfl, rfl⟩
  | false =>
    have hnext : CommandNext op s t := opField_cmdWord op p k ▸ exec_command_next hr hd h
    obtain ⟨code, -, rfl⟩ | ⟨u, hu, rfl⟩ := hnext
    · exact ⟨s, .inl rfl, _, _, _, .inr rfl, rfl⟩
    · exact ⟨u, .inr hu, _, _, _, .inl rfl, rfl⟩

/-- A command whose effects are all updates `set` of one unit, which `x₀` leaves as it is. -/
theorem exec_unitCommand_next {α : Type} {set : α → State} {op : BitVec 8} {p k : BitVec 4} {i : Instr} {s t : State}
    (x₀ : α) (hkept : set x₀ = s) (hown : ∀ u, CommandEffect s op u → ∃ x, u = set x)
    (hi : decodeOp op p k = .ok i) (h : exec i s = .next t) : ∃ x, StatusWritten (set x) t := by
  obtain ⟨u, rfl | hu, ht⟩ := exec_command_statusWritten hi h
  · exact ⟨x₀, hkept ▸ ht⟩
  · obtain ⟨x, rfl⟩ := hown u hu
    exact ⟨x, ht⟩

/-! ## What a unit's command leaves unchanged -/

theorem readReg_cstat {r : BitVec 8} (h : r ≠ 0x10#8) (s : State) (err : CmdStatus) (lastOp : BitVec 8) :
    readReg r { s with host := { s.host with err := err, lastOp := lastOp } } = readReg r s := by
  simp only [readReg, h, if_false]

/-- Every register of the GAP framer (`readReg_gap` speaks of those without the latched result). -/
theorem readReg_gapUnit {r : BitVec 8} (h : r ∉ [0x28#8, 0x2C#8, 0x30#8]) (s : State) (u : GapUnit) :
    readReg r { s with gap := u } = readReg r s := by
  simp only [List.mem_cons, List.not_mem_nil, or_false, not_or] at h
  simp only [readReg, h, if_false]

/-- What is left of `s` where a command has changed `s` into `u`, which shows in the registers `own` only. -/
theorem StatusWritten.frame {own : List (BitVec 8)} {s u t : State} (h : StatusWritten u t) (hhost : u.host = s.host)
    (hown : ∀ r, r ∉ own → readReg r u = readReg r s) :
    ((t.host.irqstat = s.host.irqstat ∨ t.host.irqstat = s.host.irqstat ||| 0x01#32) ∧
      t.host = { s.host with err := t.host.err, lastOp := t.host.lastOp, irqstat := t.host.irqstat }) ∧
    t.tx = u.tx ∧ t.rx = u.rx ∧ t.gap = u.gap ∧ t.ta = u.ta ∧ t.env = u.env ∧
    ∀ a : BitVec 8, a &&& 0xFC#8 ∉ 0x10#8 :: (own ++ [0x4C#8]) → readByte a t = readByte a s := by
  obtain ⟨err, lastOp, irq, hirq, rfl⟩ := h
  rw [hhost] at hirq ⊢
  refine ⟨⟨hirq, rfl⟩, rfl, rfl, rfl, rfl, rfl, fun a ha => ?_⟩
  refine readByte_of_own (own := 0x10#8 :: own) (u := { u with host := { s.host with err := err, lastOp := lastOp } })
    ha (fun r hr => ?_) irq
  rw [List.mem_cons, not_or] at hr
  obtain ⟨hcstat, hunit⟩ := hr
  rw [← hhost]
  exact (readReg_cstat hcstat u err lastOp).trans (hown r hunit)

/-- Settles O50: a unit's command writes its unit, CSTAT and IRQSTAT, and each shows in its own registers. -/
theorem unitCommandFrame : Obligations.UnitCommandFrame := by
  refine fun p k s t => ⟨fun h => ?tx, fun h => ?rx, fun h => ?gap, fun h => ?ta⟩
  case tx =>
    obtain ⟨x, hx⟩ : ∃ x, StatusWritten { s with tx := x } t :=
      exec_unitCommand_next (op := 0x10#8) s.tx rfl (fun u hu => by simpa using hu.ownUnit) rfl h
    obtain ⟨hhost, -, hrx, hgap, hta, henv, hread⟩ := hx.frame (s := s) rfl fun r hr => readReg_tx hr s x
    exact ⟨hhost, hrx, hgap, hta, henv, hread⟩
  case rx =>
    obtain ⟨x, hx⟩ : ∃ x, StatusWritten { s with rx := x } t := by
      obtain h | h := h
      · exact exec_unitCommand_next (op := 0x20#8) s.rx rfl (fun u hu => by simpa using hu.ownUnit) rfl h
      · exact exec_unitCommand_next (op := 0x21#8) s.rx rfl (fun u hu => by simpa using hu.ownUnit) rfl h
    obtain ⟨hhost, htx, -, hgap, hta, henv, hread⟩ := hx.frame (s := s) rfl fun r hr => readReg_rx hr s x
    exact ⟨hhost, htx, hgap, hta, henv, hread⟩
  case gap =>
    obtain ⟨x, hx⟩ : ∃ x, StatusWritten { s with gap := x } t := by
      obtain h | h | h := h
      · exact exec_unitCommand_next (op := 0x30#8) s.gap rfl (fun u hu => by simpa using hu.ownUnit) rfl h
      · exact exec_unitCommand_next (op := 0x31#8) s.gap rfl (fun u hu => by simpa using hu.ownUnit) rfl h
      · exact exec_unitCommand_next (op := 0x32#8) s.gap rfl (fun u hu => by simpa using hu.ownUnit) rfl h
    obtain ⟨hhost, htx, hrx, -, hta, henv, hread⟩ := hx.frame (s := s) rfl fun r hr => readReg_gapUnit hr s x
    exact ⟨hhost, htx, hrx, hta, henv, hread⟩
  case ta =>
    obtain ⟨x, hx⟩ : ∃ x, StatusWritten { s with ta := x } t :=
      exec_unitCommand_next (op := 0x40#8) s.ta rfl (fun u hu => by simpa using hu.ownUnit) rfl h
    obtain ⟨hhost, htx, hrx, hgap, -, henv, hread⟩ := hx.frame (s := s) rfl fun r hr => readReg_ta hr s x
    exact ⟨hhost, htx, hrx, hgap, henv, hread⟩

end Sys2Proof.Machine
end

section
/-! PROOFS. Reset and timing (spec/70_reset_and_hazards.md R370, R391): the state after reset is sound, and the DELAYs of
a frame sum to the nominals of its header, its bits and its stop. -/

namespace Sys2Proof.Machine

open Sys2Proof.Claims

/-- Settles O59: unit by unit, as the base of the invariant of O60. -/
theorem resetIsSound : Obligations.ResetIsSound := State.reset_sound

/-! ## The DELAYs of a list of events -/

@[simp] theorem delays_append (ops ops' : List DriverOp) : delays (ops ++ ops') = delays ops ++ delays ops' :=
  List.filterMap_append

theorem delays_finalOps (f : List PulseEvent) : delays (finalOps f) = [] := by
  rw [finalOps]
  split
  · split <;> rfl
  · rfl

/-- A duration of at most 9000 µs fits the 24 bits of its DELAY (spec/30_encoding.md R110). -/
theorem delays_eventOps {e : PulseEvent} (h : e.dur.toNat ≤ 9000) : delays (eventOps e) = [e.dur.toNat] := by
  have hfits : (e.dur.setWidth 24).toNat = e.dur.toNat := by
    rw [BitVec.toNat_setWidth]
    exact Nat.mod_eq_of_lt (by omega)
  rw [← hfits, eventOps]
  split <;> rfl

/-- The DELAYs are the events' durations, in order (spec/41_encoder.md R184). -/
theorem delays_driverOps {f : List PulseEvent} (h : ∀ e ∈ f, e.dur.toNat ≤ 9000) :
    delays (driverOps f) = f.map (·.dur.toNat) := by
  rw [driverOps, delays_append, delays_finalOps, List.append_nil]
  induction f with
  | nil => rfl
  | cons e es ih =>
    obtain ⟨he, hes⟩ := List.forall_mem_cons.mp h
    rw [List.flatMap_cons, delays_append, delays_eventOps he, ih hes]
    rfl

/-! ## The nominals of a list of symbols -/

/-- The nominals of these symbols in µs, summed (spec/40_classifier.md R141). -/
def nominalSum (p : Proto) (l : List FrameSymbol) : Nat := (l.map fun x => (symbolDuration p x.2).toNat).sum

@[simp] theorem nominalSum_append (p : Proto) (l l' : List FrameSymbol) :
    nominalSum p (l ++ l') = nominalSum p l + nominalSum p l' := by
  simp [nominalSum]

theorem symbolEvents_dur_sum (p : Proto) (l : List FrameSymbol) :
    ((l.map (symbolEvent p)).map (·.dur.toNat)).sum = nominalSum p l := by
  rw [List.map_map]
  rfl

/-- Every one-bit adds one pair and every zero-bit the other (spec/30_encoding.md R115, R116). -/
theorem nominalSum_bitPairs (p : Proto) (bits : List Bool) :
    nominalSum p (bits.flatMap bitSymbols) =
      bits.count true * nominalSum p (bitSymbols true) + bits.count false * nominalSum p (bitSymbols false) := by
  induction bits with
  | nil => simp [nominalSum]
  | cons b bs ih =>
    rw [List.flatMap_cons, nominalSum_append, ih]
    cases b with
    | false => simp only [List.count_cons_self, List.count_cons_of_ne (Bool.false_ne_true)]; ring
    | true => simp only [List.count_cons_self, List.count_cons_of_ne (Bool.false_ne_true.symm)]; ring

theorem nominalSum_pairedSymbols (p : Proto) (bits : List Bool) (stop : List FrameSymbol) :
    nominalSum p (pairedSymbols bits stop) = nominalSum p headerSymbols +
      (bits.count true * nominalSum p (bitSymbols true) + bits.count false * nominalSum p (bitSymbols false)) +
      nominalSum p stop := by
  rw [pairedSymbols, nominalSum_append, nominalSum_append, nominalSum_bitPairs]

/-! ## The duration of a frame -/

theorem necBits_count_true (v : Word) : (necBits v).count true = ones v := by
  simp [necBits, ones, List.count, List.countP_map, Function.comp_def]

/-- A zero-bit takes 1120 µs and a one-bit 2250 µs (spec/70_reset_and_hazards.md R391). -/
theorem nominalSum_necSymbols (v : Word) : nominalSum .nec (necSymbols v) = 49900 + 1130 * ones v := by
  have hparts : nominalSum .nec headerSymbols = 13500 ∧ nominalSum .nec (bitSymbols true) = 2250 ∧
      nominalSum .nec (bitSymbols false) = 1120 ∧ nominalSum .nec [(.mark, .stopMark)] = 560 := by decide
  obtain ⟨hheader, hone, hzero, hstop⟩ := hparts
  have hbits : (necBits v).count true + (necBits v).count false = 32 :=
    (List.count_not_add_count (necBits v) false).trans (necBits_length v)
  rw [necSymbols_eq, nominalSum_pairedSymbols, hheader, hone, hzero, hstop]
  rw [necBits_count_true] at hbits ⊢
  omega

/-- 24 one-bits and 24 zero-bits, whatever the bytes (spec/41_encoder.md R190). -/
theorem nominalSum_subFrameSymbols (a b c : Byte) : nominalSum .r05d (subFrameSymbols a b c) = 92320 := by
  rw [subFrameSymbols_eq, nominalSum_pairedSymbols, subFrameBits_count, subFrameBits_count]
  decide

/-- Settles O20: the DELAYs are the nominals of the frame's symbols, whose bits are counted. -/
theorem frameDurations : Obligations.FrameDurations := by
  intro x
  rw [delays_driverOps (frame_dur .nec x), delays_driverOps (frame_dur .r05d x)]
  constructor
  · rw [frame, encodeNEC, symbolEvents_dur_sum, nominalSum_necSymbols]
  · rw [frame, encodeR05D, List.map_append, List.sum_append, symbolEvents_dur_sum, nominalSum_subFrameSymbols]

end Sys2Proof.Machine
end
